-- ==== Sys2Proof/Word.lean ====
section
/-! DEFINITION. Word types of the WMDCT core and the number type of its real-valued cells. -/

namespace Sys2Proof

/-- An 8-bit sample: a byte of `PIX`, a chroma cell, a clamped luma sample (10_state.md R48, R53). -/
abbrev Byte := BitVec 8

/-- A 16-bit operand register (10_state.md R21, R22, R27, R28). -/
abbrev Half := BitVec 16

/-- A 32-bit word: a command word, a register as the host reads it, a cell of `TXT` or `OUT`
(30_encoding.md R100, 10_state.md section 2, R49, R50). -/
abbrev Word := BitVec 32

/-- The exact rationals: the default of the parameter `Num`, the number type of `LUMA`, `BLK` and `COEF` and of every
value of the transform and the quantizer (00_scope.md R6, R9; assumption 2). -/
abbrev QNum := Rat

/-- An 8×8 register file of `Num` cells, cell `[r][c]` at index `8·r + c`: the numbering of the probe windows
(10_state.md R45 to R47). -/
abbrev Mat (ν : Type) := Vector ν 64

end Sys2Proof
end

