-- ==== Sys2Proof/Config.lean ====
section
/-! DEFINITION. The configuration of a core: the parameters of 00_scope.md R6, and the free values the
spec leaves unspecified, each an opaque constant with no body. -/

namespace Sys2Proof

/-- The parameter `COLOR`: a pair of total functions on 8-bit samples that depend on their three
arguments only (41_channel_adapter.md R150). -/
structure Color where
  /-- `toYCC(p0, p1, p2) = (y, k1, k2)`. -/
  toYCC : Byte → Byte → Byte → Byte × Byte × Byte
  /-- `fromYCC(y, k1, k2) = (p0, p1, p2)`. -/
  fromYCC : Byte → Byte → Byte → Byte × Byte × Byte

/-- The parameter `RESETMEM`: what each cell of each buffer and register file holds after a reset until
it is written (70_reset_and_hazards.md R292). The first argument numbers the resets, since each reset
takes a fresh `RESETMEM`; the others index the cell. -/
structure ResetMem (ν : Type) where
  pix : Nat → Nat → Byte
  txt : Nat → Nat → Word
  out : Nat → Nat → Word
  bits : Nat → Nat → Bool
  /-- Reset number, row, column. -/
  luma : Nat → Nat → Nat → ν
  chr1 : Nat → Nat → Nat → Byte
  chr2 : Nat → Nat → Nat → Byte
  /-- Reset number, row, column. -/
  blk : Nat → Fin 8 → Fin 8 → ν
  coef : Nat → Fin 8 → Fin 8 → ν

/-- The parameter `Num`: a number type with the operations of 00_scope.md R9, and the embedding of the integers of
R13 (f). Every rule of 43_block_transform.md and 44_quantizer.md is written with these and nothing else. -/
structure NumOps (ν : Type) where
  add : ν → ν → ν
  sub : ν → ν → ν
  mul : ν → ν → ν
  div : ν → ν → ν
  /-- The comparison `x < y`. -/
  lt : ν → ν → Bool
  /-- The greatest integer not above `x`. -/
  floor : ν → Int
  ofInt : Int → ν

/-- The default `Num`: exact arithmetic (00_scope.md R9). -/
def ratOps : NumOps QNum where
  add x y := x + y
  sub x y := x - y
  mul x y := x * y
  div x y := x / y
  lt x y := decide (x < y)
  floor := Rat.floor
  ofInt n := (n : QNum)

/-- The parameter `BASIS`: a ROM of integers with `F` fractional bits, or any other matrix
(43_block_transform.md R191). -/
inductive Basis (ν : Type) where
  | rom (table : Fin 8 → Fin 8 → Int)
  | matrix (c : Fin 8 → Fin 8 → ν)

/-- The parameters of 00_scope.md R6, `Num` being the type `ν` with the operations `num`. `MAXBITS` and `MAXOUT` are
derived (R7); `CPW`, `QFRAC` and `PFRAC` are fixed in this version. Not state: no step changes it (10_state.md R20). -/
structure Config (ν : Type) where
  /-- `MAXW`, the largest image width in pixels. -/
  maxw : Nat
  /-- `MAXH`, the largest image height in pixels. -/
  maxh : Nat
  /-- `MAXTEXT`, the largest text length in characters. -/
  maxtext : Nat
  /-- `Num`. -/
  num : NumOps ν
  /-- `F`, the fractional bits of the basis ROM. -/
  f : Nat
  /-- `BASIS`, the matrix `C[k][n]` of the transform (43_block_transform.md R191). -/
  basis : Basis ν
  /-- `COLOR`, the colour conversion functions. -/
  color : Color
  /-- `BASE`, the byte address of the core's window on the host bus. -/
  base : Nat
  /-- `RESETMEM`. -/
  resetMem : ResetMem ν
  /-- The unspecified words a host read may return (20_memory.md R74, R79): one for each host access,
  applied to the number of accesses made so far. -/
  freeWord : Nat → Word

/- The free values of the default configuration (assumptions 4 and 5): nothing in Lean can evaluate them or
prove a value of one, so a theorem that mentions them holds for every `RESETMEM` and every unspecified read. -/
opaque Config.freePix : Nat → Nat → Byte
opaque Config.freeTxt : Nat → Nat → Word
opaque Config.freeOut : Nat → Nat → Word
opaque Config.freeBits : Nat → Nat → Bool
opaque Config.freeLuma : Nat → Nat → Nat → QNum
opaque Config.freeChr1 : Nat → Nat → Nat → Byte
opaque Config.freeChr2 : Nat → Nat → Nat → Byte
opaque Config.freeBlk : Nat → Fin 8 → Fin 8 → QNum
opaque Config.freeCoef : Nat → Fin 8 → Fin 8 → QNum
opaque Config.freeReadWord : Nat → Word

end Sys2Proof
end

