-- ==== Sys2Proof/Machine/Params.lean ====
section
/-! DEFINITION. Integer and number helpers of 00_scope.md, the default basis ROM and colour converter, and the
default configuration. -/

namespace Sys2Proof

variable {ν : Type}

/-- `NB(x)`, the number of block positions along a dimension of `x` pixels: `(x − 1) div 8` for `x ≥ 1`
and 0 for `x = 0` (00_scope.md R7, 42_block_iterator.md R170). -/
def nb (x : Nat) : Nat := if x = 0 then 0 else (x - 1) / 8

/-- `MAXBITS` (00_scope.md R7). -/
def Config.maxbits (cfg : Config ν) : Nat := max (8 * cfg.maxtext + 16) (nb cfg.maxh * nb cfg.maxw)

/-- `MAXOUT` (00_scope.md R6, R7). -/
def Config.maxout (cfg : Config ν) : Nat := cfg.maxbits / 8

/-- The number of bytes of `PIX` (10_state.md R48). -/
def Config.pixBytes (cfg : Config ν) : Nat := 3 * cfg.maxw * cfg.maxh

/-- `sat8` (00_scope.md R8). -/
def sat8 (v : Int) : Byte := if v < 0 then 0 else if v > 255 then 255 else BitVec.ofInt 8 v

/-- `tou8(x) = sat8(floor(x + 1/2))`: nearest, ties up, then clamped (00_scope.md R10). -/
def tou8 (num : NumOps ν) (x : ν) : Byte := sat8 (num.floor (num.add x (num.div (num.ofInt 1) (num.ofInt 2))))

/-- `sat32` as a two's complement word (10_state.md R47). -/
def sat32 (v : Int) : Word :=
  if v < -2147483648 then BitVec.ofInt 32 (-2147483648)
  else if v > 2147483647 then BitVec.ofInt 32 2147483647
  else BitVec.ofInt 32 v

/-- The index `8·r + c` of cell `[r][c]` (10_state.md R47). -/
def cellIndex (r c : Fin 8) : Fin 64 := ⟨8 * r.val + c.val, by omega⟩

/-- `M[r][c]`. -/
def matAt (m : Mat ν) (r c : Fin 8) : ν := m[(cellIndex r c).val]

/-- The matrix with these cells. -/
def matOf (f : Fin 8 → Fin 8 → ν) : Mat ν :=
  Vector.ofFn fun k => f ⟨k.val / 8, by omega⟩ ⟨k.val % 8, by omega⟩

/-- The basis ROM at `F = 30`, row `k`, column `n` (43_block_transform.md R191). -/
def basisRom : Vector (Vector Int 8) 8 := #v[
  #v[379625062, 379625062, 379625062, 379625062, 379625062, 379625062, 379625062, 379625062],
  #v[526555088, 446391849, 298269498, 104738319, -104738319, -298269498, -446391849, -526555088],
  #v[496004047, 205451603, -205451603, -496004047, -496004047, -205451603, 205451603, 496004047],
  #v[446391849, -104738319, -526555088, -298269498, 298269498, 526555088, 104738319, -446391849],
  #v[379625062, -379625062, -379625062, 379625062, 379625062, -379625062, -379625062, 379625062],
  #v[298269498, -526555088, 104738319, 446391849, -446391849, -104738319, 526555088, -298269498],
  #v[205451603, -496004047, 496004047, -205451603, -205451603, 496004047, -496004047, 205451603],
  #v[104738319, -298269498, 446391849, -526555088, 526555088, -446391849, 298269498, -104738319]]

/-- `C[k][n]`: `ROM[k][n] / 2^F`, or the cell of the matrix given (43_block_transform.md R191). -/
def Config.c (cfg : Config ν) (k n : Fin 8) : ν :=
  match cfg.basis with
  | .rom table => cfg.num.div (cfg.num.ofInt (table k n)) (cfg.num.ofInt (2 ^ cfg.f))
  | .matrix m => m k n

/-- The default `toYCC`: channels red, green, blue to `Y`, `Cr`, `Cb`; `x >> 14` is the floor of `x / 16384`
for negative `x` too (41_channel_adapter.md R151). -/
def toYCCBt601 (p0 p1 p2 : Byte) : Byte × Byte × Byte :=
  let r : Int := p0.toNat
  let g : Int := p1.toNat
  let b : Int := p2.toNat
  let y := sat8 ((4899 * r + 9617 * g + 1868 * b + 8192) / 16384)
  let cr := sat8 (((r - y.toNat) * 11682 + 2097152 + 8192) / 16384)
  let cb := sat8 (((b - y.toNat) * 9241 + 2097152 + 8192) / 16384)
  (y, cr, cb)

/-- The default `fromYCC` (41_channel_adapter.md R152). -/
def fromYCCBt601 (y cr cb : Byte) : Byte × Byte × Byte :=
  let l : Int := y.toNat
  let dr : Int := (cr.toNat : Int) - 128
  let db : Int := (cb.toNat : Int) - 128
  (sat8 (l + (dr * 22987 + 8192) / 16384),
   sat8 (l + (db * (-5636) + dr * (-11698) + 8192) / 16384),
   sat8 (l + (db * 29049 + 8192) / 16384))

/-- `COLOR_BT601_FX14` (41_channel_adapter.md R150 to R152). -/
def colorBt601 : Color := { toYCC := toYCCBt601, fromYCC := fromYCCBt601 }

/-- The default configuration (00_scope.md R6). `BASE` is left to the platform; 0 is a DESIGN CHOICE
(assumption 3). -/
def Config.default : Config QNum where
  maxw := 1024
  maxh := 1024
  maxtext := 2048
  num := ratOps
  f := 30
  basis := .rom fun k n => basisRom[k][n]
  color := colorBt601
  base := 0
  resetMem :=
    { pix := Config.freePix, txt := Config.freeTxt, out := Config.freeOut, bits := Config.freeBits,
      luma := Config.freeLuma, chr1 := Config.freeChr1, chr2 := Config.freeChr2,
      blk := Config.freeBlk, coef := Config.freeCoef }
  freeWord := Config.freeReadWord

/-- The byte offset inside the core's window of a byte address on the host bus, if the address selects the
core: the core decodes 25 address bits above `BASE` (20_memory.md R71, R85). -/
def Config.offset? (cfg : Config ν) (a : Nat) : Option Nat :=
  if cfg.base ≤ a ∧ a < cfg.base + 33554432 then some (a - cfg.base) else none

end Sys2Proof
end

