-- ==== Sys2Proof/Syntax.lean ====
section
/-! DEFINITION. The sixteen commands of WMDCT-CMD version 1. -/

namespace Sys2Proof

/-- The commands of 30_encoding.md R104, in the order of the opcode map, one constructor per row of
spec/opcode_table.json. The only operand of any command word is the bit `B` of `QEMB` (R102, R103). -/
inductive Instr where
  | nop
  | t2b
  | b2t
  | cscf
  | csci
  | itrst
  | itnext
  | blkld
  | blkst
  | fdct
  | idct
  | qemb (b : Bool)
  | qext
  | cap
  | embed
  | extract
  deriving DecidableEq, Repr

end Sys2Proof
end

