-- ==== Sys2Proof/WellFormed.lean ====
section
/-! DEFINITION. Which instructions and which configurations are well formed. -/

namespace Sys2Proof

/-- Every term of `Instr` is well formed: the one operand, the bit of `QEMB`, is a `Bool`, and both its
values are legal (30_encoding.md R102, R104). -/
def Instr.wf : Instr → Bool
  | .nop | .t2b | .b2t | .cscf | .csci | .itrst | .itnext | .blkld | .blkst | .fdct | .idct | .qext | .cap
  | .embed | .extract => true
  | .qemb true => true
  | .qemb false => true

/-- The constraints of 00_scope.md R6 and R7: the ranges of the three sizes, that every buffer fits its window,
and that `BASE` is a multiple of `2^25`. -/
def Config.wf {ν : Type} (cfg : Config ν) : Bool :=
  decide (1 ≤ cfg.maxw) && decide (cfg.maxw ≤ 65535) && decide (1 ≤ cfg.maxh) && decide (cfg.maxh ≤ 65535)
    && decide (cfg.maxtext ≤ 16384) && decide (4 * cfg.maxtext ≤ 65536) && decide (4 * cfg.maxout ≤ 65536)
    && decide (cfg.maxbits ≤ 524288) && decide (cfg.pixBytes ≤ 16777216) && decide (cfg.base % 33554432 = 0)

end Sys2Proof
end

