-- ==== Sys2Proof/Decode.lean ====
section
/-! DEFINITION. Decoding a command word, total on all 2^32 words, and encoding a command. -/

namespace Sys2Proof

/-- Why a word is an illegal command (30_encoding.md R105). -/
inductive Illegal where
  /-- The opcode is not one of R104: 0x0E, 0x0F, 0x12 to 0xFF. -/
  | reservedOpcode
  /-- A non-zero bit in 31:8 of a word whose opcode is not that of `QEMB`. -/
  | nonzeroN
  /-- A non-zero bit in 31:9 of a `QEMB` word. -/
  | nonzeroB
  deriving DecidableEq, Repr

/-- `OPC = w[7:0]` (30_encoding.md R101, R102). -/
def opcField (w : Word) : Byte := w.extractLsb' 0 8

/-- `w[31:8]`, the `ZERO` field of format N (30_encoding.md R101). -/
def zeroFieldN (w : Word) : BitVec 24 := w.extractLsb' 8 24

/-- `w[31:9]`, the `ZERO` field of format B (30_encoding.md R102). -/
def zeroFieldB (w : Word) : BitVec 23 := w.extractLsb' 9 23

/-- `B = w[8]` (30_encoding.md R102, R103). -/
def bitField (w : Word) : Bool := w.getLsbD 8

/-- The format N command with this opcode (30_encoding.md R104). -/
def decodeN (opc : Byte) : Except Illegal Instr :=
  match opc.toNat with
  | 0x00 => .ok .nop
  | 0x01 => .ok .t2b
  | 0x02 => .ok .b2t
  | 0x03 => .ok .cscf
  | 0x04 => .ok .csci
  | 0x05 => .ok .itrst
  | 0x06 => .ok .itnext
  | 0x07 => .ok .blkld
  | 0x08 => .ok .blkst
  | 0x09 => .ok .fdct
  | 0x0A => .ok .idct
  | 0x0C => .ok .qext
  | 0x0D => .ok .cap
  | 0x10 => .ok .embed
  | 0x11 => .ok .extract
  | _ => .error .reservedOpcode

/-- The decoder, in the order of 30_encoding.md R107. -/
def decode (w : Word) : Except Illegal Instr :=
  if opcField w = 0x0B then
    if zeroFieldB w ≠ 0 then .error .nonzeroB else .ok (.qemb (bitField w))
  else if zeroFieldN w ≠ 0 then .error .nonzeroN
  else decodeN (opcField w)

/-- The word of a command (30_encoding.md R104). -/
def encode : Instr → Word
  | .nop => 0x00000000
  | .t2b => 0x00000001
  | .b2t => 0x00000002
  | .cscf => 0x00000003
  | .csci => 0x00000004
  | .itrst => 0x00000005
  | .itnext => 0x00000006
  | .blkld => 0x00000007
  | .blkst => 0x00000008
  | .fdct => 0x00000009
  | .idct => 0x0000000A
  | .qemb false => 0x0000000B
  | .qemb true => 0x0000010B
  | .qext => 0x0000000C
  | .cap => 0x0000000D
  | .embed => 0x00000010
  | .extract => 0x00000011

/-- A row of the opcode table in match-and-mask form (30_encoding.md R107, spec/opcode_table.json). -/
structure OpcodeRow where
  mask : Word
  pattern : Word
  deriving DecidableEq, Repr

/-- The word has the row's pattern under its mask. -/
def OpcodeRow.covers (r : OpcodeRow) (w : Word) : Bool := w &&& r.mask == r.pattern

/-- The row of a format N command: all 32 bits are fixed (30_encoding.md R107). -/
def OpcodeRow.formatN (k : Word) : OpcodeRow := { mask := 0xFFFFFFFF, pattern := k }

/-- The sixteen rows, in the order of 30_encoding.md R104; `QEMB` leaves bit 8 open. -/
def opcodeTable : List OpcodeRow :=
  [0x00, 0x01, 0x02, 0x03, 0x04, 0x05, 0x06, 0x07, 0x08, 0x09, 0x0A].map OpcodeRow.formatN
    ++ [{ mask := 0xFFFFFEFF, pattern := 0x0000000B }]
    ++ [0x0C, 0x0D, 0x10, 0x11].map OpcodeRow.formatN

/-- What the decoder reads from a word of the opcode table's numbering: a command is one 32-bit word, so
the bits above `nbits` are 0 and `w` is that word (30_encoding.md R100). -/
def decodeTableWord (nbits w : Nat) : Option Instr :=
  match decode (BitVec.ofNat 32 (w % 2 ^ nbits)) with
  | .ok i => some i
  | .error _ => none

end Sys2Proof
end

