-- ==== Sys2Proof/Machine/State.lean ====
section
/-! DEFINITION. The state of one core (10_state.md R20), the host's turns it reads, the two stop reasons, and the
state after reset. -/

namespace Sys2Proof.Machine

/-- The error codes of 60_exceptions.md R260 other than 0; codes 8 to 255 are never produced
(93_implementation_defined.md U18). -/
inductive Err where
  | illcmd
  | invimg
  | unenc
  | capacity
  | badq
  | len
  | bounds
  deriving DecidableEq, Repr

/-- `PHASE` (10_state.md R31). `BUSY` is the same fact (R33) and is read off it. -/
inductive Phase where
  | idle
  | busy
  deriving DecidableEq, Repr

/-- The operand registers (10_state.md R21 to R30). -/
structure Regs where
  width : Half
  height : Half
  qstep : Word
  textlen : Word
  nbits : Word
  outlen : Word
  iti : Half
  itj : Half
  bitcur : Word
  capacity : Word
  deriving DecidableEq, Repr

/-- The status flags and `ERR` (10_state.md R34 to R40); `err = none` is code 0. -/
structure Flags where
  done : Bool
  found : Bool
  trunc : Bool
  ovr : Bool
  bitout : Bool
  itvalid : Bool
  err : Option Err
  deriving DecidableEq, Repr

/-- `CTRL`: bit 0 `IE`, bit 1 `CAPMODE`; the other bits do not exist (10_state.md R42). -/
structure Ctrl where
  ie : Bool
  capmode : Bool
  deriving DecidableEq, Repr

/-- The buffers (10_state.md R48 to R53). Each list holds the cells written since the last reset, keys strictly
rising; a cell not listed holds the value that `RESETMEM` number `epoch` gives it. The keys are: the byte
number in `PIX`, the word number in `TXT` and `OUT`, the bit number in `BITS`, and `r·MAXW + c` for cell `[r][c]` of a
plane (DESIGN CHOICE, assumption 8). -/
structure Memory (ν : Type) where
  epoch : Nat
  pix : List Host.Cell
  txt : List (Nat × Word)
  out : List (Nat × Word)
  bits : List (Nat × Bool)
  luma : List (Nat × ν)
  chr1 : List Host.Cell
  chr2 : List Host.Cell
  deriving DecidableEq, Repr

/-- The four operations of the host port, at a byte address of the host bus (20_memory.md R70). -/
inductive PortOp where
  | read4 (a : Nat)
  | write4 (a : Nat) (v : Word)
  | read1 (a : Nat)
  | write1 (a : Nat) (v : Byte)
  deriving DecidableEq, Repr

/-- What happens next, as the outside world and the scheduling decide it (DESIGN CHOICE, assumption 1): an access of the Host,
a turn of the Engine, or a new level of the input `rst` (00_scope.md R4, 10_state.md R31, 70_reset_and_hazards.md R290). -/
inductive Turn where
  | port (op : PortOp)
  | engine
  | rst (asserted : Bool)
  deriving DecidableEq, Repr

/-- The data of a response: none for a write, a word or a byte for a read. -/
inductive RespData where
  | none
  | word (w : Word)
  | byte (b : Byte)
  deriving DecidableEq, Repr

/-- The response of a host access (20_memory.md R70). -/
inductive PortResp where
  | okay (d : RespData)
  | error (d : RespData)
  deriving DecidableEq, Repr

/-- The core's boundary, the model's own fields (DESIGN CHOICE, assumptions 1, 5 and 14): the level of the input `rst`; the turns still
to come; the response of the access this step made; the number of host accesses so far, which the free
value of an unspecified read is applied to. -/
structure Boundary where
  rst : Bool
  turns : List Turn
  resp : Option PortResp
  fresh : Nat
  deriving DecidableEq, Repr

/-- The state of one core (10_state.md R20), and its boundary. `ID` is a constant (R41); `STATUS` and `CMD` are views of
`flags`, `phase` and `cmdl` (R43, R44). `ν` is the parameter `Num`. -/
structure State.Of (ν : Type) where
  regs : Regs
  phase : Phase
  cmdl : Word
  flags : Flags
  ctrl : Ctrl
  blk : Mat ν
  coef : Mat ν
  mem : Memory ν
  port : Boundary
  deriving DecidableEq, Repr

/-- The state at the default `Num`, the exact rationals (00_scope.md R9). -/
abbrev State := State.Of QNum

/-- The machine never stops with a fault: every host access gets a response and every issued command completes
(93_implementation_defined.md section 1). An error of a command is a value of `ERR`, not a fault. -/
inductive Fault
  deriving DecidableEq, Repr

/-- The one refusal: raised by an arm of `exec` for a command with no meaning yet. Safe: the run stops. -/
inductive Refusal where
  | notModelled (mnemonic : String)
  deriving DecidableEq, Repr

/-- The operand registers after reset (10_state.md R56): `QSTEP` is strength 20, the others are 0. -/
def Regs.reset : Regs :=
  { width := 0, height := 0, qstep := 0x00140000, textlen := 0, nbits := 0, outlen := 0, iti := 0, itj := 0,
    bitcur := 0, capacity := 0 }

/-- `STATUS = 0` after reset (10_state.md R56). -/
def Flags.reset : Flags :=
  { done := false, found := false, trunc := false, ovr := false, bitout := false, itvalid := false, err := none }

/-- The buffers after reset number `epoch`: nothing listed, every cell at its `RESETMEM` value
(70_reset_and_hazards.md R292). -/
def Memory.unwritten {ν : Type} (epoch : Nat) : Memory ν :=
  { epoch := epoch, pix := [], txt := [], out := [], bits := [], luma := [], chr1 := [], chr2 := [] }

/-- The state that reset number `epoch` leaves, with the given boundary (10_state.md R56, 70_reset_and_hazards.md R291). -/
def State.Of.afterReset {ν : Type} (cfg : Config ν) (epoch : Nat) (port : Boundary) : State.Of ν :=
  { regs := Regs.reset, phase := .idle, cmdl := 0, flags := Flags.reset, ctrl := { ie := false, capmode := false },
    blk := matOf (cfg.resetMem.blk epoch), coef := matOf (cfg.resetMem.coef epoch),
    mem := Memory.unwritten epoch, port := port }

/-- The machine right after reset: `rst` released, no turn pending (70_reset_and_hazards.md R290, R291). -/
def State.reset : State :=
  State.Of.afterReset Config.default 0 { rst := false, turns := [], resp := none, fresh := 0 }

end Sys2Proof.Machine
end

