-- ==== Sys2Proof/Machine/Ops.lean ====
section
/-! DEFINITION. The named operations: sparse cells, the buffers, the 8×8 register files, and how a command
is issued, completes, or completes with an error. -/

namespace Sys2Proof.Machine

variable {ν : Type}

/-! ### Sparse cells -/

/-- The value listed for a key, if the cell has been written. -/
def Cells.get? {α : Type} : List (Nat × α) → Nat → Option α
  | [], _ => none
  | (j, v) :: t, k => if k = j then some v else Cells.get? t k

/-- Writing one cell: the list stays sorted, with one entry for each key. -/
def Cells.set {α : Type} : List (Nat × α) → Nat → α → List (Nat × α)
  | [], k, v => [(k, v)]
  | (j, w) :: t, k, v =>
    if k < j then (k, v) :: (j, w) :: t
    else if k = j then (k, v) :: t
    else (j, w) :: Cells.set t k v

/-- Writing values to consecutive cells from a first one. -/
def Cells.setSeq {α : Type} : List (Nat × α) → Nat → List α → List (Nat × α)
  | m, _, [] => m
  | m, k, v :: vs => Cells.setSeq (Cells.set m k v) (k + 1) vs

/-- Writing a list of cells, first to last. -/
def Cells.setMany {α : Type} (m : List (Nat × α)) (kvs : List (Nat × α)) : List (Nat × α) :=
  kvs.foldl (fun acc kv => Cells.set acc kv.1 kv.2) m

/-- The canonical form of a buffer of `size` cells: keys strictly rising from `lo`, all below `size`. -/
def Cells.wf {α : Type} (size : Nat) : Nat → List (Nat × α) → Bool
  | _, [] => true
  | lo, (j, _) :: t => decide (lo ≤ j) && decide (j < size) && Cells.wf size (j + 1) t

/-! ### Buffers -/

/-- The key of cell `[r][c]` of a plane: planes are indexed by row and column, so `WIDTH` does not move a
cell (10_state.md R52). -/
def planeKey (cfg : Config ν) (r c : Nat) : Nat := r * cfg.maxw + c

/-- Every buffer is in its canonical form and inside its size (10_state.md R48 to R53). -/
def Memory.wf (m : Memory ν) (cfg : Config ν) : Bool :=
  Cells.wf cfg.pixBytes 0 m.pix && Cells.wf cfg.maxtext 0 m.txt && Cells.wf cfg.maxout 0 m.out
    && Cells.wf cfg.maxbits 0 m.bits && Cells.wf (cfg.maxw * cfg.maxh) 0 m.luma
    && Cells.wf (cfg.maxw * cfg.maxh) 0 m.chr1 && Cells.wf (cfg.maxw * cfg.maxh) 0 m.chr2

/-- `PIX[a]` (10_state.md R48); never written: its `RESETMEM` value (70_reset_and_hazards.md R292). -/
def Memory.pixByte (cfg : Config ν) (m : Memory ν) (a : Nat) : Byte :=
  (Cells.get? m.pix a).getD (cfg.resetMem.pix m.epoch a)

/-- `TXT[k]` (10_state.md R49). -/
def Memory.txtWord (cfg : Config ν) (m : Memory ν) (k : Nat) : Word :=
  (Cells.get? m.txt k).getD (cfg.resetMem.txt m.epoch k)

/-- `OUT[g]` (10_state.md R50). -/
def Memory.outWord (cfg : Config ν) (m : Memory ν) (g : Nat) : Word :=
  (Cells.get? m.out g).getD (cfg.resetMem.out m.epoch g)

/-- `BITS[k]` (10_state.md R51). -/
def Memory.bit (cfg : Config ν) (m : Memory ν) (k : Nat) : Bool :=
  (Cells.get? m.bits k).getD (cfg.resetMem.bits m.epoch k)

/-- `LUMA[r][c]` (10_state.md R52). -/
def Memory.lumaAt (cfg : Config ν) (m : Memory ν) (r c : Nat) : ν :=
  (Cells.get? m.luma (planeKey cfg r c)).getD (cfg.resetMem.luma m.epoch r c)

/-- `CHR1[r][c]` (10_state.md R53). -/
def Memory.chr1At (cfg : Config ν) (m : Memory ν) (r c : Nat) : Byte :=
  (Cells.get? m.chr1 (planeKey cfg r c)).getD (cfg.resetMem.chr1 m.epoch r c)

/-- `CHR2[r][c]` (10_state.md R53). -/
def Memory.chr2At (cfg : Config ν) (m : Memory ν) (r c : Nat) : Byte :=
  (Cells.get? m.chr2 (planeKey cfg r c)).getD (cfg.resetMem.chr2 m.epoch r c)

/-- The pairs `(r, c)` of a rectangle, row by row: `for r in 0 .. h−1: for c in 0 .. w−1` (00_scope.md R11). -/
def coords (h w : Nat) : List (Nat × Nat) :=
  (List.range h).flatMap fun r => (List.range w).map fun c => (r, c)

/-- `(r·W + c)·3`, the `PIX` byte of channel 0 of pixel `(r, c)` in an image of width `w` (20_memory.md R75). -/
def pixAddr (w r c : Nat) : Nat := (r * w + c) * 3

/-! ### Register files -/

/-- Writing one cell of a matrix. -/
def matSet (m : Mat ν) (k : Fin 64) (x : ν) : Mat ν := m.set k.val x

/-- A sum over the eight indices, in order; in the exact rationals the order does not matter
(43_block_transform.md R192; DESIGN CHOICE for any other `Num`, assumption 2). -/
def sum8 (num : NumOps ν) (f : Fin 8 → ν) : ν :=
  num.add (num.add (num.add (num.add (num.add (num.add (num.add (f 0) (f 1)) (f 2)) (f 3)) (f 4)) (f 5)) (f 6)) (f 7)

/-- A host read of a register-file cell: `sat32(floor(x · 65536))` (10_state.md R47). -/
def probeRead (num : NumOps ν) (x : ν) : Word := sat32 (num.floor (num.mul x (num.ofInt 65536)))

/-- A host write of a register-file cell: `sext_32(w) / 65536` (10_state.md R47). -/
def probeWrite (num : NumOps ν) (w : Word) : ν := num.div (num.ofInt w.toInt) (num.ofInt 65536)

/-! ### Issue, completion, errors -/

/-- Issue of the word `w` (10_state.md R31 (b)): latches it, becomes busy, clears `DONE`, `FOUND`, `TRUNC` and
`ERR`. -/
def issue (w : Word) (s : State.Of ν) : State.Of ν :=
  { s with
    cmdl := w
    phase := .busy
    flags := { s.flags with done := false, found := false, trunc := false, err := none } }

/-- Normal completion (10_state.md R31 (c), 00_scope.md R12): idle, `DONE = 1`, `ERR = 0` (DEDUCED, assumption
10). -/
def complete (s : State.Of ν) : State.Of ν :=
  { s with phase := .idle, flags := { s.flags with done := true, err := none } }

/-- THE EXCEPTION ENTRY of this hardware: completion with an error (60_exceptions.md R271). Nothing is saved and
control goes nowhere; `ERR`, `DONE` and the phase change and nothing else. -/
def raiseErr (e : Err) (s : State.Of ν) : State.Of ν :=
  { s with phase := .idle, flags := { s.flags with done := true, err := some e } }

/-- The return from an error: there is no return instruction; a host write `v` to `STATUS` while idle
acknowledges `DONE` (bit 1) and clears `OVR` (bit 4), and `ERR` stays until the next issue
(60_exceptions.md R272, 10_state.md R43). -/
def acknowledge (v : Word) (s : State.Of ν) : State.Of ν :=
  { s with
    flags := { s.flags with done := s.flags.done && !v.getLsbD 1, ovr := s.flags.ovr && !v.getLsbD 4 } }

/-- What a command's rule does to the state, or the error its checks raise; on an error no state has
changed (00_scope.md R11, R12). -/
abbrev Effect (ν : Type) := Except Err (State.Of ν)

/-- The two ways a command ends (00_scope.md R12). -/
def finish (s : State.Of ν) (r : Effect ν) : Host.Outcome (State.Of ν) Fault Refusal :=
  match r with
  | .ok t => .next (complete t)
  | .error e => .next (raiseErr e s)

/-! ### Reset -/

/-- The input `rst` at a new level (70_reset_and_hazards.md R290 to R292). Asserting it puts the registers at their
reset values and gives every cell a fresh `RESETMEM` value (DEDUCED, assumption 4); releasing it changes nothing
else. -/
def resetInput (cfg : Config ν) (asserted : Bool) (s : State.Of ν) : State.Of ν :=
  if asserted = s.port.rst then s
  else if asserted then State.Of.afterReset cfg (s.mem.epoch + 1) { s.port with rst := true }
  else { s with port := { s.port with rst := false } }

/-- Taking the next turn: it leaves the list, and the response of the step before is gone. -/
def takeTurn (ts : List Turn) (s : State.Of ν) : State.Of ν :=
  { s with port := { s.port with turns := ts, resp := none } }

end Sys2Proof.Machine
end

