-- ==== Sys2Proof/Machine/Operands.lean ====
section
/-! DEFINITION. Operands of the commands, the checks that raise an error, and the registers of the register block. -/

namespace Sys2Proof.Machine

variable {ν : Type}

/-! ### Operands -/

/-- `WIDTH` as an integer (10_state.md R21, 00_scope.md R13). -/
abbrev State.Of.w (s : State.Of ν) : Nat := s.regs.width.toNat

/-- `HEIGHT` as an integer (10_state.md R22). -/
abbrev State.Of.h (s : State.Of ν) : Nat := s.regs.height.toNat

/-- `TEXTLEN` as an integer (10_state.md R24). -/
abbrev State.Of.textLen (s : State.Of ν) : Nat := s.regs.textlen.toNat

/-- `NBITS` as an integer (10_state.md R25). -/
abbrev State.Of.nBits (s : State.Of ν) : Nat := s.regs.nbits.toNat

/-- `IT_I` as an integer (10_state.md R27). -/
abbrev State.Of.i (s : State.Of ν) : Nat := s.regs.iti.toNat

/-- `IT_J` as an integer (10_state.md R28). -/
abbrev State.Of.j (s : State.Of ν) : Nat := s.regs.itj.toNat

/-- The strength `Q = QSTEP / 65536` (10_state.md R23). -/
def State.Of.strength (num : NumOps ν) (s : State.Of ν) : ν := num.div (num.ofInt s.regs.qstep.toNat) (num.ofInt 65536)

/-- `NB(H)·NB(W)`, the number of blocks of the image (42_block_iterator.md R170, R174). -/
def State.Of.blocks (s : State.Of ν) : Nat := nb s.h * nb s.w

/-- `8L + 16`, the length in bits of the text with its delimiter (40_bit_codec.md R132, 45_orchestrator.md R231). -/
def State.Of.payloadBits (s : State.Of ν) : Nat := 8 * s.textLen + 16

/-- The index of the carrier coefficient, row 4, column 5 (44_quantizer.md R210). -/
def carrierIndex : Fin 64 := cellIndex 4 5

/-- The carrier coefficient `COEF[4][5]` (44_quantizer.md R210). -/
def State.Of.carrier (s : State.Of ν) : ν := matAt s.coef 4 5

/-! ### Checks, each the cause of one error code -/

/-- The cause of `E_INVIMG` (60_exceptions.md R262). -/
def State.Of.badImage (cfg : Config ν) (s : State.Of ν) : Bool :=
  decide (s.w = 0) || decide (s.h = 0) || decide (s.w > cfg.maxw) || decide (s.h > cfg.maxh)

/-- The cause of `E_BADQ` (60_exceptions.md R265). -/
def State.Of.badStrength (s : State.Of ν) : Bool := decide (s.regs.qstep = 0)

/-- The cause of `E_LEN` at `T2B` and `EMBED` (60_exceptions.md R266). -/
def State.Of.badTextLen (cfg : Config ν) (s : State.Of ν) : Bool := decide (s.textLen > cfg.maxtext)

/-- The cause of `E_LEN` at `B2T` (60_exceptions.md R266). -/
def State.Of.badBitLen (cfg : Config ν) (s : State.Of ν) : Bool := decide (s.nBits > cfg.maxbits)

/-- The cause of `E_UNENC`: a character above 255 in the text (60_exceptions.md R263). -/
def State.Of.badText (cfg : Config ν) (s : State.Of ν) : Bool :=
  (List.range s.textLen).any fun k => decide ((s.mem.txtWord cfg k).toNat > 255)

/-- The cause of `E_CAPACITY`: the payload is longer than the capacity and the policy is strict
(60_exceptions.md R264). -/
def State.Of.overCapacity (s : State.Of ν) : Bool := decide (s.payloadBits > s.blocks) && !s.ctrl.capmode

/-- The cause of `E_BOUNDS`: the block at (`IT_I`, `IT_J`) does not lie inside the image
(60_exceptions.md R267). The sums are of integers and do not wrap. -/
def State.Of.badBlock (cfg : Config ν) (s : State.Of ν) : Bool :=
  decide (s.w > cfg.maxw) || decide (s.h > cfg.maxh) || decide (s.i + 8 > s.h) || decide (s.j + 8 > s.w)

/-! ### The register block (10_state.md R57) -/

/-- The registers of the register block; `reserved` stands for each offset from 0x38 to 0xFC. -/
inductive Reg where
  | id
  | ctrl
  | status
  | cmd
  | width
  | height
  | qstep
  | textlen
  | nbits
  | outlen
  | iti
  | itj
  | bitcur
  | capacity
  | reserved
  deriving DecidableEq, Repr

/-- The register at a word offset of the register block (10_state.md R57). -/
def regAt (off : Nat) : Reg :=
  match off with
  | 0x00 => .id
  | 0x04 => .ctrl
  | 0x08 => .status
  | 0x0C => .cmd
  | 0x10 => .width
  | 0x14 => .height
  | 0x18 => .qstep
  | 0x1C => .textlen
  | 0x20 => .nbits
  | 0x24 => .outlen
  | 0x28 => .iti
  | 0x2C => .itj
  | 0x30 => .bitcur
  | 0x34 => .capacity
  | _ => .reserved

/-- The offset of a register (10_state.md R57); of the reserved ones, the first. -/
def Reg.offset : Reg → Nat
  | .id => 0x00
  | .ctrl => 0x04
  | .status => 0x08
  | .cmd => 0x0C
  | .width => 0x10
  | .height => 0x14
  | .qstep => 0x18
  | .textlen => 0x1C
  | .nbits => 0x20
  | .outlen => 0x24
  | .iti => 0x28
  | .itj => 0x2C
  | .bitcur => 0x30
  | .capacity => 0x34
  | .reserved => 0x38

/-- `ID`, the ASCII bytes "WMD1" (10_state.md R41). -/
def idWord : Word := 0x574D4431

/-- The registers a host may read while a command runs (20_memory.md R79); the reserved offsets are not among them
(DEDUCED, assumption 13). -/
def Reg.readableBusy : Reg → Bool
  | .id | .ctrl | .status | .cmd => true
  | .width | .height | .qstep | .textlen | .nbits | .outlen | .iti | .itj | .bitcur | .capacity | .reserved => false

end Sys2Proof.Machine
end

