-- ==== Sys2Proof/Machine/Flags.lean ====
section
/-! DEFINITION. The status word, the control word, the interrupt line, and the register reads and writes of an idle
core. There are no arithmetic condition codes (10_state.md R32). -/

namespace Sys2Proof.Machine

variable {ν : Type}

/-- `BUSY = 1` exactly when `PHASE = BUSY` (10_state.md R33). -/
def State.Of.busy (s : State.Of ν) : Bool := decide (s.phase = .busy)

/-- The error codes (60_exceptions.md R260). -/
def errCode : Option Err → Byte
  | none => 0
  | some .illcmd => 1
  | some .invimg => 2
  | some .unenc => 3
  | some .capacity => 4
  | some .badq => 5
  | some .len => 6
  | some .bounds => 7

/-- A flag as one bit. -/
def flagBit (b : Bool) : BitVec 1 := BitVec.ofBool b

/-- `STATUS`: bits 31:16 are 0, 15:8 `ERR`, 7 is 0, then `ITVALID`, `BITOUT`, `OVR`, `TRUNC`, `FOUND`, `DONE` and in bit 0
`BUSY` (10_state.md R43). -/
def State.Of.status (s : State.Of ν) : Word :=
  (0#16 ++ errCode s.flags.err ++ 0#1 ++ flagBit s.flags.itvalid ++ flagBit s.flags.bitout ++ flagBit s.flags.ovr
    ++ flagBit s.flags.trunc ++ flagBit s.flags.found ++ flagBit s.flags.done ++ flagBit s.busy : BitVec 32)

/-- `CTRL`: bit 0 `IE`, bit 1 `CAPMODE`, the others 0 (10_state.md R42). -/
def State.Of.ctrlWord (s : State.Of ν) : Word := (0#30 ++ flagBit s.ctrl.capmode ++ flagBit s.ctrl.ie : BitVec 32)

/-- The interrupt output, `STATUS.DONE ∧ CTRL.IE` at all times (60_exceptions.md R274). -/
def State.Of.irq (s : State.Of ν) : Bool := s.flags.done && s.ctrl.ie

/-- What a host read of a register returns (10_state.md R57): bits above a register's width read 0, `CMD` reads the
word issued last, reserved offsets read 0. -/
def readReg (r : Reg) (s : State.Of ν) : Word :=
  match r with
  | .id => idWord
  | .ctrl => s.ctrlWord
  | .status => s.status
  | .cmd => s.cmdl
  | .width => s.regs.width.setWidth 32
  | .height => s.regs.height.setWidth 32
  | .qstep => s.regs.qstep
  | .textlen => s.regs.textlen
  | .nbits => s.regs.nbits
  | .outlen => s.regs.outlen
  | .iti => s.regs.iti.setWidth 32
  | .itj => s.regs.itj.setWidth 32
  | .bitcur => s.regs.bitcur
  | .capacity => s.regs.capacity
  | .reserved => 0

/-- What a host write `v` to a register of an idle core does (10_state.md R57): a narrower register keeps the
low bits (00_scope.md R13), `STATUS` is write-one-to-clear, `CMD` issues, and read-only and reserved
registers ignore it. -/
def writeReg (r : Reg) (v : Word) (s : State.Of ν) : State.Of ν :=
  match r with
  | .id => s
  | .ctrl => { s with ctrl := { ie := v.getLsbD 0, capmode := v.getLsbD 1 } }
  | .status => acknowledge v s
  | .cmd => issue v s
  | .width => { s with regs := { s.regs with width := v.setWidth 16 } }
  | .height => { s with regs := { s.regs with height := v.setWidth 16 } }
  | .qstep => { s with regs := { s.regs with qstep := v } }
  | .textlen => { s with regs := { s.regs with textlen := v } }
  | .nbits => { s with regs := { s.regs with nbits := v } }
  | .outlen => s
  | .iti => { s with regs := { s.regs with iti := v.setWidth 16 } }
  | .itj => { s with regs := { s.regs with itj := v.setWidth 16 } }
  | .bitcur => s
  | .capacity => s
  | .reserved => s

end Sys2Proof.Machine
end

