-- ==== Sys2Proof/Machine/Channel.lean ====
section
/-! DEFINITION. The Channel Adapter: `CSCF` and `CSCI` (41_channel_adapter.md). -/

namespace Sys2Proof.Machine

variable {ν : Type}

/-- `COLOR.toYCC` of the pixel at row `r`, column `c` of `PIX` (41_channel_adapter.md R153, 20_memory.md R75). -/
def pixelYCC (cfg : Config ν) (s : State.Of ν) (r c : Nat) : Byte × Byte × Byte :=
  let a := pixAddr s.w r c
  cfg.color.toYCC (s.mem.pixByte cfg a) (s.mem.pixByte cfg (a + 1)) (s.mem.pixByte cfg (a + 2))

/-- The cells of one plane over the image rectangle, row by row. -/
def planeCells {α : Type} (cfg : Config ν) (s : State.Of ν) (f : Nat → Nat → α) : List (Nat × α) :=
  (coords s.h s.w).map fun rc => (planeKey cfg rc.1 rc.2, f rc.1 rc.2)

/-- `CSCF` (41_channel_adapter.md R153): the luma sample is the integer `y` as an exact `Num`. -/
def cscf (cfg : Config ν) (s : State.Of ν) : Effect ν :=
  if s.badImage cfg then .error .invimg
  else .ok
    { s with
      mem :=
        { s.mem with
          luma := Cells.setMany s.mem.luma (planeCells cfg s fun r c => cfg.num.ofInt (pixelYCC cfg s r c).1.toNat)
          chr1 := Cells.setMany s.mem.chr1 (planeCells cfg s fun r c => (pixelYCC cfg s r c).2.1)
          chr2 := Cells.setMany s.mem.chr2 (planeCells cfg s fun r c => (pixelYCC cfg s r c).2.2) } }

/-- `COLOR.fromYCC` of the cell `[r][c]` of the planes, its luma rounded and clamped (41_channel_adapter.md R154). -/
def cellRGB (cfg : Config ν) (s : State.Of ν) (r c : Nat) : Byte × Byte × Byte :=
  cfg.color.fromYCC (tou8 cfg.num (s.mem.lumaAt cfg r c)) (s.mem.chr1At cfg r c) (s.mem.chr2At cfg r c)

/-- The three bytes of every pixel of the image rectangle (41_channel_adapter.md R154). -/
def imageBytes (cfg : Config ν) (s : State.Of ν) : List (Nat × Byte) :=
  (coords s.h s.w).flatMap fun rc =>
    let p := cellRGB cfg s rc.1 rc.2
    let a := pixAddr s.w rc.1 rc.2
    [(a, p.1), (a + 1, p.2.1), (a + 2, p.2.2)]

/-- `CSCI` (41_channel_adapter.md R154): the planes keep their values. -/
def csci (cfg : Config ν) (s : State.Of ν) : Effect ν :=
  if s.badImage cfg then .error .invimg
  else .ok { s with mem := { s.mem with pix := Cells.setMany s.mem.pix (imageBytes cfg s) } }

/-- The command `CSCF` (41_channel_adapter.md R153). -/
def execCscf (s : State) : Host.Outcome State Fault Refusal := finish s (cscf Config.default s)

/-- The command `CSCI` (41_channel_adapter.md R154). -/
def execCsci (s : State) : Host.Outcome State Fault Refusal := finish s (csci Config.default s)

end Sys2Proof.Machine
end

