-- ==== Sys2Proof/Machine/Codec.lean ====
section
/-! DEFINITION. The Bit Codec: `T2B` and `B2T` (40_bit_codec.md). -/

namespace Sys2Proof.Machine

variable {ν : Type}

/-- `DELIM[t] = 1` for `t ≤ 7` and 0 for `t ≥ 8` (40_bit_codec.md R130). -/
def delimBit (t : Nat) : Bool := decide (t ≤ 7)

/-- The delimiter, sixteen bits (40_bit_codec.md R130). -/
def delimiter : List Bool := (List.range 16).map delimBit

/-- A bit sequence of length `n` ends with the delimiter (40_bit_codec.md R130). -/
def endsWithDelim (bit : Nat → Bool) (n : Nat) : Bool :=
  decide (16 ≤ n) && (List.range 16).all fun t => bit (n - 16 + t) == delimBit t

/-- The eight bits of a character, most significant first (40_bit_codec.md R131). -/
def charBits (p : Word) : List Bool := (List.range 8).map fun t => p.getLsbD (7 - t)

/-- The character of bit group `g`: `Σ_t BITS[8g + t] · 2^(7−t)`, zero-extended (40_bit_codec.md R131, R133). -/
def charAt (bit : Nat → Bool) (g : Nat) : Word :=
  BitVec.ofFnLE fun k : Fin 32 => decide (k.val < 8) && bit (8 * g + (7 - k.val))

/-- The first `m` characters of a bit sequence. -/
def decodeChars (bit : Nat → Bool) (m : Nat) : List Word := (List.range m).map (charAt bit)

/-- The characters of the text, `TXT[0, TEXTLEN)` (10_state.md R24, R49). -/
def textWords (cfg : Config ν) (s : State.Of ν) : List Word := (List.range s.textLen).map (s.mem.txtWord cfg)

/-- The bitstream of the text: its characters' bits, then the delimiter (40_bit_codec.md R132). -/
def payload (cfg : Config ν) (s : State.Of ν) : List Bool := (textWords cfg s).flatMap charBits ++ delimiter

/-- `T2B` (40_bit_codec.md R132). -/
def t2b (cfg : Config ν) (s : State.Of ν) : Effect ν :=
  if s.badTextLen cfg then .error .len
  else if s.badText cfg then .error .unenc
  else .ok
    { s with
      regs := { s.regs with nbits := BitVec.ofNat 32 s.payloadBits }
      mem := { s.mem with bits := Cells.setSeq s.mem.bits 0 (payload cfg s) } }

/-- The number of bits `B2T` groups: one trailing delimiter is removed (40_bit_codec.md R133). -/
def bitsToGroup (cfg : Config ν) (s : State.Of ν) : Nat :=
  if endsWithDelim (s.mem.bit cfg) s.nBits then s.nBits - 16 else s.nBits

/-- Writing the first `m` characters of `BITS` to `OUT`, and `OUTLEN <- m` (40_bit_codec.md R133, 45_orchestrator.md R232). -/
def writeOut (cfg : Config ν) (m : Nat) (s : State.Of ν) : State.Of ν :=
  { s with
    regs := { s.regs with outlen := BitVec.ofNat 32 m }
    mem := { s.mem with out := Cells.setSeq s.mem.out 0 (decodeChars (s.mem.bit cfg) m) } }

/-- `B2T` (40_bit_codec.md R133). -/
def b2t (cfg : Config ν) (s : State.Of ν) : Effect ν :=
  if s.badBitLen cfg then .error .len else .ok (writeOut cfg (bitsToGroup cfg s / 8) s)

/-- The command `T2B` (40_bit_codec.md R132). -/
def execT2b (s : State) : Host.Outcome State Fault Refusal := finish s (t2b Config.default s)

/-- The command `B2T` (40_bit_codec.md R133). -/
def execB2t (s : State) : Host.Outcome State Fault Refusal := finish s (b2t Config.default s)

end Sys2Proof.Machine
end

