-- ==== Sys2Proof/Machine/Iterator.lean ====
section
/-! DEFINITION. The Block Iterator: `ITRST`, `ITNEXT`, `CAP`, and the block load and store `BLKLD`, `BLKST`
(42_block_iterator.md). -/

namespace Sys2Proof.Machine

variable {ν : Type}

/-- `ITRST` (42_block_iterator.md R172). -/
def itrst (s : State.Of ν) : Effect ν :=
  .ok
    { s with
      regs := { s.regs with iti := 0, itj := 0 }
      flags := { s.flags with itvalid := decide (8 < s.h) && decide (8 < s.w) } }

/-- `ITNEXT` (42_block_iterator.md R173): the sums are of integers; at exhaustion the position stays. -/
def itnext (s : State.Of ν) : Effect ν :=
  if s.flags.itvalid then
    if s.j + 16 < s.w then .ok { s with regs := { s.regs with itj := BitVec.ofNat 16 (s.j + 8) } }
    else if s.i + 16 < s.h then .ok { s with regs := { s.regs with itj := 0, iti := BitVec.ofNat 16 (s.i + 8) } }
    else .ok { s with flags := { s.flags with itvalid := false } }
  else .ok s

/-- `CAP` (42_block_iterator.md R174). -/
def cap (cfg : Config ν) (s : State.Of ν) : Effect ν :=
  if s.badImage cfg then .error .invimg
  else .ok { s with regs := { s.regs with capacity := BitVec.ofNat 32 s.blocks } }

/-- `BLKLD` (42_block_iterator.md R175): `BLK[r][c] <- LUMA[IT_I + r][IT_J + c]`. -/
def blkld (cfg : Config ν) (s : State.Of ν) : Effect ν :=
  if s.badBlock cfg then .error .bounds
  else .ok { s with blk := matOf fun r c => s.mem.lumaAt cfg (s.i + r.val) (s.j + c.val) }

/-- The 64 cells of `LUMA` that `BLKST` writes (42_block_iterator.md R176). -/
def blockCells (cfg : Config ν) (s : State.Of ν) : List (Nat × ν) :=
  (List.finRange 8).flatMap fun r =>
    (List.finRange 8).map fun c => (planeKey cfg (s.i + r.val) (s.j + c.val), matAt s.blk r c)

/-- `BLKST` (42_block_iterator.md R176): `LUMA[IT_I + r][IT_J + c] <- BLK[r][c]`, unrounded. -/
def blkst (cfg : Config ν) (s : State.Of ν) : Effect ν :=
  if s.badBlock cfg then .error .bounds
  else .ok { s with mem := { s.mem with luma := Cells.setMany s.mem.luma (blockCells cfg s) } }

/-- The command `ITRST` (42_block_iterator.md R172). -/
def execItrst (s : State) : Host.Outcome State Fault Refusal := finish s (itrst s)

/-- The command `ITNEXT` (42_block_iterator.md R173). -/
def execItnext (s : State) : Host.Outcome State Fault Refusal := finish s (itnext s)

/-- The command `CAP` (42_block_iterator.md R174). -/
def execCap (s : State) : Host.Outcome State Fault Refusal := finish s (cap Config.default s)

/-- The command `BLKLD` (42_block_iterator.md R175). -/
def execBlkld (s : State) : Host.Outcome State Fault Refusal := finish s (blkld Config.default s)

/-- The command `BLKST` (42_block_iterator.md R176). -/
def execBlkst (s : State) : Host.Outcome State Fault Refusal := finish s (blkst Config.default s)

end Sys2Proof.Machine
end

