-- ==== Sys2Proof/Machine/Quantizer.lean ====
section
/-! DEFINITION. The Quantizer: `QEMB` and `QEXT` (44_quantizer.md). -/

namespace Sys2Proof.Machine

variable {ν : Type}

/-- `rem(c, Q) = c − Q · floor(c / Q)` (44_quantizer.md R211). -/
def remQ (num : NumOps ν) (c q : ν) : ν := num.sub c (num.mul q (num.ofInt (num.floor (num.div c q))))

/-- The centroid of a bit, `3Q/4` or `Q/4` (44_quantizer.md R212). -/
def centroid (num : NumOps ν) (b : Bool) (q : ν) : ν :=
  if b then num.div (num.mul (num.ofInt 3) q) (num.ofInt 4) else num.div q (num.ofInt 4)

/-- The requantised coefficient (44_quantizer.md R213). -/
def requantize (num : NumOps ν) (b : Bool) (q c : ν) : ν := num.add (num.sub c (remQ num c q)) (centroid num b q)

/-- The absolute value, by comparison with 0. -/
def absNum (num : NumOps ν) (x : ν) : ν := if num.lt x (num.ofInt 0) then num.sub (num.ofInt 0) x else x

/-- The classifier: 1 when the remainder is strictly nearer to `3Q/4` (44_quantizer.md R214). -/
def classify (num : NumOps ν) (q c : ν) : Bool :=
  num.lt (absNum num (num.sub (remQ num c q) (centroid num true q)))
    (absNum num (num.sub (remQ num c q) (centroid num false q)))

/-- `QEMB b` (44_quantizer.md R213). -/
def qemb (cfg : Config ν) (b : Bool) (s : State.Of ν) : Effect ν :=
  if s.badStrength then .error .badq
  else .ok { s with coef := matSet s.coef carrierIndex (requantize cfg.num b (s.strength cfg.num) s.carrier) }

/-- `QEXT` (44_quantizer.md R214). -/
def qext (cfg : Config ν) (s : State.Of ν) : Effect ν :=
  if s.badStrength then .error .badq
  else .ok { s with flags := { s.flags with bitout := classify cfg.num (s.strength cfg.num) s.carrier } }

/-- The command `QEMB b` (44_quantizer.md R213). -/
def execQemb (b : Bool) (s : State) : Host.Outcome State Fault Refusal := finish s (qemb Config.default b s)

/-- The command `QEXT` (44_quantizer.md R214). -/
def execQext (s : State) : Host.Outcome State Fault Refusal := finish s (qext Config.default s)

end Sys2Proof.Machine
end

