-- ==== Sys2Proof/Machine/Transform.lean ====
section
/-! DEFINITION. The Block Transform: `FDCT` and `IDCT` (43_block_transform.md). -/

namespace Sys2Proof.Machine

variable {ν : Type}

/-- `A = C · X`: the 1D transform of each column (43_block_transform.md R192). -/
def forwardColumns (cfg : Config ν) (x : Mat ν) : Mat ν :=
  matOf fun u c => sum8 cfg.num fun r => cfg.num.mul (cfg.c u r) (matAt x r c)

/-- `A · Cᵀ`: the 1D transform of each row (43_block_transform.md R192). -/
def forwardRows (cfg : Config ν) (a : Mat ν) : Mat ν :=
  matOf fun u v => sum8 cfg.num fun c => cfg.num.mul (cfg.c v c) (matAt a u c)

/-- `A = Cᵀ · Y` (43_block_transform.md R193). -/
def inverseColumns (cfg : Config ν) (y : Mat ν) : Mat ν :=
  matOf fun r v => sum8 cfg.num fun u => cfg.num.mul (cfg.c u r) (matAt y u v)

/-- `A · C` (43_block_transform.md R193). -/
def inverseRows (cfg : Config ν) (a : Mat ν) : Mat ν :=
  matOf fun r c => sum8 cfg.num fun v => cfg.num.mul (matAt a r v) (cfg.c v c)

/-- `FDCT`: `COEF <- C · BLK · Cᵀ` (43_block_transform.md R192). -/
def fdct (cfg : Config ν) (s : State.Of ν) : Effect ν :=
  .ok { s with coef := forwardRows cfg (forwardColumns cfg s.blk) }

/-- `IDCT`: `BLK <- Cᵀ · COEF · C` (43_block_transform.md R193). -/
def idct (cfg : Config ν) (s : State.Of ν) : Effect ν :=
  .ok { s with blk := inverseRows cfg (inverseColumns cfg s.coef) }

/-- The command `FDCT` (43_block_transform.md R192). -/
def execFdct (s : State) : Host.Outcome State Fault Refusal := finish s (fdct Config.default s)

/-- The command `IDCT` (43_block_transform.md R193). -/
def execIdct (s : State) : Host.Outcome State Fault Refusal := finish s (idct Config.default s)

end Sys2Proof.Machine
end

