-- ==== Sys2Proof/Machine/Orchestrator.lean ====
section
/-! DEFINITION. The Orchestrator: `NOP`, `EMBED` and `EXTRACT` (45_orchestrator.md). The composite commands are the sequences
of the primitive effects; an error anywhere would end the command with no effect (00_scope.md R11). -/

namespace Sys2Proof.Machine

variable {ν : Type}

/-- A check that raises `e` (00_scope.md R11). -/
def check (bad : Bool) (e : Err) : Except Err Unit := if bad then .error e else .ok ()

/-- One block of `EMBED` (45_orchestrator.md R231, R233): `BLKLD`, `FDCT`, `QEMB b`, `IDCT`, `BLKST`. -/
def embedBlock (cfg : Config ν) (b : Bool) (s : State.Of ν) : Except Err (State.Of ν) := do
  let s ← blkld cfg s
  let s ← fdct cfg s
  let s ← qemb cfg b s
  let s ← idct cfg s
  blkst cfg s

/-- The loop of `EMBED`: `k` bits embedded so far of `n`; the first argument bounds the passes, at most one for
each block (45_orchestrator.md R231, R237). -/
def embedLoop (cfg : Config ν) (n : Nat) : Nat → Nat → State.Of ν → Except Err (Nat × State.Of ν)
  | 0, k, s => .ok (k, s)
  | fuel + 1, k, s =>
    if s.flags.itvalid && decide (k < n) then do
      let s ← embedBlock cfg (s.mem.bit cfg k) s
      let s ← itnext s
      embedLoop cfg n fuel (k + 1) s
    else .ok (k, s)

/-- `EMBED` (45_orchestrator.md R231): the checks in their order, then the work. -/
def embed (cfg : Config ν) (s : State.Of ν) : Except Err (State.Of ν) := do
  check (s.badImage cfg) .invimg
  check s.badStrength .badq
  check (s.badTextLen cfg) .len
  check (s.badText cfg) .unenc
  check s.overCapacity .capacity
  let n := s.payloadBits
  let blocks := s.blocks
  let s ← t2b cfg s
  let s := { s with flags := { s.flags with trunc := decide (n > blocks) } }
  let s ← cscf cfg s
  let s ← itrst s
  let (k, s) ← embedLoop cfg n blocks 0 s
  let s ← csci cfg s
  .ok { s with regs := { s.regs with bitcur := BitVec.ofNat 32 k } }

/-- One block of `EXTRACT` read (45_orchestrator.md R232, R233): `BLKLD`, `FDCT`, `QEXT`. -/
def extractBlock (cfg : Config ν) (s : State.Of ν) : Except Err (State.Of ν) := do
  let s ← blkld cfg s
  let s ← fdct cfg s
  qext cfg s

/-- `BITS[NBITS] <- BITOUT ; NBITS <- NBITS + 1` (45_orchestrator.md R232). -/
def appendBit (s : State.Of ν) : State.Of ν :=
  { s with
    regs := { s.regs with nbits := BitVec.ofNat 32 (s.nBits + 1) }
    mem := { s.mem with bits := Cells.set s.mem.bits s.nBits s.flags.bitout } }

/-- The delimiter was matched: the bits before it are decoded and `FOUND <- 1` (45_orchestrator.md R232). -/
def foundText (cfg : Config ν) (s : State.Of ν) : State.Of ν :=
  let s := writeOut cfg ((s.nBits - 16) / 8) s
  { s with flags := { s.flags with found := true } }

/-- The loop of `EXTRACT`; the first argument bounds the passes (45_orchestrator.md R232, R237). -/
def extractLoop (cfg : Config ν) : Nat → State.Of ν → Except Err (State.Of ν)
  | 0, s => .ok s
  | fuel + 1, s =>
    if s.flags.itvalid && !s.flags.found then do
      let s ← extractBlock cfg s
      let s := appendBit s
      if endsWithDelim (s.mem.bit cfg) s.nBits then extractLoop cfg fuel (foundText cfg s)
      else do
        let s ← itnext s
        extractLoop cfg fuel s
    else .ok s

/-- `EXTRACT` (45_orchestrator.md R232). -/
def extract (cfg : Config ν) (s : State.Of ν) : Except Err (State.Of ν) := do
  check (s.badImage cfg) .invimg
  check s.badStrength .badq
  let blocks := s.blocks
  let s ← cscf cfg s
  let s ← itrst s
  let s :=
    { s with
      regs := { s.regs with nbits := 0, outlen := 0 }
      flags := { s.flags with found := false } }
  let s ← extractLoop cfg blocks s
  .ok { s with regs := { s.regs with bitcur := s.regs.nbits } }

/-- The command `NOP` (45_orchestrator.md R230): it only completes. -/
def execNop (s : State) : Host.Outcome State Fault Refusal := finish s (.ok s)

/-- The command `EMBED` (45_orchestrator.md R231). -/
def execEmbed (s : State) : Host.Outcome State Fault Refusal := finish s (embed Config.default s)

/-- The command `EXTRACT` (45_orchestrator.md R232). -/
def execExtract (s : State) : Host.Outcome State Fault Refusal :=
  finish s (extract Config.default s)

end Sys2Proof.Machine
end

