-- ==== Sys2Proof/Machine/Dispatch.lean ====
section
/-! DEFINITION. The dispatch of a decoded command to its meaning, for the default configuration. -/

namespace Sys2Proof.Machine

def exec (i : Instr) (s : State) : Host.Outcome State Fault Refusal :=
  match i with
  | .nop => Sys2Proof.Machine.execNop s
  | .t2b => Sys2Proof.Machine.execT2b s
  | .b2t => Sys2Proof.Machine.execB2t s
  | .cscf => Sys2Proof.Machine.execCscf s
  | .csci => Sys2Proof.Machine.execCsci s
  | .itrst => Sys2Proof.Machine.execItrst s
  | .itnext => Sys2Proof.Machine.execItnext s
  | .blkld => Sys2Proof.Machine.execBlkld s
  | .blkst => Sys2Proof.Machine.execBlkst s
  | .fdct => Sys2Proof.Machine.execFdct s
  | .idct => Sys2Proof.Machine.execIdct s
  | .qemb b => Sys2Proof.Machine.execQemb b s
  | .qext => Sys2Proof.Machine.execQext s
  | .cap => Sys2Proof.Machine.execCap s
  | .embed => Sys2Proof.Machine.execEmbed s
  | .extract => Sys2Proof.Machine.execExtract s

end Sys2Proof.Machine
end

