-- ==== Sys2Proof/Machine/HostPort.lean ====
section
/-! DEFINITION. The host port: the address map and the effect of a host access (20_memory.md R70 to R79). -/

namespace Sys2Proof.Machine

variable {ν : Type}

/-- The regions of the address map (20_memory.md R71), with the register, or the number of the cell or word in the
region. -/
inductive Region where
  | reg (r : Reg)
  | blkw (k : Fin 64)
  | coefw (k : Fin 64)
  | txt (k : Nat)
  | out (k : Nat)
  | bits (k : Nat)
  | pix (a : Nat)
  deriving DecidableEq, Repr

/-- The number of words of the `BITS` window, `⌈MAXBITS/32⌉` (20_memory.md R71). -/
def bitsWords (cfg : Config ν) : Nat := (cfg.maxbits + 31) / 32

/-- The number of bytes of the `PIX` window, `4·⌈3·MAXW·MAXH/4⌉` (20_memory.md R71). -/
def pixWindow (cfg : Config ν) : Nat := 4 * ((cfg.pixBytes + 3) / 4)

/-- The location that a byte offset lies in, if it is mapped (20_memory.md R71). -/
def regionAt (cfg : Config ν) (off : Nat) : Option Region :=
  if off < 0x100 then some (.reg (regAt off))
  else if off < 0x200 then some (.blkw (Fin.ofNat 64 ((off - 0x100) / 4)))
  else if off < 0x300 then some (.coefw (Fin.ofNat 64 ((off - 0x200) / 4)))
  else if 0x10000 ≤ off ∧ off < 0x10000 + 4 * cfg.maxtext then some (.txt ((off - 0x10000) / 4))
  else if 0x20000 ≤ off ∧ off < 0x20000 + 4 * cfg.maxout then some (.out ((off - 0x20000) / 4))
  else if 0x30000 ≤ off ∧ off < 0x30000 + 4 * bitsWords cfg then some (.bits ((off - 0x30000) / 4))
  else if 0x1000000 ≤ off ∧ off < 0x1000000 + pixWindow cfg then some (.pix (off - 0x1000000))
  else none

/-- The location of a word access: mapped and aligned (20_memory.md R73). -/
def wordRegion (cfg : Config ν) (off : Nat) : Option Region :=
  if off % 4 = 0 then regionAt cfg off else none

/-- The `PIX` byte of a byte access, which is legal in the `PIX` window only (20_memory.md R73). -/
def byteRegion (cfg : Config ν) (off : Nat) : Option Nat :=
  match regionAt cfg off with
  | some (.pix a) => some a
  | _ => none

/-- The unspecified word of this access (20_memory.md R74, R79; DESIGN CHOICE, assumption 5). -/
def State.Of.freeWord (cfg : Config ν) (s : State.Of ν) : Word := cfg.freeWord s.port.fresh

/-- Byte `n` of a word, byte 0 in bits 7:0. -/
def byteLane (w : Word) (n : Nat) : Byte := w.extractLsb' (8 * n) 8

/-- The byte `a` of the `PIX` window; a byte past the end of the buffer, in the last word of the window, has no
cell and reads as a free byte, lane `n` of the access's free word (DESIGN CHOICE, assumption 6). -/
def readPix (cfg : Config ν) (s : State.Of ν) (a n : Nat) : Byte :=
  if a < cfg.pixBytes then s.mem.pixByte cfg a else byteLane (s.freeWord cfg) n

/-- Writing byte `a` of the `PIX` window; a byte past the end of the buffer is dropped (DESIGN CHOICE, assumption 6). -/
def writePix (cfg : Config ν) (a : Nat) (v : Byte) (m : Memory ν) : Memory ν :=
  if a < cfg.pixBytes then { m with pix := Cells.set m.pix a v } else m

/-- The word at index `k` of the `BITS` window: `BITS[32k]` in bit 31 down to `BITS[32k + 31]` in bit 0; cells at and above
`MAXBITS` read 0 (20_memory.md R76). -/
def readBitsWord (cfg : Config ν) (m : Memory ν) (k : Nat) : Word :=
  BitVec.ofFnLE fun t : Fin 32 =>
    decide (32 * k + (31 - t.val) < cfg.maxbits) && m.bit cfg (32 * k + (31 - t.val))

/-- A word write to index `k` of the `BITS` window sets the cells below `MAXBITS` (20_memory.md R76). -/
def writeBitsWord (cfg : Config ν) (k : Nat) (v : Word) (m : Memory ν) : Memory ν :=
  { m with
    bits := Cells.setSeq m.bits (32 * k)
      ((List.range (min 32 (cfg.maxbits - 32 * k))).map fun t => v.getLsbD (31 - t)) }

/-- A word read of an idle core (20_memory.md R71, R72). A `PIX` word is little-endian. -/
def readWordIdle (cfg : Config ν) (s : State.Of ν) (g : Region) : Word :=
  match g with
  | .reg r => readReg r s
  | .blkw k => probeRead cfg.num s.blk[k.val]
  | .coefw k => probeRead cfg.num s.coef[k.val]
  | .txt k => s.mem.txtWord cfg k
  | .out k => s.mem.outWord cfg k
  | .bits k => readBitsWord cfg s.mem k
  | .pix a => (readPix cfg s (a + 3) 3 ++ readPix cfg s (a + 2) 2 ++ readPix cfg s (a + 1) 1 ++ readPix cfg s a 0 : BitVec 32)

/-- A word write to an idle core (20_memory.md R71, R72, R78). Writes to `OUT` are ignored. -/
def writeWordIdle (cfg : Config ν) (g : Region) (v : Word) (s : State.Of ν) : State.Of ν :=
  match g with
  | .reg r => writeReg r v s
  | .blkw k => { s with blk := matSet s.blk k (probeWrite cfg.num v) }
  | .coefw k => { s with coef := matSet s.coef k (probeWrite cfg.num v) }
  | .txt k => { s with mem := { s.mem with txt := Cells.set s.mem.txt k v } }
  | .out _ => s
  | .bits k => { s with mem := writeBitsWord cfg k v s.mem }
  | .pix a =>
    { s with
      mem := writePix cfg (a + 3) (byteLane v 3) (writePix cfg (a + 2) (byteLane v 2)
        (writePix cfg (a + 1) (byteLane v 1) (writePix cfg a (byteLane v 0) s.mem))) }

/-- A word read of a busy core: `ID`, `CTRL`, `STATUS` and `CMD` are exact, every other location returns a free
word (20_memory.md R79). -/
def readWordBusy (cfg : Config ν) (s : State.Of ν) (g : Region) : Word :=
  match g with
  | .reg r => if r.readableBusy then readReg r s else s.freeWord cfg
  | .blkw _ | .coefw _ | .txt _ | .out _ | .bits _ | .pix _ => s.freeWord cfg

/-- A write to a mapped location of a busy core: dropped, and `OVR` is set (20_memory.md R79, 10_state.md R37). -/
def writeBusy (s : State.Of ν) : State.Of ν := { s with flags := { s.flags with ovr := true } }

/-- The response of the access, and one more access made. -/
def respond (r : PortResp) (s : State.Of ν) : State.Of ν :=
  { s with port := { s.port with resp := some r, fresh := s.port.fresh + 1 } }

/-- `HostRead(a, 4)` at an offset of the window. -/
def read4 (cfg : Config ν) (off : Nat) (s : State.Of ν) : State.Of ν :=
  match wordRegion cfg off with
  | none => respond (.error (.word (s.freeWord cfg))) s
  | some g => respond (.okay (.word (if s.busy then readWordBusy cfg s g else readWordIdle cfg s g))) s

/-- `HostWrite(a, 4, v)` at an offset of the window. -/
def write4 (cfg : Config ν) (off : Nat) (v : Word) (s : State.Of ν) : State.Of ν :=
  match wordRegion cfg off with
  | none => respond (.error .none) s
  | some g => respond (.okay .none) (if s.busy then writeBusy s else writeWordIdle cfg g v s)

/-- `HostRead(a, 1)` at an offset of the window. -/
def read1 (cfg : Config ν) (off : Nat) (s : State.Of ν) : State.Of ν :=
  match byteRegion cfg off with
  | none => respond (.error (.byte (byteLane (s.freeWord cfg) 0))) s
  | some a =>
    respond (.okay (.byte (if s.busy then byteLane (s.freeWord cfg) 0 else readPix cfg s a 0))) s

/-- `HostWrite(a, 1, v)` at an offset of the window. -/
def write1 (cfg : Config ν) (off : Nat) (v : Byte) (s : State.Of ν) : State.Of ν :=
  match byteRegion cfg off with
  | none => respond (.error .none) s
  | some a =>
    respond (.okay .none) (if s.busy then writeBusy s else { s with mem := writePix cfg a v s.mem })

/-- While `rst` is asserted every access returns `ERROR` with no effect; the data of a read is unspecified
(70_reset_and_hazards.md R290, 20_memory.md R74). -/
def accessInReset (cfg : Config ν) (op : PortOp) (s : State.Of ν) : State.Of ν :=
  match op with
  | .read4 _ => respond (.error (.word (s.freeWord cfg))) s
  | .read1 _ => respond (.error (.byte (byteLane (s.freeWord cfg) 0))) s
  | .write4 _ _ | .write1 _ _ => respond (.error .none) s

/-- The byte address of an access. -/
def PortOp.addr : PortOp → Nat
  | .read4 a | .write4 a _ | .read1 a | .write1 a _ => a

/-- An access at an offset of the window, `rst` released. -/
def accessAt (cfg : Config ν) (op : PortOp) (off : Nat) (s : State.Of ν) : State.Of ν :=
  match op with
  | .read4 _ => read4 cfg off s
  | .write4 _ v => write4 cfg off v s
  | .read1 _ => read1 cfg off s
  | .write1 _ v => write1 cfg off v s

/-- One access of the Host, atomic (20_memory.md R70). An address outside the core's window does not select the core:
nothing changes and there is no response (20_memory.md R71; DESIGN CHOICE, assumption 3). -/
def portAccess (cfg : Config ν) (op : PortOp) (s : State.Of ν) : State.Of ν :=
  match cfg.offset? op.addr with
  | none => s
  | some off => if s.port.rst then accessInReset cfg op s else accessAt cfg op off s

end Sys2Proof.Machine
end

