-- ==== Sys2Proof/Machine/Engine.lean ====
section
/-! DEFINITION. One turn of the machine, for any configuration: a host access, a turn of the Engine, or a new level of
`rst`. -/

namespace Sys2Proof.Machine

variable {ν : Type}

/-- The commands for any `Num` and any configuration; `exec` is this at the default one (Laws/Effects.lean). -/
def execFor (cfg : Config ν) (i : Instr) (s : State.Of ν) : Host.Outcome (State.Of ν) Fault Refusal :=
  match i with
  | .nop => finish s (.ok s)
  | .t2b => finish s (t2b cfg s)
  | .b2t => finish s (b2t cfg s)
  | .cscf => finish s (cscf cfg s)
  | .csci => finish s (csci cfg s)
  | .itrst => finish s (itrst s)
  | .itnext => finish s (itnext s)
  | .blkld => finish s (blkld cfg s)
  | .blkst => finish s (blkst cfg s)
  | .fdct => finish s (fdct cfg s)
  | .idct => finish s (idct cfg s)
  | .qemb b => finish s (qemb cfg b s)
  | .qext => finish s (qext cfg s)
  | .cap => finish s (cap cfg s)
  | .embed => finish s (embed cfg s)
  | .extract => finish s (extract cfg s)

/-- The completion of the latched word: a legal word runs its command, any other completes with `E_ILLCMD`
(10_state.md R31 (c), 30_encoding.md R105, 60_exceptions.md R261). -/
def completion (run : Instr → State.Of ν → Host.Outcome (State.Of ν) Fault Refusal) (s : State.Of ν) :
    Host.Outcome (State.Of ν) Fault Refusal :=
  match decode s.cmdl with
  | .ok i => run i s
  | .error _ => .next (raiseErr .illcmd s)

/-- A turn of the Engine: a completion exactly when `PHASE = BUSY`; an idle core stays idle (10_state.md R31,
60_exceptions.md R280), and so does a core held in reset (70_reset_and_hazards.md R290). -/
def engineTurn (run : Instr → State.Of ν → Host.Outcome (State.Of ν) Fault Refusal) (s : State.Of ν) : Host.Outcome (State.Of ν) Fault Refusal :=
  if s.port.rst then .next s
  else
    match s.phase with
    | .idle => .next s
    | .busy => completion run s

/-- The next turn. When no turn of the outside world is left the Engine has it, so an issued command
completes after finitely many steps (10_state.md R31, 70_reset_and_hazards.md R306; DESIGN CHOICE, assumption 1). -/
def turnStep (cfg : Config ν) (run : Instr → State.Of ν → Host.Outcome (State.Of ν) Fault Refusal) (s : State.Of ν) :
    Host.Outcome (State.Of ν) Fault Refusal :=
  match s.port.turns with
  | [] => engineTurn run (takeTurn [] s)
  | .engine :: ts => engineTurn run (takeTurn ts s)
  | .port op :: ts => .next (portAccess cfg op (takeTurn ts s))
  | .rst level :: ts => .next (resetInput cfg level (takeTurn ts s))

end Sys2Proof.Machine
end

