-- ==== Sys2Proof/Machine/Step.lean ====
section
/-! DEFINITION. One step of the machine, and the placing of a command word where the next step takes it. -/

namespace Sys2Proof.Machine

/-- One step: the next turn, in the default configuration. -/
def step (s : State) : Host.Outcome State Fault Refusal := turnStep Config.default exec s

/-- One step for any `Num` and any configuration; `step` is this at the default one (Laws/Effects.lean). -/
def stepFor {ν : Type} (cfg : Config ν) (s : State.Of ν) : Host.Outcome (State.Of ν) Fault Refusal := turnStep cfg (execFor cfg) s

/-- `s` with the word issued (10_state.md R31 (b)) and the next turn the Engine's, so that the very next step
completes it (DESIGN CHOICE, assumption 7). The core holds no program: the only place a command is taken from is `CMDL`. -/
def State.withFetchWord (s : State) (nbits w : Nat) : State :=
  let t := issue (BitVec.ofNat 32 (w % 2 ^ nbits)) s
  { t with port := { t.port with rst := false, turns := .engine :: t.port.turns } }

end Sys2Proof.Machine
end

