-- ==== Sys2Proof/Machine/HostProgram.lean ====
section
/-! DEFINITION. The host-program notation: lines and pseudo-instructions as turns of the machine (30_encoding.md R108,
R109). The host is outside the core; this file only says which accesses a line stands for. -/

namespace Sys2Proof.Machine

variable {ν : Type}

/-- The regions a host program names by word index (30_encoding.md R108). -/
inductive WordBuf where
  | txt
  | out
  | bits
  | blkw
  | coefw
  deriving DecidableEq, Repr

/-- The offset of word 0 of a region (20_memory.md R71). -/
def WordBuf.offset : WordBuf → Nat
  | .txt => 0x10000
  | .out => 0x20000
  | .bits => 0x30000
  | .blkw => 0x100
  | .coefw => 0x200

/-- The lines of a host program (30_encoding.md R108). -/
inductive Line where
  | wr (r : Reg) (v : Word)
  | rd (r : Reg)
  | wrw (b : WordBuf) (k : Nat) (v : Word)
  | rdw (b : WordBuf) (k : Nat)
  | wrb (a : Nat) (v : Byte)
  | rdb (a : Nat)
  | cmd (i : Instr)
  deriving DecidableEq, Repr

/-- The access a line stands for (30_encoding.md R108). -/
def Line.access (cfg : Config ν) : Line → PortOp
  | .wr r v => .write4 (cfg.base + r.offset) v
  | .rd r => .read4 (cfg.base + r.offset)
  | .wrw b k v => .write4 (cfg.base + b.offset + 4 * k) v
  | .rdw b k => .read4 (cfg.base + b.offset + 4 * k)
  | .wrb a v => .write1 (cfg.base + 0x1000000 + a) v
  | .rdb a => .read1 (cfg.base + 0x1000000 + a)
  | .cmd i => .write4 (cfg.base + Reg.cmd.offset) (encode i)

/-- A line as a turn. -/
def Line.turn (cfg : Config ν) (l : Line) : Turn := .port (l.access cfg)

/-- `WAIT` (30_encoding.md R109): reads of `STATUS` until `DONE` is seen. The number of reads before the Engine completes
is not fixed by the spec (70_reset_and_hazards.md R306) and is an argument. -/
def waitTurns (cfg : Config ν) (polls : Nat) : List Turn :=
  List.replicate polls (Line.turn cfg (.rd .status)) ++ [.engine, Line.turn cfg (.rd .status)]

/-- `ACK` (30_encoding.md R109). -/
def ackTurns (cfg : Config ν) : List Turn := [Line.turn cfg (.wr .status 0x00000002)]

/-- `RUN m` (30_encoding.md R109). -/
def runTurns (cfg : Config ν) (i : Instr) (polls : Nat) : List Turn := Line.turn cfg (.cmd i) :: waitTurns cfg polls

/-- `SETQ n`, `n` from 1 to 65535 (30_encoding.md R109). -/
def setqTurns (cfg : Config ν) (n : Nat) : List Turn := [Line.turn cfg (.wr .qstep (BitVec.ofNat 32 (n * 65536)))]

/-- `SETDIM w, h` (30_encoding.md R109). -/
def setdimTurns (cfg : Config ν) (w h : Nat) : List Turn :=
  [Line.turn cfg (.wr .width (BitVec.ofNat 32 w)), Line.turn cfg (.wr .height (BitVec.ofNat 32 h))]

/-- `GOTO i, j` (30_encoding.md R109). -/
def gotoTurns (cfg : Config ν) (i j : Nat) : List Turn :=
  [Line.turn cfg (.wr .iti (BitVec.ofNat 32 i)), Line.turn cfg (.wr .itj (BitVec.ofNat 32 j))]

/-- Commands run one after the other, each with its own number of polls. -/
def runAll (cfg : Config ν) (cmds : List (Instr × Nat)) : List Turn := cmds.flatMap fun m => runTurns cfg m.1 m.2

/-- `EMB1 b` (30_encoding.md R109), with the polls of its five `WAIT`s. -/
def emb1Turns (cfg : Config ν) (b : Bool) (p0 p1 p2 p3 p4 : Nat) : List Turn :=
  runAll cfg [(.blkld, p0), (.fdct, p1), (.qemb b, p2), (.idct, p3), (.blkst, p4)]

/-- `EXT1` (30_encoding.md R109), with the polls of its three `WAIT`s. -/
def ext1Turns (cfg : Config ν) (p0 p1 p2 : Nat) : List Turn := runAll cfg [(.blkld, p0), (.fdct, p1), (.qext, p2)]

end Sys2Proof.Machine
end

