-- ==== Sys2Proof/Safety.lean ====
section
/-! DEFINITION. The terms in which claims are stated: the invariant of every step, and the spec's formulas written
without the model's own operations. -/

namespace Sys2Proof.Machine

/-! ### Runs -/

/-- The next turn is the Engine's and `ts` is left after it: the list of turns begins with the Engine's, or is
empty (assumption 1). -/
def EngineNext (s : State) (ts : List Turn) : Prop :=
  s.port.turns = .engine :: ts ∨ (s.port.turns = [] ∧ ts = [])

/-- `s` with the next turn taken. -/
def taken (ts : List Turn) (s : State) : State := { s with port := { s.port with turns := ts, resp := none } }

/-- `s` after a host access with the response `r`, as far as the boundary goes. -/
def answered (ts : List Turn) (r : PortResp) (s : State) : State :=
  { s with port := { s.port with turns := ts, resp := some r, fresh := s.port.fresh + 1 } }

/-- `s` completed: idle, `DONE = 1`, `ERR` the code `e` (00_scope.md R12, 60_exceptions.md R271). -/
def completed (e : Option Err) (s : State) : State :=
  { s with phase := .idle, flags := { s.flags with done := true, err := e } }

/-- `s` with the word `w` issued (10_state.md R31 (b)). -/
def issued (w : Word) (s : State) : State :=
  { s with
    cmdl := w
    phase := .busy
    flags := { s.flags with done := false, found := false, trunc := false, err := none } }

/-- The effects of commands run one after the other. -/
def runCommands : List Instr → State → Host.Outcome State Fault Refusal
  | [], s => .next s
  | i :: is, s =>
    match exec i s with
    | .next t => runCommands is t
    | .fault r => .fault r
    | .refused r => .refused r

/-! ### The invariant -/

/-- The registers of a core held in reset are at their reset values and no cell has been written
(70_reset_and_hazards.md R290 to R292). -/
def HeldInReset {ν : Type} (s : State.Of ν) : Prop :=
  s.phase = .idle ∧ s.cmdl = 0 ∧ s.regs = Regs.reset ∧ s.flags = Flags.reset ∧ s.ctrl = ⟨false, false⟩ ∧
    s.mem = Memory.unwritten s.mem.epoch

/-- What holds of every state that a step from a state with it leads to: the buffers keep their canonical form
inside their sizes; a running command has `DONE`, `FOUND`, `TRUNC` and `ERR` clear (10_state.md R31); the read-only
registers fit their meaning (00_scope.md R13); `FOUND` and `TRUNC` mean what 10_state.md R35 and R36 say; a core held
in reset is in its reset state. -/
structure State.Of.Inv {ν : Type} (cfg : Config ν) (s : State.Of ν) : Prop where
  memory : s.mem.wf cfg = true
  running : s.phase = .busy →
    s.flags.done = false ∧ s.flags.found = false ∧ s.flags.trunc = false ∧ s.flags.err = none
  outlen : s.regs.outlen.toNat ≤ cfg.maxout
  bitcur : s.regs.bitcur.toNat ≤ cfg.maxbits
  capacity : s.regs.capacity.toNat ≤ nb cfg.maxw * nb cfg.maxh
  found : s.flags.found = true →
    s.flags.err = none ∧ s.flags.trunc = false ∧ s.flags.itvalid = true ∧ s.flags.bitout = false ∧
      8 * s.regs.outlen.toNat + 16 ≤ s.regs.bitcur.toNat
  trunc : s.flags.trunc = true → s.flags.err = none
  reset : s.port.rst = true → HeldInReset s

/-! ### The address map at the default configuration (20_memory.md R71) -/

/-- The mapped byte offsets: `MAXTEXT = 2048`, `MAXOUT = 2050`, `MAXBITS = 16400`, `3·MAXW·MAXH = 3145728`. -/
def MappedOffset (off : Nat) : Prop :=
  off < 0x300 ∨ (0x10000 ≤ off ∧ off < 0x12000) ∨ (0x20000 ≤ off ∧ off < 0x22008) ∨
    (0x30000 ≤ off ∧ off < 0x30804) ∨ (0x1000000 ≤ off ∧ off < 0x1300000)

/-- The legal accesses: a mapped aligned word, or a byte of `PIX` (20_memory.md R73). -/
def LegalAccess : PortOp → Nat → Prop
  | .read4 _, off => off % 4 = 0 ∧ MappedOffset off
  | .write4 _ _, off => off % 4 = 0 ∧ MappedOffset off
  | .read1 _, off => 0x1000000 ≤ off ∧ off < 0x1300000
  | .write1 _ _, off => 0x1000000 ≤ off ∧ off < 0x1300000

/-- The access is a write. -/
def PortOp.isWrite : PortOp → Bool
  | .read4 _ => false
  | .read1 _ => false
  | .write4 _ _ => true
  | .write1 _ _ => true

/-- The data of a response has the shape of the operation: a word, a byte, or nothing for a write. -/
def DataFits : PortOp → RespData → Prop
  | .read4 _, d => ∃ w, d = .word w
  | .read1 _, d => ∃ b, d = .byte b
  | .write4 _ _, d => d = .none
  | .write1 _ _, d => d = .none

/-! ### The spec's formulas, at the default configuration -/

/-- `n` clamped to 0..255. -/
def clamp255 (n : Int) : Int := max 0 (min 255 n)

/-- Bit `k` of the bitstream of the text in `TXT`: bit `7 − k mod 8` of character `k div 8`, then the delimiter
(40_bit_codec.md R130 to R132). -/
def textBit (s : State) (k : Nat) : Bool :=
  if k < 8 * s.textLen then (s.mem.txtWord Config.default (k / 8)).getLsbD (7 - k % 8)
  else decide (k < 8 * s.textLen + 8)

/-- The first `n` bits end with the delimiter (40_bit_codec.md R130). -/
def EndsDelim (bit : Nat → Bool) (n : Nat) : Prop :=
  16 ≤ n ∧ (∀ t < 8, bit (n - 16 + t) = true) ∧ ∀ t < 8, bit (n - 8 + t) = false

/-- The value of bit group `g` (40_bit_codec.md R131). -/
def groupValue (bit : Nat → Bool) (g : Nat) : Nat :=
  ∑ t ∈ Finset.range 8, (bit (8 * g + t)).toNat * 2 ^ (7 - t)

/-- The three samples of pixel `(r, c)` (20_memory.md R75). -/
def pixel (s : State) (r c : Nat) : Byte × Byte × Byte :=
  (s.mem.pixByte Config.default ((r * s.w + c) * 3), s.mem.pixByte Config.default ((r * s.w + c) * 3 + 1),
    s.mem.pixByte Config.default ((r * s.w + c) * 3 + 2))

/-- The pixel in luma and chroma (41_channel_adapter.md R153). -/
def pixelInYCC (s : State) (r c : Nat) : Byte × Byte × Byte :=
  let p := pixel s r c
  Config.default.color.toYCC p.1 p.2.1 p.2.2

/-- The luma sample of the pixel as a `Num`. -/
def pixelLuma (s : State) (r c : Nat) : QNum := ((pixelInYCC s r c).1.toNat : QNum)

/-- The luma of cell `(r, c)` of block `k` of the image, in row-major block order (42_block_iterator.md R171). -/
def blockLuma (s : State) (k : Nat) (r c : Fin 8) : QNum :=
  pixelLuma s (8 * (k / nb s.w) + r.val) (8 * (k % nb s.w) + c.val)

/-- `Σ_r Σ_c C[u][r] · C[v][c] · X[r][c]` (43_block_transform.md R192). -/
def forwardSum (x : Fin 8 → Fin 8 → QNum) (u v : Fin 8) : QNum :=
  ∑ r, ∑ c, Config.default.c u r * Config.default.c v c * x r c

/-- `Σ_u Σ_v C[u][r] · C[v][c] · Y[u][v]` (43_block_transform.md R193). -/
def inverseSum (y : Fin 8 → Fin 8 → QNum) (r c : Fin 8) : QNum :=
  ∑ u, ∑ v, Config.default.c u r * Config.default.c v c * y u v

/-- The strength `Q = QSTEP / 65536` (10_state.md R23). -/
def State.Of.q (s : State) : QNum := s.regs.qstep.toNat / 65536

/-- `rem(c, Q)` (44_quantizer.md R211). -/
def remainder (c q : QNum) : QNum := c - q * ⌊c / q⌋

/-- The requantised coefficient, `Q·floor(c/Q) + q_b` (44_quantizer.md R213). -/
def quantized (b : Bool) (q c : QNum) : QNum := q * ⌊c / q⌋ + if b then 3 * q / 4 else q / 4

/-- Bit `k` that the carrier of block `k` of the image carries at the strength in `QSTEP` (44_quantizer.md R210, R215). -/
def carriedBit (s : State) (k : Nat) : Bool :=
  decide (remainder (forwardSum (blockLuma s k) 4 5) s.q > s.q / 2)

/-- The coefficients of block `k` with its bit of the text embedded. -/
def embeddedCoef (s : State) (k : Nat) (u v : Fin 8) : QNum :=
  if u = 4 ∧ v = 5 then quantized (textBit s k) s.q (forwardSum (blockLuma s k) 4 5)
  else forwardSum (blockLuma s k) u v

/-- The luma of pixel `(r, c)` after `EMBED`: of block `k = (r div 8)·NB(W) + c div 8` when that is a block of the
sequence with a bit to carry, else as `CSCF` made it (45_orchestrator.md R231). -/
def embeddedLuma (s : State) (r c : Nat) : QNum :=
  if r / 8 < nb s.h ∧ c / 8 < nb s.w ∧ r / 8 * nb s.w + c / 8 < s.payloadBits then
    inverseSum (embeddedCoef s (r / 8 * nb s.w + c / 8)) (Fin.ofNat 8 r) (Fin.ofNat 8 c)
  else pixelLuma s r c

/-- A valid image for the commands that check it (60_exceptions.md R262). -/
def ValidImage (s : State) : Prop :=
  1 ≤ s.w ∧ s.w ≤ Config.default.maxw ∧ 1 ≤ s.h ∧ s.h ≤ Config.default.maxh

/-- The text can be encoded (60_exceptions.md R263, R266). -/
def EncodableText (s : State) : Prop :=
  s.textLen ≤ Config.default.maxtext ∧ ∀ k < s.textLen, (s.mem.txtWord Config.default k).toNat ≤ 255

/-- The block at (`IT_I`, `IT_J`) lies inside the image (42_block_iterator.md R175). -/
def BlockInside (s : State) : Prop :=
  s.w ≤ Config.default.maxw ∧ s.h ≤ Config.default.maxh ∧ s.i + 8 ≤ s.h ∧ s.j + 8 ≤ s.w

/-- No check of `EMBED` fails (45_orchestrator.md R231). -/
def EmbedAccepts (s : State) : Prop :=
  ValidImage s ∧ s.regs.qstep ≠ 0 ∧ EncodableText s ∧ (s.ctrl.capmode = true ∨ s.payloadBits ≤ s.blocks)

/-- The errors each command may raise (60_exceptions.md R260). -/
def raisable : Instr → List Err
  | .nop | .itrst | .itnext | .fdct | .idct => []
  | .t2b => [.len, .unenc]
  | .b2t => [.len]
  | .cscf | .csci | .cap => [.invimg]
  | .blkld | .blkst => [.bounds]
  | .qemb _ | .qext => [.badq]
  | .embed => [.invimg, .badq, .len, .unenc, .capacity]
  | .extract => [.invimg, .badq]

end Sys2Proof.Machine
end

