-- ==== Sys2Proof/Certificates/Slice0/Obligations.lean ====
section
/-! DEFINITION. The statements for the provers. Each docstring names the rule of the spec it formalises. -/

open Sys2Proof Sys2Proof.Machine

/-! ### Encoding -/

/-- 30_encoding.md R104, R107: decoding the word of a well-formed command gives the command, and every word that
decodes is the word of the command it decodes to. -/
def Obligations.DecodeIsInverseOfEncode : Prop :=
  (∀ i : Instr, i.wf = true → decode (encode i) = .ok i) ∧
    ∀ (w : Word) (i : Instr), decode w = .ok i → i.wf = true ∧ encode i = w

/-- 30_encoding.md R107, the match-and-mask form: the legal words are those one of the sixteen rows covers, and no
word is covered by two rows. -/
def Obligations.LegalWordsAreTheTableRows : Prop :=
  (∀ w : Word, (∃ i, decode w = .ok i) ↔ ∃ row ∈ opcodeTable, row.covers w = true) ∧
    opcodeTable.length = 16 ∧
    opcodeTable.Pairwise fun a b => ∀ w : Word, ¬(a.covers w = true ∧ b.covers w = true)

/-- 30_encoding.md R104, R105: some words and what they stand for. A sanity statement. -/
def Obligations.SampleWordsDecode : Prop :=
  decode 0x00000000 = .ok .nop ∧ decode 0x00000001 = .ok .t2b ∧ decode 0x00000003 = .ok .cscf ∧
    decode 0x00000007 = .ok .blkld ∧ decode 0x0000000A = .ok .idct ∧ decode 0x0000000B = .ok (.qemb false) ∧
    decode 0x0000010B = .ok (.qemb true) ∧ decode 0x0000000D = .ok .cap ∧ decode 0x00000010 = .ok .embed ∧
    decode 0x00000011 = .ok .extract ∧ decode 0x0000020B = .error .nonzeroB ∧
    decode 0x0000010C = .error .nonzeroN ∧ decode 0x0000000E = .error .reservedOpcode ∧
    decode 0x000000FF = .error .reservedOpcode ∧ decode 0x80000010 = .error .nonzeroN

/-! ### Issue, completion, the Engine's turn -/

/-- 10_state.md R31 (c): at the Engine's turn a busy core out of reset runs the command that `CMDL` decodes to, and an
idle core stays idle. The step adds only the taking of the turn (assumption 1). -/
def Obligations.StepRunsTheDecodedCommand : Prop :=
  ∀ (s : State) (ts : List Turn), EngineNext s ts →
    (∀ i : Instr, s.port.rst = false → s.phase = .busy → decode s.cmdl = .ok i → step s = exec i (taken ts s)) ∧
    (s.phase = .idle → step s = .next (taken ts s))

/-- 60_exceptions.md R261: an issued word that is none of the 17 legal words completes with `E_ILLCMD` and no other
effect. -/
def Obligations.IllegalWordCompletesWithIllcmd : Prop :=
  ∀ (s : State) (ts : List Turn),
    EngineNext s ts → s.port.rst = false → s.phase = .busy → (∀ i : Instr, encode i ≠ s.cmdl) →
      step s = .next (completed (some .illcmd) (taken ts s)) ∧
        readReg .cmd (completed (some .illcmd) (taken ts s)) = s.cmdl ∧
        errCode (some .illcmd) = 1

/-- 10_state.md R31 (b): a host write to `CMD` while idle issues the word. -/
def Obligations.HostWriteToCmdIssues : Prop :=
  ∀ (s : State) (ts : List Turn) (w : Word),
    s.port.turns = .port (.write4 (Config.default.base + 0x0C) w) :: ts → s.port.rst = false → s.phase = .idle →
      step s = .next (answered ts (.okay .none) (issued w s))

/-- 10_state.md R31, 45_orchestrator.md R237: every command completes, on every state: idle with `DONE` set. -/
def Obligations.EveryCommandCompletes : Prop :=
  ∀ (i : Instr) (s : State), ∃ t, exec i s = .next t ∧ t.phase = .idle ∧ t.flags.done = true

/-- 10_state.md R31, 70_reset_and_hazards.md R306: an issued command completes after finitely many steps of other agents,
if no reset comes first. The number of steps is bounded only by the turns the outside world takes, a finite list after
which the Engine moves: the bound rests on that choice of the model (assumption 1), not on the spec. -/
def Obligations.IssuedCommandCompletes : Prop :=
  ∀ s : State, s.phase = .busy → s.port.rst = false → (∀ b, Turn.rst b ∉ s.port.turns) →
    ∃ n t, 1 ≤ n ∧ n ≤ s.port.turns.length + 1 ∧ Host.Core.run Sys2Proof.core n s = .next t ∧
      t.phase = .idle ∧ t.flags.done = true ∧ t.cmdl = s.cmdl

/-- 45_orchestrator.md R230: `NOP` only completes; issued and completed it leaves `STATUS = 0x02 | (STATUS & 0x70)`. -/
def Obligations.NopOnlyCompletes : Prop :=
  decode 0x00000000 = .ok .nop ∧
  ∀ (s : State) (w : Word),
    exec .nop s = .next (completed none s) ∧
      (completed none (issued w s)).status = 0x02#32 ||| (s.status &&& 0x70#32)

/-! ### Bit Codec -/

/-- 40_bit_codec.md R132: `T2B`. `E_LEN` before `E_UNENC`; else the text's bits, most significant first, then the
delimiter, and nothing else but `NBITS` changes. -/
def Obligations.T2bEncodesTheText : Prop :=
  decode 0x00000001 = .ok .t2b ∧
  ∀ s : State,
    (s.textLen > Config.default.maxtext → exec .t2b s = .next (completed (some .len) s)) ∧
    (s.textLen ≤ Config.default.maxtext → (∃ k < s.textLen, (s.mem.txtWord Config.default k).toNat > 255) →
      exec .t2b s = .next (completed (some .unenc) s)) ∧
    (EncodableText s →
      ∃ bits',
        let m := { s.mem with bits := bits' }
        exec .t2b s = .next (completed none
          { s with regs := { s.regs with nbits := BitVec.ofNat 32 (8 * s.textLen + 16) }, mem := m }) ∧
        (∀ k < s.textLen, ∀ t < 8,
          m.bit Config.default (8 * k + t) = (s.mem.txtWord Config.default k).getLsbD (7 - t)) ∧
        (∀ t < 16, m.bit Config.default (8 * s.textLen + t) = decide (t ≤ 7)) ∧
        ∀ k, 8 * s.textLen + 16 ≤ k → m.bit Config.default k = s.mem.bit Config.default k)

/-- 40_bit_codec.md R133: `B2T`. `E_LEN` on a length past the buffer; else one trailing delimiter is removed, each full
group of eight bits gives one character, and nothing else changes. -/
def Obligations.B2tDecodesTheBits : Prop :=
  decode 0x00000002 = .ok .b2t ∧
  ∀ s : State,
    (s.nBits > Config.default.maxbits → exec .b2t s = .next (completed (some .len) s)) ∧
    ∀ n, s.nBits ≤ Config.default.maxbits →
      (EndsDelim (s.mem.bit Config.default) s.nBits ∧ n = s.nBits - 16 ∨
        ¬EndsDelim (s.mem.bit Config.default) s.nBits ∧ n = s.nBits) →
      ∃ out',
        let m := { s.mem with out := out' }
        exec .b2t s = .next (completed none
          { s with regs := { s.regs with outlen := BitVec.ofNat 32 (n / 8) }, mem := m }) ∧
        (∀ g < n / 8, (m.outWord Config.default g).toNat = groupValue (s.mem.bit Config.default) g) ∧
        ∀ g, n / 8 ≤ g → m.outWord Config.default g = s.mem.outWord Config.default g

/-- 40_bit_codec.md R135: `T2B` then `B2T` gives the text back, also when the text holds the delimiter pattern. -/
def Obligations.CodecRoundTrip : Prop :=
  ∀ s : State, EncodableText s →
    ∃ t u, exec .t2b s = .next t ∧ exec .b2t t = .next u ∧ u.flags.err = none ∧
      u.regs.outlen.toNat = s.textLen ∧
      ∀ g < s.textLen, u.mem.outWord Config.default g = s.mem.txtWord Config.default g

/-! ### Channel Adapter -/

/-- 41_channel_adapter.md R153: `CSCF`. `E_INVIMG`, or the three planes over the image rectangle, and nothing else
changes. -/
def Obligations.CscfFillsThePlanes : Prop :=
  decode 0x00000003 = .ok .cscf ∧
  ∀ s : State,
    (¬ValidImage s → exec .cscf s = .next (completed (some .invimg) s)) ∧
    (ValidImage s →
      ∃ luma' chr1' chr2',
        let m := { s.mem with luma := luma', chr1 := chr1', chr2 := chr2' }
        exec .cscf s = .next (completed none { s with mem := m }) ∧
        (∀ r < s.h, ∀ c < s.w,
          m.lumaAt Config.default r c = pixelLuma s r c ∧
          m.chr1At Config.default r c = (pixelInYCC s r c).2.1 ∧
          m.chr2At Config.default r c = (pixelInYCC s r c).2.2) ∧
        ∀ r c, c < Config.default.maxw → ¬(r < s.h ∧ c < s.w) →
          m.lumaAt Config.default r c = s.mem.lumaAt Config.default r c ∧
          m.chr1At Config.default r c = s.mem.chr1At Config.default r c ∧
          m.chr2At Config.default r c = s.mem.chr2At Config.default r c)

/-- 41_channel_adapter.md R154: `CSCI`. `E_INVIMG`, or the bytes of every pixel from its rounded and clamped luma and its
chroma; the planes and the rest of `PIX` keep their values. -/
def Obligations.CsciWritesThePixels : Prop :=
  decode 0x00000004 = .ok .csci ∧
  ∀ s : State,
    (¬ValidImage s → exec .csci s = .next (completed (some .invimg) s)) ∧
    (ValidImage s →
      ∃ pix',
        let m := { s.mem with pix := pix' }
        exec .csci s = .next (completed none { s with mem := m }) ∧
        (∀ r < s.h, ∀ c < s.w,
          pixel { s with mem := m } r c =
            Config.default.color.fromYCC (tou8 ratOps (s.mem.lumaAt Config.default r c))
              (s.mem.chr1At Config.default r c) (s.mem.chr2At Config.default r c)) ∧
        ∀ a, 3 * s.w * s.h ≤ a → m.pixByte Config.default a = s.mem.pixByte Config.default a)

/-- 41_channel_adapter.md R151, R152: the default `toYCC` and `fromYCC`, with `x >> 14` the floor of `x / 16384`. -/
def Obligations.DefaultColourConversion : Prop :=
  (∀ R G B : Byte,
    let Y : Int := clamp255 ⌊((4899 * R.toNat + 9617 * G.toNat + 1868 * B.toNat + 8192 : Int) / 16384 : ℚ)⌋
    ((Config.default.color.toYCC R G B).1.toNat : Int) = Y ∧
    ((Config.default.color.toYCC R G B).2.1.toNat : Int) =
      clamp255 ⌊(((R.toNat - Y) * 11682 + 2097152 + 8192 : Int) / 16384 : ℚ)⌋ ∧
    ((Config.default.color.toYCC R G B).2.2.toNat : Int) =
      clamp255 ⌊(((B.toNat - Y) * 9241 + 2097152 + 8192 : Int) / 16384 : ℚ)⌋) ∧
  (∀ Y Cr Cb : Byte,
    ((Config.default.color.fromYCC Y Cr Cb).1.toNat : Int) =
      clamp255 (Y.toNat + ⌊((((Cr.toNat : Int) - 128) * 22987 + 8192 : Int) / 16384 : ℚ)⌋) ∧
    ((Config.default.color.fromYCC Y Cr Cb).2.1.toNat : Int) =
      clamp255 (Y.toNat + ⌊((((Cb.toNat : Int) - 128) * (-5636) + ((Cr.toNat : Int) - 128) * (-11698) + 8192 : Int)
        / 16384 : ℚ)⌋) ∧
    ((Config.default.color.fromYCC Y Cr Cb).2.2.toNat : Int) =
      clamp255 (Y.toNat + ⌊((((Cb.toNat : Int) - 128) * 29049 + 8192 : Int) / 16384 : ℚ)⌋))

/-- 00_scope.md R10: `tou8` is the nearest integer, ties up, clamped; clamping first gives the same. -/
def Obligations.RoundingToASample : Prop :=
  ∀ x : QNum,
    ((tou8 ratOps x).toNat : Int) = clamp255 ⌊x + 1 / 2⌋ ∧
      ((tou8 ratOps x).toNat : Int) = clamp255 ⌊max 0 (min 255 x) + 1 / 2⌋

/-! ### Block Iterator -/

/-- 42_block_iterator.md R172: `ITRST`. -/
def Obligations.ItrstStartsTheIterator : Prop :=
  decode 0x00000005 = .ok .itrst ∧
  ∀ s : State,
    exec .itrst s = .next (completed none
      { s with
        regs := { s.regs with iti := 0, itj := 0 }
        flags := { s.flags with itvalid := decide (8 < s.regs.height.toNat ∧ 8 < s.regs.width.toNat) } })

/-- 42_block_iterator.md R173: `ITNEXT`, in its four cases; the new coordinate is exact. -/
def Obligations.ItnextAdvancesTheIterator : Prop :=
  decode 0x00000006 = .ok .itnext ∧
  ∀ s : State,
    (s.flags.itvalid = false → exec .itnext s = .next (completed none s)) ∧
    (s.flags.itvalid = true → s.j + 16 < s.w →
      ∃ j' : Half, j'.toNat = s.j + 8 ∧
        exec .itnext s = .next (completed none { s with regs := { s.regs with itj := j' } })) ∧
    (s.flags.itvalid = true → ¬s.j + 16 < s.w → s.i + 16 < s.h →
      ∃ i' : Half, i'.toNat = s.i + 8 ∧
        exec .itnext s = .next (completed none { s with regs := { s.regs with iti := i', itj := 0 } })) ∧
    (s.flags.itvalid = true → ¬s.j + 16 < s.w → ¬s.i + 16 < s.h →
      exec .itnext s = .next (completed none { s with flags := { s.flags with itvalid := false } }))

/-- 42_block_iterator.md R171, R173: from `ITRST`, `k` executions of `ITNEXT` lead to block `k` of the row-major sequence
for each `k` below `NB(H)·NB(W)`, and the next one exhausts the iterator. -/
def Obligations.IteratorVisitsBlocksInRowMajorOrder : Prop :=
  ∀ (s : State) (k : Nat), 1 ≤ s.blocks → k ≤ s.blocks →
    ∃ t, runCommands (.itrst :: List.replicate k .itnext) s = .next t ∧
      t.flags.itvalid = decide (k < s.blocks) ∧
      t.i = 8 * (min k (s.blocks - 1) / nb s.w) ∧ t.j = 8 * (min k (s.blocks - 1) % nb s.w) ∧
      t.mem = s.mem ∧ t.blk = s.blk ∧ t.coef = s.coef

/-- 42_block_iterator.md R170, R171, R177: `NB(x)` is the number of multiples of 8 strictly below `x − 8`, counted on
integers; every block of the sequence lies inside the image, short of its last row and column; and the unvisited band
has 1 to 8 rows and 1 to 8 columns. -/
def Obligations.YieldedBlocksLieInsideTheImage : Prop :=
  (∀ x : Nat, nb x = ((Finset.range x).filter fun i => i % 8 = 0 ∧ i + 8 < x).card) ∧
  ∀ h w k : Nat, k < nb h * nb w →
    8 * (k / nb w) + 7 < h - 1 ∧ 8 * (k % nb w) + 7 < w - 1 ∧
      1 ≤ h - 8 * nb h ∧ h - 8 * nb h ≤ 8 ∧ 1 ≤ w - 8 * nb w ∧ w - 8 * nb w ≤ 8

/-- 42_block_iterator.md R174: `CAP`. -/
def Obligations.CapComputesTheCapacity : Prop :=
  decode 0x0000000D = .ok .cap ∧
  ∀ s : State,
    (¬ValidImage s → exec .cap s = .next (completed (some .invimg) s)) ∧
    (ValidImage s → ∃ c : Word, c.toNat = nb s.h * nb s.w ∧
      exec .cap s = .next (completed none { s with regs := { s.regs with capacity := c } }))

/-- 42_block_iterator.md R175: `BLKLD` loads any block inside the image, aligned or not, `ITVALID` or not, or raises
`E_BOUNDS`. -/
def Obligations.BlkldLoadsTheBlock : Prop :=
  decode 0x00000007 = .ok .blkld ∧
  ∀ s : State,
    (¬BlockInside s → exec .blkld s = .next (completed (some .bounds) s)) ∧
    (BlockInside s → ∃ blk',
      exec .blkld s = .next (completed none { s with blk := blk' }) ∧
      ∀ r c : Fin 8, matAt blk' r c = s.mem.lumaAt Config.default (s.i + r.val) (s.j + c.val))

/-- 42_block_iterator.md R176: `BLKST` stores the block unrounded and changes no other cell, or raises `E_BOUNDS`. -/
def Obligations.BlkstStoresTheBlock : Prop :=
  decode 0x00000008 = .ok .blkst ∧
  ∀ s : State,
    (¬BlockInside s → exec .blkst s = .next (completed (some .bounds) s)) ∧
    (BlockInside s → ∃ luma',
      let m := { s.mem with luma := luma' }
      exec .blkst s = .next (completed none { s with mem := m }) ∧
      (∀ r c : Fin 8, m.lumaAt Config.default (s.i + r.val) (s.j + c.val) = matAt s.blk r c) ∧
      ∀ r c, c < Config.default.maxw → ¬(s.i ≤ r ∧ r < s.i + 8 ∧ s.j ≤ c ∧ c < s.j + 8) →
        m.lumaAt Config.default r c = s.mem.lumaAt Config.default r c)

/-! ### Block Transform -/

/-- 43_block_transform.md R192: `FDCT` is the double sum, for every content of `BLK`. -/
def Obligations.FdctIsTheDoubleSum : Prop :=
  decode 0x00000009 = .ok .fdct ∧
  ∀ s : State, ∃ coef',
    exec .fdct s = .next (completed none { s with coef := coef' }) ∧
    ∀ u v : Fin 8, matAt coef' u v = forwardSum (matAt s.blk) u v

/-- 43_block_transform.md R193: `IDCT` is the double sum with the same basis, for every content of `COEF`. -/
def Obligations.IdctIsTheDoubleSum : Prop :=
  decode 0x0000000A = .ok .idct ∧
  ∀ s : State, ∃ blk',
    exec .idct s = .next (completed none { s with blk := blk' }) ∧
    ∀ r c : Fin 8, matAt blk' r c = inverseSum (matAt s.coef) r c

/-- 43_block_transform.md R190, R191: the basis the core uses is the ideal cosine basis times `2^30`, each entry
rounded to the nearest integer. -/
def Obligations.BasisIsTheRoundedCosineBasis : Prop :=
  ∀ k n : Fin 8,
    let ideal : ℝ :=
      if k = 0 then 1 / Real.sqrt 8 else 1 / 2 * Real.cos ((2 * (n.val : ℝ) + 1) * (k.val : ℝ) * Real.pi / 16)
    ∃ m : Int, Config.default.c k n = (m : QNum) / 2 ^ 30 ∧ |(m : ℝ) - ideal * 2 ^ 30| < 1 / 2

/-- 43_block_transform.md R194: for a block with all cells in 0..255, `FDCT` then `IDCT` returns every cell within `2·10⁻⁵`,
so an integer cell rounds to itself. -/
def Obligations.TransformRoundTripIsWithinTolerance : Prop :=
  ∀ s : State, (∀ r c : Fin 8, 0 ≤ matAt s.blk r c ∧ matAt s.blk r c ≤ 255) →
    ∃ t u, exec .fdct s = .next t ∧ exec .idct t = .next u ∧
      ∀ r c : Fin 8, |matAt u.blk r c - matAt s.blk r c| ≤ 2 / 100000 ∧
        ∀ n : Nat, matAt s.blk r c = n → (tou8 ratOps (matAt u.blk r c)).toNat = n

/-! ### Quantizer -/

/-- 44_quantizer.md R211: the remainder lies in `[0, Q)`, and `c − rem(c, Q)` is the largest multiple of `Q` not above `c`. -/
def Obligations.RemainderLiesInTheBin : Prop :=
  ∀ c q : QNum, 0 < q →
    0 ≤ remQ ratOps c q ∧ remQ ratOps c q < q ∧ c - remQ ratOps c q = q * ⌊c / q⌋ ∧
      ∀ m : Int, q * m ≤ c → q * m ≤ c - remQ ratOps c q

/-- 44_quantizer.md R213: `QEMB b` moves the carrier to the centroid of `b` in its own bin and changes no other cell;
`E_BADQ` on strength 0. Both bits. -/
def Obligations.QembRequantizesTheCarrier : Prop :=
  decode 0x0000000B = .ok (.qemb false) ∧ decode 0x0000010B = .ok (.qemb true) ∧
  ∀ (b : Bool) (s : State),
    (s.regs.qstep = 0 → exec (.qemb b) s = .next (completed (some .badq) s)) ∧
    (s.regs.qstep ≠ 0 → ∃ coef',
      exec (.qemb b) s = .next (completed none { s with coef := coef' }) ∧
      matAt coef' 4 5 = quantized b (s.regs.qstep.toNat / 65536) (matAt s.coef 4 5) ∧
      ∀ u v : Fin 8, ¬(u = 4 ∧ v = 5) → matAt coef' u v = matAt s.coef u v)

/-- 44_quantizer.md R214: `QEXT` decides by the strict comparison of the two distances, ties to 0, and writes only
`BITOUT`; `E_BADQ` on strength 0. -/
def Obligations.QextClassifiesTheCarrier : Prop :=
  decode 0x0000000C = .ok .qext ∧
  ∀ s : State,
    (s.regs.qstep = 0 → exec .qext s = .next (completed (some .badq) s)) ∧
    (s.regs.qstep ≠ 0 →
      let q : QNum := s.regs.qstep.toNat / 65536
      let r := remainder (matAt s.coef 4 5) q
      exec .qext s = .next (completed none
        { s with flags := { s.flags with bitout := decide (|r - 3 * q / 4| < |r - q / 4|) } }))

/-- 44_quantizer.md R215: the classifier is the threshold `rem > Q/2`, and `QEXT` straight after `QEMB b` gives `b`, for
every coefficient and every strength. -/
def Obligations.QextReadsBackWhatQembWrote : Prop :=
  ∀ (b : Bool) (s : State), s.regs.qstep ≠ 0 →
    (∃ t, exec .qext s = .next t ∧
      (t.flags.bitout = true ↔ remainder (matAt s.coef 4 5) s.q > s.q / 2)) ∧
    ∃ t u, exec (.qemb b) s = .next t ∧ exec .qext t = .next u ∧ u.flags.bitout = b

/-! ### Orchestrator -/

/-- 45_orchestrator.md R231, R232, 60_exceptions.md R270: `EMBED` and `EXTRACT` report the first failing check of their order, and
change nothing else. -/
def Obligations.CompositeChecksComeInOrder : Prop :=
  ∀ s : State,
    (¬ValidImage s →
      exec .embed s = .next (completed (some .invimg) s) ∧ exec .extract s = .next (completed (some .invimg) s)) ∧
    (ValidImage s → s.regs.qstep = 0 →
      exec .embed s = .next (completed (some .badq) s) ∧ exec .extract s = .next (completed (some .badq) s)) ∧
    (ValidImage s → s.regs.qstep ≠ 0 → s.textLen > Config.default.maxtext →
      exec .embed s = .next (completed (some .len) s)) ∧
    (ValidImage s → s.regs.qstep ≠ 0 → s.textLen ≤ Config.default.maxtext →
      (∃ k < s.textLen, (s.mem.txtWord Config.default k).toNat > 255) →
      exec .embed s = .next (completed (some .unenc) s)) ∧
    (ValidImage s → s.regs.qstep ≠ 0 → EncodableText s → s.ctrl.capmode = false → s.payloadBits > s.blocks →
      exec .embed s = .next (completed (some .capacity) s))

/-- 45_orchestrator.md R231: when no check fails `EMBED` completes normally; the number of bits embedded, `TRUNC`, the bits
buffer, where the iterator stops, and what is left unchanged. -/
def Obligations.EmbedCompletesAndLeavesTheRestAlone : Prop :=
  ∀ s : State, EmbedAccepts s →
    ∃ t, exec .embed s = .next t ∧ t.phase = .idle ∧
      t.regs = { s.regs with
        nbits := BitVec.ofNat 32 s.payloadBits, bitcur := BitVec.ofNat 32 (min s.payloadBits s.blocks),
        iti := t.regs.iti, itj := t.regs.itj } ∧
      t.flags = { s.flags with
        done := true, err := none, trunc := decide (s.payloadBits > s.blocks),
        itvalid := decide (s.payloadBits < s.blocks) } ∧
      t.i = 8 * (min s.payloadBits (s.blocks - 1) / nb s.w) ∧ t.j = 8 * (min s.payloadBits (s.blocks - 1) % nb s.w) ∧
      t.ctrl = s.ctrl ∧ t.cmdl = s.cmdl ∧ t.port = s.port ∧
      t.mem = { s.mem with
        pix := t.mem.pix, bits := t.mem.bits, luma := t.mem.luma, chr1 := t.mem.chr1, chr2 := t.mem.chr2 } ∧
      (∀ k < s.payloadBits, t.mem.bit Config.default k = textBit s k) ∧
      (∀ k, s.payloadBits ≤ k → t.mem.bit Config.default k = s.mem.bit Config.default k) ∧
      (∀ r c, c < Config.default.maxw → ¬(r < s.h ∧ c < s.w) →
        t.mem.lumaAt Config.default r c = s.mem.lumaAt Config.default r c ∧
        t.mem.chr1At Config.default r c = s.mem.chr1At Config.default r c ∧
        t.mem.chr2At Config.default r c = s.mem.chr2At Config.default r c) ∧
      ∀ a, 3 * s.w * s.h ≤ a → t.mem.pixByte Config.default a = s.mem.pixByte Config.default a

/-- 45_orchestrator.md R231, 42_block_iterator.md R171, 41_channel_adapter.md R156: what `EMBED` makes of every pixel of the image. Block
`k` carries bit `k` of the text in its requantised carrier, every other block and the unvisited band keep their
luma, and every pixel is the colour conversion of its rounded luma and its chroma. `BLK` and `COEF` keep the last block
embedded, or their values when there is none. -/
def Obligations.EmbedWritesTheWatermarkedImage : Prop :=
  ∀ s : State, EmbedAccepts s →
    ∃ t, exec .embed s = .next t ∧
      (∀ r < s.h, ∀ c < s.w,
        t.mem.lumaAt Config.default r c = embeddedLuma s r c ∧
        t.mem.chr1At Config.default r c = (pixelInYCC s r c).2.1 ∧
        t.mem.chr2At Config.default r c = (pixelInYCC s r c).2.2 ∧
        pixel t r c =
          Config.default.color.fromYCC (tou8 ratOps (embeddedLuma s r c)) (pixelInYCC s r c).2.1 (pixelInYCC s r c).2.2) ∧
      (s.blocks = 0 → t.blk = s.blk ∧ t.coef = s.coef) ∧
      ∀ k, min s.payloadBits s.blocks = k + 1 → ∀ u v : Fin 8,
        matAt t.coef u v = embeddedCoef s k u v ∧ matAt t.blk u v = inverseSum (embeddedCoef s k) u v

/-- 45_orchestrator.md R233: the primitive commands, one `EMB1` and one `ITNEXT` for each bit that fits, produce the `PIX` that
`EMBED` produces. -/
def Obligations.EmbedEqualsItsPrimitives : Prop :=
  ∀ s : State, EmbedAccepts s →
    ∃ t u, exec .embed s = .next t ∧
      runCommands
        ([.cscf, .itrst]
          ++ (List.range (min s.payloadBits s.blocks)).flatMap
              (fun k => [.blkld, .fdct, .qemb (textBit s k), .idct, .blkst, .itnext])
          ++ [.csci]) s = .next u ∧
      u.mem.pix = t.mem.pix

/-- 45_orchestrator.md R232: `EXTRACT` completes normally on a valid image and a positive strength; what it leaves
unchanged, `PIX` first. `BLK` and `COEF` keep the last block read, or their values when there is none. -/
def Obligations.ExtractCompletesAndWritesNoImage : Prop :=
  ∀ s : State, ValidImage s → s.regs.qstep ≠ 0 →
    ∃ t, exec .extract s = .next t ∧ t.phase = .idle ∧
      t.regs = { s.regs with
        nbits := t.regs.nbits, outlen := t.regs.outlen, bitcur := t.regs.nbits, iti := t.regs.iti, itj := t.regs.itj } ∧
      t.flags = { s.flags with
        done := true, err := none, found := t.flags.found, bitout := t.flags.bitout, itvalid := t.flags.found } ∧
      t.ctrl = s.ctrl ∧ t.cmdl = s.cmdl ∧ t.port = s.port ∧
      t.mem = { s.mem with
        out := t.mem.out, bits := t.mem.bits, luma := t.mem.luma, chr1 := t.mem.chr1, chr2 := t.mem.chr2 } ∧
      (t.nBits = 0 → t.blk = s.blk ∧ t.coef = s.coef) ∧
      (∀ k, t.nBits = k + 1 → ∀ u v : Fin 8,
        matAt t.blk u v = blockLuma s k u v ∧ matAt t.coef u v = forwardSum (blockLuma s k) u v) ∧
      (∀ k, t.nBits ≤ k → t.mem.bit Config.default k = s.mem.bit Config.default k) ∧
      (∀ r < s.h, ∀ c < s.w,
        t.mem.lumaAt Config.default r c = pixelLuma s r c ∧
        t.mem.chr1At Config.default r c = (pixelInYCC s r c).2.1 ∧
        t.mem.chr2At Config.default r c = (pixelInYCC s r c).2.2) ∧
      (∀ r c, c < Config.default.maxw → ¬(r < s.h ∧ c < s.w) →
        t.mem.lumaAt Config.default r c = s.mem.lumaAt Config.default r c ∧
        t.mem.chr1At Config.default r c = s.mem.chr1At Config.default r c ∧
        t.mem.chr2At Config.default r c = s.mem.chr2At Config.default r c) ∧
      ∀ g, t.regs.outlen.toNat ≤ g → t.mem.outWord Config.default g = s.mem.outWord Config.default g

/-- 45_orchestrator.md R232: `EXTRACT` reads the blocks in order and stops at the first point where the bits read end with
the delimiter; the text is the full groups before it. -/
def Obligations.ExtractStopsAtTheFirstDelimiter : Prop :=
  ∀ (s : State) (m : Nat), ValidImage s → s.regs.qstep ≠ 0 → m ≤ s.blocks →
    EndsDelim (carriedBit s) m → (∀ n < m, ¬EndsDelim (carriedBit s) n) →
    ∃ t, exec .extract s = .next t ∧ t.flags.found = true ∧ t.flags.itvalid = true ∧ t.flags.bitout = false ∧
      t.nBits = m ∧ t.regs.bitcur.toNat = m ∧ t.regs.outlen.toNat = (m - 16) / 8 ∧
      t.i = 8 * ((m - 1) / nb s.w) ∧ t.j = 8 * ((m - 1) % nb s.w) ∧
      (∀ k < m, t.mem.bit Config.default k = carriedBit s k) ∧
      ∀ g < (m - 16) / 8, (t.mem.outWord Config.default g).toNat = groupValue (carriedBit s) g

/-- 45_orchestrator.md R232, 60_exceptions.md R268: with no delimiter in the bits of all blocks, `EXTRACT` completes normally with
`FOUND = 0`, `OUTLEN = 0`, `OUT` unchanged, every block read and the iterator on the last one (R173), at (0, 0) when there
is none. -/
def Obligations.ExtractReportsNotFound : Prop :=
  ∀ s : State, ValidImage s → s.regs.qstep ≠ 0 → (∀ m ≤ s.blocks, ¬EndsDelim (carriedBit s) m) →
    ∃ t, exec .extract s = .next t ∧ t.flags.err = none ∧ t.flags.found = false ∧ t.flags.itvalid = false ∧
      t.nBits = s.blocks ∧ t.regs.bitcur.toNat = s.blocks ∧ t.regs.outlen = 0 ∧ t.mem.out = s.mem.out ∧
      (if s.blocks = 0 then t.i = 0 ∧ t.j = 0
        else t.i = 8 * ((s.blocks - 1) / nb s.w) ∧ t.j = 8 * ((s.blocks - 1) % nb s.w)) ∧
      (∀ k < s.blocks, t.mem.bit Config.default k = carriedBit s k) ∧
      t.flags.bitout = if s.blocks = 0 then s.flags.bitout else carriedBit s (s.blocks - 1)

/-- 10_state.md R55: when they complete normally, the outputs of `EMBED` are a function of the image, its size, the
strength, the text and the policy only, and the outputs of `EXTRACT` of the image, its size and the strength only; and
which error they end with is a function of the same. Two states that agree on these give the same outputs, whatever
else they hold. -/
def Obligations.CompositesDependOnTheirInputsOnly : Prop :=
  ∀ s s' : State,
    s.regs.width = s'.regs.width → s.regs.height = s'.regs.height → s.regs.qstep = s'.regs.qstep →
    (∀ a < 3 * s.w * s.h, s.mem.pixByte Config.default a = s'.mem.pixByte Config.default a) →
    (s.regs.textlen = s'.regs.textlen → s.ctrl.capmode = s'.ctrl.capmode →
      (∀ k < s.textLen, s.mem.txtWord Config.default k = s'.mem.txtWord Config.default k) →
      ∃ t t', exec .embed s = .next t ∧ exec .embed s' = .next t' ∧ t.flags.err = t'.flags.err ∧
        (t.flags.err = none →
          t.regs.nbits = t'.regs.nbits ∧ t.regs.bitcur = t'.regs.bitcur ∧ t.flags.trunc = t'.flags.trunc ∧
          (∀ k < t.nBits, t.mem.bit Config.default k = t'.mem.bit Config.default k) ∧
          ∀ a < 3 * s.w * s.h, t.mem.pixByte Config.default a = t'.mem.pixByte Config.default a)) ∧
    ∃ t t', exec .extract s = .next t ∧ exec .extract s' = .next t' ∧ t.flags.err = t'.flags.err ∧
      (t.flags.err = none →
        t.flags.found = t'.flags.found ∧ t.regs.outlen = t'.regs.outlen ∧ t.regs.nbits = t'.regs.nbits ∧
        t.regs.bitcur = t'.regs.bitcur ∧
        (∀ k < t.nBits, t.mem.bit Config.default k = t'.mem.bit Config.default k) ∧
        ∀ g < t.regs.outlen.toNat, t.mem.outWord Config.default g = t'.mem.outWord Config.default g)

/-- 45_orchestrator.md R238 under the sufficient condition of 44_quantizer.md R217: the text that `EMBED` puts into a grey
image is the text that `EXTRACT` reads from it, when it fits, the strength is at least 14.5, no sample of an embedded
block has to be clamped, and its bits do not spell the delimiter early. -/
def Obligations.EmbeddedTextIsExtracted : Prop :=
  ∀ s : State, EmbedAccepts s → s.payloadBits ≤ s.blocks → 0x000E8000 ≤ s.regs.qstep.toNat →
    (∀ r < s.h, ∀ c < s.w, (pixel s r c).2.1 = (pixel s r c).1 ∧ (pixel s r c).2.2 = (pixel s r c).1) →
    (∀ k < s.payloadBits, ∀ r c : Fin 8,
      -1 / 2 ≤ inverseSum (embeddedCoef s k) r c ∧ inverseSum (embeddedCoef s k) r c < 509 / 2) →
    (∀ n < s.payloadBits, ¬EndsDelim (textBit s) n) →
    ∃ t u, exec .embed s = .next t ∧ exec .extract t = .next u ∧ u.flags.found = true ∧
      u.regs.outlen.toNat = s.textLen ∧
      ∀ g < s.textLen, u.mem.outWord Config.default g = s.mem.txtWord Config.default g

/-! ### Errors and frames of all commands -/

/-- 60_exceptions.md R271: a command that ends with an error sets `ERR`, `DONE` and the phase and changes nothing else. -/
def Obligations.ErrorChangesOnlyStatus : Prop :=
  ∀ (i : Instr) (s t : State) (e : Err),
    exec i s = .next t → t.flags.err = some e → t = completed (some e) s

/-- 60_exceptions.md R260, R267: no command raises an error other than those of its row; in particular `EMBED` and `EXTRACT` never
raise `E_BOUNDS`, and `NOP`, `ITRST`, `ITNEXT`, `FDCT` and `IDCT` raise nothing. -/
def Obligations.CommandsRaiseOnlyTheirErrors : Prop :=
  ∀ (i : Instr) (s t : State) (e : Err), exec i s = .next t → t.flags.err = some e → e ∈ raisable i

/-- 10_state.md R21 to R24, R42, R49, R37: no command writes `WIDTH`, `HEIGHT`, `QSTEP`, `TEXTLEN`, `CTRL`, `TXT` or `OVR`, nor the latched
word or the core's boundary. -/
def Obligations.NoCommandWritesTheHostOperands : Prop :=
  ∀ (i : Instr) (s t : State), exec i s = .next t →
    t.regs.width = s.regs.width ∧ t.regs.height = s.regs.height ∧ t.regs.qstep = s.regs.qstep ∧
    t.regs.textlen = s.regs.textlen ∧ t.ctrl = s.ctrl ∧ t.mem.txt = s.mem.txt ∧ t.mem.epoch = s.mem.epoch ∧
    t.flags.ovr = s.flags.ovr ∧ t.cmdl = s.cmdl ∧ t.port = s.port

/-- 10_state.md R25 to R30, R35, R36, R38, R39, R45 to R53: each result register, flag, register file and buffer is written by the
commands its rule names and by no other. -/
def Obligations.StateIsWrittenOnlyByItsCommands : Prop :=
  ∀ (i : Instr) (s t : State), exec i s = .next t →
    (i ≠ .extract → t.flags.found = s.flags.found) ∧
    (i ≠ .embed → t.flags.trunc = s.flags.trunc) ∧
    (i ∉ [.qext, .extract] → t.flags.bitout = s.flags.bitout) ∧
    (i ∉ [.itrst, .itnext, .embed, .extract] →
      t.flags.itvalid = s.flags.itvalid ∧ t.regs.iti = s.regs.iti ∧ t.regs.itj = s.regs.itj) ∧
    (i ∉ [.embed, .extract] → t.regs.bitcur = s.regs.bitcur) ∧
    (i ≠ .cap → t.regs.capacity = s.regs.capacity) ∧
    (i ∉ [.t2b, .embed, .extract] → t.regs.nbits = s.regs.nbits ∧ t.mem.bits = s.mem.bits) ∧
    (i ∉ [.b2t, .extract] → t.regs.outlen = s.regs.outlen ∧ t.mem.out = s.mem.out) ∧
    (i ∉ [.csci, .embed] → t.mem.pix = s.mem.pix) ∧
    (i ∉ [.cscf, .embed, .extract] → t.mem.chr1 = s.mem.chr1 ∧ t.mem.chr2 = s.mem.chr2) ∧
    (i ∉ [.cscf, .blkst, .embed, .extract] → t.mem.luma = s.mem.luma) ∧
    (i ∉ [.blkld, .idct, .embed, .extract] → t.blk = s.blk) ∧
    (i ∉ [.fdct, .qemb false, .qemb true, .embed, .extract] → t.coef = s.coef)

/-! ### The host port -/

/-- 20_memory.md R70, R71, R73, R74: an access in the window is answered `OKAY` exactly when the core is out of reset and the access is
a mapped aligned word or a byte of `PIX`; a refused access changes nothing but the boundary. The default sizes and
`BASE = 0` (assumption 3). -/
def Obligations.OnlyLegalAccessesAreAnsweredOkay : Prop :=
  ∀ (s : State) (ts : List Turn) (op : PortOp) (off : Nat),
    s.port.turns = .port op :: ts → op.addr = Config.default.base + off → off < 0x2000000 →
    ∃ d, DataFits op d ∧
      (s.port.rst = false ∧ LegalAccess op off → ∃ t, step s = .next t ∧ t.port = (answered ts (.okay d) s).port) ∧
      (¬(s.port.rst = false ∧ LegalAccess op off) → step s = .next (answered ts (.error d) s))

/-- 20_memory.md R78, R79: a host read changes nothing but the boundary, idle or busy. -/
def Obligations.HostReadsHaveNoSideEffect : Prop :=
  ∀ (s : State) (ts : List Turn) (op : PortOp),
    s.port.turns = .port op :: ts → op.isWrite = false →
    ∃ t, step s = .next t ∧ t = { s with port := t.port } ∧ t.port.rst = s.port.rst ∧ t.port.turns = ts

/-- 20_memory.md R79: a host write to a mapped location of a busy core is dropped with `OKAY`, and sets `OVR`; reads of `ID`,
`CTRL`, `STATUS` and `CMD` are exact. -/
def Obligations.AccessWhileBusy : Prop :=
  ∀ (s : State) (ts : List Turn) (op : PortOp) (off : Nat),
    s.port.turns = .port op :: ts → s.port.rst = false → s.phase = .busy →
    op.addr = Config.default.base + off → LegalAccess op off →
    (op.isWrite = true →
      step s = .next (answered ts (.okay .none) { s with flags := { s.flags with ovr := true } })) ∧
    (∀ a, op = .read4 a →
      (off = 0x00 → step s = .next (answered ts (.okay (.word 0x574D4431)) s)) ∧
      (off = 0x04 → step s = .next (answered ts (.okay (.word s.ctrlWord)) s)) ∧
      (off = 0x08 → step s = .next (answered ts (.okay (.word s.status)) s)) ∧
      (off = 0x0C → step s = .next (answered ts (.okay (.word s.cmdl)) s)))

/-- 10_state.md R57, R21 to R30, R41, R42, R44: on an idle core, what a read of each register returns after a write of `v` to the same
offset: the low bits of `v` for a writable register, the register's value for a read-only one, 0 for a reserved
offset; and the write changes that register and nothing else (R27: not `ITVALID`), or nothing at all where it is
read-only or reserved. (`STATUS` and `CMD` have statements of their own.) -/
def Obligations.RegistersReadBackTheirWidth : Prop :=
  (∀ (s : State) (ts : List Turn) (off : Nat) (v e : Word),
    s.port.turns = .port (.write4 (Config.default.base + off) v) :: .port (.read4 (Config.default.base + off)) :: ts →
    s.port.rst = false → s.phase = .idle →
    (off = 0x00 ∧ e = 0x574D4431 ∨ off = 0x04 ∧ e = v &&& 3#32 ∨
      (off = 0x10 ∨ off = 0x14 ∨ off = 0x28 ∨ off = 0x2C) ∧ e = v &&& 0xFFFF#32 ∨
      (off = 0x18 ∨ off = 0x1C ∨ off = 0x20) ∧ e = v ∨
      off = 0x24 ∧ e = s.regs.outlen ∨ off = 0x30 ∧ e = s.regs.bitcur ∨ off = 0x34 ∧ e = s.regs.capacity ∨
      0x38 ≤ off ∧ off < 0x100 ∧ off % 4 = 0 ∧ e = 0) →
    ∃ t u, step s = .next t ∧ step t = .next u ∧ u.port.resp = some (.okay (.word e))) ∧
  ∀ (s t : State) (ts : List Turn) (off : Nat) (v : Word),
    s.port.turns = .port (.write4 (Config.default.base + off) v) :: ts → s.port.rst = false → s.phase = .idle →
    (off = 0x04 ∧ t = { s with ctrl := { ie := v.getLsbD 0, capmode := v.getLsbD 1 } } ∨
      off = 0x10 ∧ t = { s with regs := { s.regs with width := v.extractLsb' 0 16 } } ∨
      off = 0x14 ∧ t = { s with regs := { s.regs with height := v.extractLsb' 0 16 } } ∨
      off = 0x18 ∧ t = { s with regs := { s.regs with qstep := v } } ∨
      off = 0x1C ∧ t = { s with regs := { s.regs with textlen := v } } ∨
      off = 0x20 ∧ t = { s with regs := { s.regs with nbits := v } } ∨
      off = 0x28 ∧ t = { s with regs := { s.regs with iti := v.extractLsb' 0 16 } } ∨
      off = 0x2C ∧ t = { s with regs := { s.regs with itj := v.extractLsb' 0 16 } } ∨
      (off = 0x00 ∨ off = 0x24 ∨ off = 0x30 ∨ off = 0x34 ∨ 0x38 ≤ off ∧ off < 0x100 ∧ off % 4 = 0) ∧ t = s) →
    step s = .next (answered ts (.okay .none) t)

/-- 10_state.md R43, 60_exceptions.md R260: the layout of `STATUS`; and what the host reads of `STATUS` and `CMD` when the core is idle
(10_state.md R44, 20_memory.md R81). While it is busy: `AccessWhileBusy`. -/
def Obligations.StatusWordLayout : Prop :=
  (∀ s : State,
    (s.status.getLsbD 0 = true ↔ s.phase = .busy) ∧ s.status.getLsbD 1 = s.flags.done ∧
    s.status.getLsbD 2 = s.flags.found ∧ s.status.getLsbD 3 = s.flags.trunc ∧ s.status.getLsbD 4 = s.flags.ovr ∧
    s.status.getLsbD 5 = s.flags.bitout ∧ s.status.getLsbD 6 = s.flags.itvalid ∧ s.status.getLsbD 7 = false ∧
    (s.status.extractLsb' 8 8).toNat =
      (match s.flags.err with
       | none => 0 | some .illcmd => 1 | some .invimg => 2 | some .unenc => 3 | some .capacity => 4
       | some .badq => 5 | some .len => 6 | some .bounds => 7) ∧
    s.status.extractLsb' 16 16 = 0) ∧
  ∀ (s : State) (ts : List Turn), s.port.rst = false → s.phase = .idle →
    (s.port.turns = .port (.read4 (Config.default.base + 0x08)) :: ts →
      step s = .next (answered ts (.okay (.word s.status)) s)) ∧
    (s.port.turns = .port (.read4 (Config.default.base + 0x0C)) :: ts →
      step s = .next (answered ts (.okay (.word s.cmdl)) s))

/-- 10_state.md R43, 60_exceptions.md R272: a write to `STATUS` while idle clears `DONE` where bit 1 is 1 and `OVR` where bit 4 is 1, and
nothing else; `ERR` stays. -/
def Obligations.StatusWriteClearsDoneAndOvr : Prop :=
  ∀ (s : State) (ts : List Turn) (v : Word),
    s.port.turns = .port (.write4 (Config.default.base + 0x08) v) :: ts → s.port.rst = false → s.phase = .idle →
    step s = .next (answered ts (.okay .none)
      { s with
        flags := { s.flags with
          done := if v.getLsbD 1 then false else s.flags.done
          ovr := if v.getLsbD 4 then false else s.flags.ovr } })

/-- 10_state.md R47: a write of word `w` to index `8r + c` of `BLKW` or `COEFW` sets the cell to `sext(w)/65536` and no other cell; the
next read of it returns `w`; and a host read of a cell `x` of any content returns the floor of `x·65536`, saturated
(93_implementation_defined.md U22). -/
def Obligations.ProbeWindowsReadBack : Prop :=
  (∀ (s : State) (ts : List Turn) (r c : Fin 8) (w : Word) (inCoef : Bool) (off : Nat),
    off = (if inCoef then 0x200 else 0x100) + 4 * (8 * r.val + c.val) →
    s.port.turns = .port (.write4 (Config.default.base + off) w) :: .port (.read4 (Config.default.base + off)) :: ts →
    s.port.rst = false → s.phase = .idle →
    ∃ m u, step s = .next (answered (.port (.read4 (Config.default.base + off)) :: ts) (.okay .none)
        (if inCoef then { s with coef := m } else { s with blk := m })) ∧
      matAt m r c = (w.toInt : QNum) / 65536 ∧
      (∀ a b : Fin 8, ¬(a = r ∧ b = c) → matAt m a b = matAt (if inCoef then s.coef else s.blk) a b) ∧
      step (answered (.port (.read4 (Config.default.base + off)) :: ts) (.okay .none)
        (if inCoef then { s with coef := m } else { s with blk := m })) = .next u ∧
      u.port.resp = some (.okay (.word w))) ∧
  ∀ (s : State) (ts : List Turn) (r c : Fin 8) (inCoef : Bool),
    s.port.turns =
      .port (.read4 (Config.default.base + (if inCoef then 0x200 else 0x100) + 4 * (8 * r.val + c.val))) :: ts →
    s.port.rst = false → s.phase = .idle →
    ∃ w : Word, step s = .next (answered ts (.okay (.word w)) s) ∧
      w.toInt = max (-2147483648) (min 2147483647 ⌊matAt (if inCoef then s.coef else s.blk) r c * 65536⌋)

/-- 20_memory.md R72, R73: a word access to `PIX` is little-endian: a word write at an aligned byte `a` sets the four bytes, byte `a` from
bits 7:0, and no other byte, and a word read returns them; a byte write, aligned or not, sets that byte and no other,
and a byte read returns it. -/
def Obligations.PixWindowIsLittleEndian : Prop :=
  ∀ (s : State) (ts : List Turn) (a : Nat),
    s.port.rst = false → s.phase = .idle → a < Config.default.pixBytes →
    (∀ v : Word, a % 4 = 0 → s.port.turns = .port (.write4 (Config.default.base + 0x1000000 + a) v) :: ts →
      ∃ pix',
        let m := { s.mem with pix := pix' }
        step s = .next (answered ts (.okay .none) { s with mem := m }) ∧
        (∀ k < 4, m.pixByte Config.default (a + k) = v.extractLsb' (8 * k) 8) ∧
        ∀ x, ¬(a ≤ x ∧ x < a + 4) → m.pixByte Config.default x = s.mem.pixByte Config.default x) ∧
    (a % 4 = 0 → s.port.turns = .port (.read4 (Config.default.base + 0x1000000 + a)) :: ts →
      ∃ w : Word, step s = .next (answered ts (.okay (.word w)) s) ∧
        ∀ k < 4, w.extractLsb' (8 * k) 8 = s.mem.pixByte Config.default (a + k)) ∧
    (∀ v : Byte, s.port.turns = .port (.write1 (Config.default.base + 0x1000000 + a) v) :: ts →
      ∃ pix',
        let m := { s.mem with pix := pix' }
        step s = .next (answered ts (.okay .none) { s with mem := m }) ∧ m.pixByte Config.default a = v ∧
        ∀ x, x ≠ a → m.pixByte Config.default x = s.mem.pixByte Config.default x) ∧
    (s.port.turns = .port (.read1 (Config.default.base + 0x1000000 + a)) :: ts →
      step s = .next (answered ts (.okay (.byte (s.mem.pixByte Config.default a))) s))

/-- 20_memory.md R76: the word at index `k` of the `BITS` window holds `BITS[32k]` in bit 31 down to `BITS[32k + 31]` in bit 0; cells at and
above `MAXBITS` read 0 and ignore writes. -/
def Obligations.BitsWindowPacksFirstBitHigh : Prop :=
  ∀ (s : State) (ts : List Turn) (k : Nat) (v : Word),
    s.port.rst = false → s.phase = .idle → 32 * k < Config.default.maxbits →
    (s.port.turns = .port (.write4 (Config.default.base + 0x30000 + 4 * k) v) :: ts →
      ∃ bits',
        let m := { s.mem with bits := bits' }
        step s = .next (answered ts (.okay .none) { s with mem := m }) ∧
        (∀ t < 32, 32 * k + t < Config.default.maxbits →
          m.bit Config.default (32 * k + t) = v.getLsbD (31 - t)) ∧
        ∀ x, (¬(32 * k ≤ x ∧ x < 32 * k + 32) ∨ Config.default.maxbits ≤ x) →
          m.bit Config.default x = s.mem.bit Config.default x) ∧
    (s.port.turns = .port (.read4 (Config.default.base + 0x30000 + 4 * k)) :: ts →
      ∃ w : Word, step s = .next (answered ts (.okay (.word w)) s) ∧
        ∀ t < 32, w.getLsbD (31 - t) =
          if 32 * k + t < Config.default.maxbits then s.mem.bit Config.default (32 * k + t) else false)

/-- 10_state.md R49, R50: the host writes and reads `TXT`; it reads `OUT`, and its writes to `OUT` are ignored. -/
def Obligations.TextWindows : Prop :=
  ∀ (s : State) (ts : List Turn) (k : Nat) (v : Word),
    s.port.rst = false → s.phase = .idle →
    (k < Config.default.maxtext → s.port.turns = .port (.write4 (Config.default.base + 0x10000 + 4 * k) v) :: ts →
      ∃ txt',
        let m := { s.mem with txt := txt' }
        step s = .next (answered ts (.okay .none) { s with mem := m }) ∧ m.txtWord Config.default k = v ∧
        ∀ x, x ≠ k → m.txtWord Config.default x = s.mem.txtWord Config.default x) ∧
    (k < Config.default.maxtext → s.port.turns = .port (.read4 (Config.default.base + 0x10000 + 4 * k)) :: ts →
      step s = .next (answered ts (.okay (.word (s.mem.txtWord Config.default k))) s)) ∧
    (k < Config.default.maxout → s.port.turns = .port (.read4 (Config.default.base + 0x20000 + 4 * k)) :: ts →
      step s = .next (answered ts (.okay (.word (s.mem.outWord Config.default k))) s)) ∧
    (k < Config.default.maxout → s.port.turns = .port (.write4 (Config.default.base + 0x20000 + 4 * k) v) :: ts →
      step s = .next (answered ts (.okay .none) s))

/-- 60_exceptions.md R274: `irq` is `STATUS.DONE ∧ CTRL.IE`, read off the words the host reads; it is low after reset and while a
command runs, and high after every completion that finds it enabled. -/
def Obligations.InterruptFollowsDone : Prop :=
  (∀ s : State, s.irq = (s.status.getLsbD 1 && s.ctrlWord.getLsbD 0)) ∧ State.reset.irq = false ∧
    (∀ (s : State) (w : Word), (issued w s).irq = false) ∧
    ∀ (i : Instr) (s t : State), exec i s = .next t → t.irq = s.ctrl.ie

/-! ### Reset and the invariant -/

/-- 70_reset_and_hazards.md R291: the registers after reset. -/
def Obligations.StateAfterReset : Prop :=
  let s := State.reset
  s.phase = .idle ∧ s.ctrlWord = 0 ∧ s.ctrl.ie = false ∧ s.ctrl.capmode = false ∧ s.status = 0 ∧ readReg .cmd s = 0 ∧
    s.regs = { width := 0, height := 0, qstep := 0x00140000, textlen := 0, nbits := 0, outlen := 0, iti := 0,
               itj := 0, bitcur := 0, capacity := 0 } ∧
    s.strength ratOps = 20 ∧ readReg .id s = 0x574D4431 ∧ s.irq = false

/-- 70_reset_and_hazards.md R290, R292, 10_state.md R56: asserting `rst`, also while a command runs, puts every register at its
reset value and every cell at its `RESETMEM` value; while it is asserted the Engine does nothing; releasing it changes
nothing else. That every cell takes a fresh `RESETMEM` value at each reset, also of an idle core, is the model's reading
(assumption 4). -/
def Obligations.ResetInputResetsTheRegisters : Prop :=
  ∀ (s : State) (ts : List Turn),
    (s.port.turns = .rst true :: ts → s.port.rst = false →
      ∃ t, step s = .next t ∧ HeldInReset t ∧ t.port = { s.port with rst := true, turns := ts, resp := none } ∧
        (∀ r c : Fin 8, matAt t.blk r c = Config.default.resetMem.blk t.mem.epoch r c ∧
          matAt t.coef r c = Config.default.resetMem.coef t.mem.epoch r c) ∧
        (∀ k, t.mem.pixByte Config.default k = Config.default.resetMem.pix t.mem.epoch k ∧
          t.mem.txtWord Config.default k = Config.default.resetMem.txt t.mem.epoch k ∧
          t.mem.outWord Config.default k = Config.default.resetMem.out t.mem.epoch k ∧
          t.mem.bit Config.default k = Config.default.resetMem.bits t.mem.epoch k) ∧
        (∀ r c, t.mem.lumaAt Config.default r c = Config.default.resetMem.luma t.mem.epoch r c ∧
          t.mem.chr1At Config.default r c = Config.default.resetMem.chr1 t.mem.epoch r c ∧
          t.mem.chr2At Config.default r c = Config.default.resetMem.chr2 t.mem.epoch r c) ∧
        t.mem.epoch = s.mem.epoch + 1) ∧
    (s.port.rst = true → EngineNext s ts → step s = .next (taken ts s)) ∧
    (s.port.turns = .rst false :: ts →
      step s = .next { taken ts s with port := { s.port with rst := false, turns := ts, resp := none } })

/-- The invariant holds right after reset. -/
def Obligations.InvariantHoldsAtReset : Prop := State.Of.Inv Config.default State.reset

/-- Every step from every state with the invariant keeps it: the canonical form of the buffers, the clear flags of a
running command (10_state.md R31), the bounds of the read-only registers (00_scope.md R13), the meaning of `FOUND` and `TRUNC`
(10_state.md R35, R36), and the reset state of a core held in reset (70_reset_and_hazards.md R290). -/
def Obligations.StepKeepsTheInvariant : Prop :=
  ∀ s t : State, State.Of.Inv Config.default s → step s = .next t → State.Of.Inv Config.default t

/-- 00_scope.md R7, R13, 45_orchestrator.md R232 (i): for every `Num` and in every well-formed configuration no step writes a cell outside a buffer, and the
buffers keep their canonical form. -/
def Obligations.NoBufferOverflowsInAnyConfiguration : Prop :=
  ∀ (ν : Type) (cfg : Config ν) (s t : State.Of ν),
    cfg.wf = true → s.mem.wf cfg = true → stepFor cfg s = .next t → t.mem.wf cfg = true
end

