-- ==== Sys2Proof/Laws/Cells.lean ====
section
/-! SUPPORT. The laws of the sparse cells: a read after a write, and that every memory operation keeps the canonical
form. -/

namespace Sys2Proof.Machine

variable {α ν : Type}

/-! ### A read after a write -/

theorem Cells.get?_set (m : List (Nat × α)) (k k' : Nat) (v : α) :
    Cells.get? (Cells.set m k v) k' = if k' = k then some v else Cells.get? m k' := by
  induction m with
  | nil => rfl
  | cons e t ih =>
    obtain ⟨j, w⟩ := e
    simp only [Cells.set]
    split_ifs with h1 h2 h3 <;> simp only [Cells.get?, ih] <;> split_ifs <;> simp_all

@[simp] theorem Cells.get?_set_self (m : List (Nat × α)) (k : Nat) (v : α) :
    Cells.get? (Cells.set m k v) k = some v := by
  simp [Cells.get?_set]

theorem Cells.get?_set_ne (m : List (Nat × α)) {k k' : Nat} (v : α) (h : k' ≠ k) :
    Cells.get? (Cells.set m k v) k' = Cells.get? m k' := by
  simp [Cells.get?_set, h]

/-- Consecutive writes: the cells `b .. b + |vs| − 1` hold the values, every other cell is as before. -/
theorem Cells.get?_setSeq (m : List (Nat × α)) (b : Nat) (vs : List α) (k : Nat) :
    Cells.get? (Cells.setSeq m b vs) k =
      if h : b ≤ k ∧ k < b + vs.length then some (vs[k - b]'(by omega)) else Cells.get? m k := by
  induction vs generalizing m b with
  | nil => simp [Cells.setSeq]
  | cons v vs ih =>
    simp only [Cells.setSeq, ih, Cells.get?_set, List.length_cons]
    by_cases hk : k = b
    · subst hk; simp
    · by_cases h : b + 1 ≤ k ∧ k < b + 1 + vs.length
      · have h' : b ≤ k ∧ k < b + (vs.length + 1) := by omega
        have e : k - b = (k - (b + 1)) + 1 := by omega
        simp only [h, h', and_self, dite_true, e, List.getElem_cons_succ]
      · have h' : ¬(b ≤ k ∧ k < b + (vs.length + 1)) := by omega
        rw [dif_neg h, dif_neg h', if_neg hk]

/-- A cell that a list of writes does not name is as before. -/
theorem Cells.get?_setMany_of_not_mem (m kvs : List (Nat × α)) (k : Nat) (h : ∀ kv ∈ kvs, kv.1 ≠ k) :
    Cells.get? (Cells.setMany m kvs) k = Cells.get? m k := by
  induction kvs generalizing m with
  | nil => rfl
  | cons kv kvs ih =>
    have hne : k ≠ kv.1 := (h kv (by simp)).symm
    have := ih (Cells.set m kv.1 kv.2) fun x hx => h x (by simp [hx])
    simpa [Cells.setMany, Cells.get?_set, hne] using this

/-- A cell that a list of writes names once holds the value written. -/
theorem Cells.get?_setMany_of_mem (m kvs : List (Nat × α)) (k : Nat) (v : α) (hmem : (k, v) ∈ kvs)
    (hnd : (kvs.map Prod.fst).Nodup) : Cells.get? (Cells.setMany m kvs) k = some v := by
  induction kvs generalizing m with
  | nil => simp at hmem
  | cons kv kvs ih =>
    simp only [List.map_cons, List.nodup_cons] at hnd
    rcases List.mem_cons.mp hmem with rfl | hmem
    · have hne : ∀ x ∈ kvs, x.1 ≠ k := fun x hx e => hnd.1 (List.mem_map.mpr ⟨x, hx, e⟩)
      have := Cells.get?_setMany_of_not_mem (Cells.set m k v) kvs k hne
      simpa [Cells.setMany] using this
    · exact ih (Cells.set m kv.1 kv.2) hmem hnd.2

theorem Cells.get?_append (l l' : List (Nat × α)) (k : Nat) :
    Cells.get? (l ++ l') k = (Cells.get? l k).or (Cells.get? l' k) := by
  induction l with
  | nil => rfl
  | cons e t ih =>
    obtain ⟨j, v⟩ := e
    simp only [List.cons_append, Cells.get?, ih]
    split_ifs <;> rfl

/-- A list that holds the values of `f` below `n`. -/
theorem Cells.get?_map_range (f : Nat → α) (n k : Nat) :
    Cells.get? ((List.range n).map fun a => (a, f a)) k = if k < n then some (f k) else none := by
  induction n with
  | zero => rfl
  | succ n ih =>
    rw [List.range_succ, List.map_append, Cells.get?_append, ih]
    by_cases h : k < n
    · simp [h, Nat.lt_succ_of_lt h]
    · by_cases h' : k = n
      · subst h'; simp [Cells.get?]
      · have : ¬k < n + 1 := by omega
        simp [Cells.get?, h, h', this]

/-! ### The canonical form -/

theorem Cells.wf_set {size lo k : Nat} {m : List (Nat × α)} (v : α) (h : Cells.wf size lo m = true) (hlo : lo ≤ k)
    (hk : k < size) : Cells.wf size lo (Cells.set m k v) = true := by
  induction m generalizing lo with
  | nil => simp [Cells.set, Cells.wf, hlo, hk]
  | cons e t ih =>
    obtain ⟨j, w⟩ := e
    simp only [Cells.wf, Bool.and_eq_true, decide_eq_true_eq] at h
    simp only [Cells.set]
    split_ifs with h1 h2
    · simp only [Cells.wf, Bool.and_eq_true, decide_eq_true_eq]
      exact ⟨⟨hlo, hk⟩, ⟨by omega, h.1.2⟩, h.2⟩
    · subst h2
      simpa [Cells.wf] using ⟨⟨hlo, hk⟩, h.2⟩
    · simp only [Cells.wf, Bool.and_eq_true, decide_eq_true_eq]
      exact ⟨h.1, ih h.2 (by omega)⟩

theorem Cells.wf_setSeq {size b : Nat} {m : List (Nat × α)} (vs : List α) (h : Cells.wf size 0 m = true)
    (hb : b + vs.length ≤ size) : Cells.wf size 0 (Cells.setSeq m b vs) = true := by
  induction vs generalizing m b with
  | nil => exact h
  | cons v vs ih =>
    simp only [List.length_cons] at hb
    exact ih (Cells.wf_set v h (by omega) (by omega)) (by omega)

theorem Cells.wf_setMany {size : Nat} {m kvs : List (Nat × α)} (h : Cells.wf size 0 m = true)
    (hk : ∀ kv ∈ kvs, kv.1 < size) : Cells.wf size 0 (Cells.setMany m kvs) = true := by
  induction kvs generalizing m with
  | nil => exact h
  | cons kv kvs ih =>
    exact ih (Cells.wf_set kv.2 h (Nat.zero_le _) (hk kv (by simp))) fun x hx => hk x (by simp [hx])

/-- The canonical form, buffer by buffer. -/
theorem Memory.wf_iff (m : Memory ν) (cfg : Config ν) :
    m.wf cfg = true ↔
      Cells.wf cfg.pixBytes 0 m.pix = true ∧ Cells.wf cfg.maxtext 0 m.txt = true ∧
      Cells.wf cfg.maxout 0 m.out = true ∧ Cells.wf cfg.maxbits 0 m.bits = true ∧
      Cells.wf (cfg.maxw * cfg.maxh) 0 m.luma = true ∧ Cells.wf (cfg.maxw * cfg.maxh) 0 m.chr1 = true ∧
      Cells.wf (cfg.maxw * cfg.maxh) 0 m.chr2 = true := by
  simp [Memory.wf, Bool.and_eq_true, and_assoc]

theorem Memory.wf_unwritten (cfg : Config ν) (epoch : Nat) : (Memory.unwritten (ν := ν) epoch).wf cfg = true := by
  simp [Memory.wf_iff, Memory.unwritten, Cells.wf]

/-- The memory of the reset state has the canonical form. -/
theorem reset_memory_wf : State.reset.mem.wf Config.default = true := Memory.wf_unwritten Config.default 0

theorem wf_writePix {cfg : Config ν} {m : Memory ν} (a : Nat) (v : Byte) (h : m.wf cfg = true) :
    (writePix cfg a v m).wf cfg = true := by
  unfold writePix
  split_ifs with ha
  · rw [Memory.wf_iff] at h ⊢
    exact ⟨Cells.wf_set v h.1 (Nat.zero_le _) ha, h.2⟩
  · exact h

theorem wf_writeBitsWord {cfg : Config ν} {m : Memory ν} (k : Nat) (v : Word) (h : m.wf cfg = true) :
    (writeBitsWord cfg k v m).wf cfg = true := by
  rw [Memory.wf_iff] at h ⊢
  obtain ⟨h1, h2, h3, h4, h5⟩ := h
  refine ⟨h1, h2, h3, ?_, h5⟩
  by_cases hk : 32 * k < cfg.maxbits
  · exact Cells.wf_setSeq _ h4 (by simp; omega)
  · have e : min 32 (cfg.maxbits - 32 * k) = 0 := by omega
    simpa [writeBitsWord, e, Cells.setSeq] using h4

/-! ### Reads of the buffers after a write -/

@[simp] theorem pixByte_writePix (cfg : Config ν) (m : Memory ν) (a x : Nat) (v : Byte) (ha : a < cfg.pixBytes) :
    (writePix cfg a v m).pixByte cfg x = if x = a then v else m.pixByte cfg x := by
  simp only [writePix, ha, if_true, Memory.pixByte, Cells.get?_set]
  split_ifs <;> rfl

/-- Two cells of planes with the same key are the same cell. -/
theorem planeKey_inj {cfg : Config ν} {r c r' c' : Nat} (hc : c < cfg.maxw) (hc' : c' < cfg.maxw)
    (h : planeKey cfg r c = planeKey cfg r' c') : r = r' ∧ c = c' := by
  unfold planeKey at h
  have hpos : 0 < cfg.maxw := by omega
  have h1 := congrArg (· / cfg.maxw) h
  have h2 := congrArg (· % cfg.maxw) h
  simp only [Nat.mul_comm _ cfg.maxw, Nat.mul_add_div hpos, Nat.mul_add_mod, Nat.div_eq_of_lt hc,
    Nat.div_eq_of_lt hc', Nat.mod_eq_of_lt hc, Nat.mod_eq_of_lt hc', Nat.add_zero] at h1 h2
  exact ⟨h1, h2⟩

theorem mem_coords {h w r c : Nat} : (r, c) ∈ coords h w ↔ r < h ∧ c < w := by
  simp [coords]

end Sys2Proof.Machine
end

