-- ==== Sys2Proof/Laws/State.lean ====
section
/-! SUPPORT. What each named update of the state does to each field, once, so that no proof unfolds a record update. -/

namespace Sys2Proof.Machine

variable {ν : Type} (s : State.Of ν)

/-! ### `complete` -/

@[simp] theorem complete_regs : (complete s).regs = s.regs := rfl
@[simp] theorem complete_phase : (complete s).phase = .idle := rfl
@[simp] theorem complete_cmdl : (complete s).cmdl = s.cmdl := rfl
@[simp] theorem complete_flags : (complete s).flags = { s.flags with done := true, err := none } := rfl
@[simp] theorem complete_ctrl : (complete s).ctrl = s.ctrl := rfl
@[simp] theorem complete_blk : (complete s).blk = s.blk := rfl
@[simp] theorem complete_coef : (complete s).coef = s.coef := rfl
@[simp] theorem complete_mem : (complete s).mem = s.mem := rfl
@[simp] theorem complete_port : (complete s).port = s.port := rfl

/-! ### `raiseErr` -/

@[simp] theorem raiseErr_regs (e : Err) : (raiseErr e s).regs = s.regs := rfl
@[simp] theorem raiseErr_phase (e : Err) : (raiseErr e s).phase = .idle := rfl
@[simp] theorem raiseErr_cmdl (e : Err) : (raiseErr e s).cmdl = s.cmdl := rfl
@[simp] theorem raiseErr_flags (e : Err) : (raiseErr e s).flags = { s.flags with done := true, err := some e } := rfl
@[simp] theorem raiseErr_ctrl (e : Err) : (raiseErr e s).ctrl = s.ctrl := rfl
@[simp] theorem raiseErr_blk (e : Err) : (raiseErr e s).blk = s.blk := rfl
@[simp] theorem raiseErr_coef (e : Err) : (raiseErr e s).coef = s.coef := rfl
@[simp] theorem raiseErr_mem (e : Err) : (raiseErr e s).mem = s.mem := rfl
@[simp] theorem raiseErr_port (e : Err) : (raiseErr e s).port = s.port := rfl

/-! ### `issue` -/

@[simp] theorem issue_regs (w : Word) : (issue w s).regs = s.regs := rfl
@[simp] theorem issue_phase (w : Word) : (issue w s).phase = .busy := rfl
@[simp] theorem issue_cmdl (w : Word) : (issue w s).cmdl = w := rfl
@[simp] theorem issue_flags (w : Word) :
    (issue w s).flags = { s.flags with done := false, found := false, trunc := false, err := none } := rfl
@[simp] theorem issue_ctrl (w : Word) : (issue w s).ctrl = s.ctrl := rfl
@[simp] theorem issue_blk (w : Word) : (issue w s).blk = s.blk := rfl
@[simp] theorem issue_coef (w : Word) : (issue w s).coef = s.coef := rfl
@[simp] theorem issue_mem (w : Word) : (issue w s).mem = s.mem := rfl
@[simp] theorem issue_port (w : Word) : (issue w s).port = s.port := rfl

/-! ### `acknowledge` -/

@[simp] theorem acknowledge_regs (v : Word) : (acknowledge v s).regs = s.regs := rfl
@[simp] theorem acknowledge_phase (v : Word) : (acknowledge v s).phase = s.phase := rfl
@[simp] theorem acknowledge_cmdl (v : Word) : (acknowledge v s).cmdl = s.cmdl := rfl
@[simp] theorem acknowledge_flags (v : Word) :
    (acknowledge v s).flags = { s.flags with done := s.flags.done && !v.getLsbD 1, ovr := s.flags.ovr && !v.getLsbD 4 } := rfl
@[simp] theorem acknowledge_ctrl (v : Word) : (acknowledge v s).ctrl = s.ctrl := rfl
@[simp] theorem acknowledge_blk (v : Word) : (acknowledge v s).blk = s.blk := rfl
@[simp] theorem acknowledge_coef (v : Word) : (acknowledge v s).coef = s.coef := rfl
@[simp] theorem acknowledge_mem (v : Word) : (acknowledge v s).mem = s.mem := rfl
@[simp] theorem acknowledge_port (v : Word) : (acknowledge v s).port = s.port := rfl

/-! ### `takeTurn` -/

@[simp] theorem takeTurn_regs (ts : List Turn) : (takeTurn ts s).regs = s.regs := rfl
@[simp] theorem takeTurn_phase (ts : List Turn) : (takeTurn ts s).phase = s.phase := rfl
@[simp] theorem takeTurn_cmdl (ts : List Turn) : (takeTurn ts s).cmdl = s.cmdl := rfl
@[simp] theorem takeTurn_flags (ts : List Turn) : (takeTurn ts s).flags = s.flags := rfl
@[simp] theorem takeTurn_ctrl (ts : List Turn) : (takeTurn ts s).ctrl = s.ctrl := rfl
@[simp] theorem takeTurn_blk (ts : List Turn) : (takeTurn ts s).blk = s.blk := rfl
@[simp] theorem takeTurn_coef (ts : List Turn) : (takeTurn ts s).coef = s.coef := rfl
@[simp] theorem takeTurn_mem (ts : List Turn) : (takeTurn ts s).mem = s.mem := rfl
@[simp] theorem takeTurn_port (ts : List Turn) :
    (takeTurn ts s).port = { s.port with turns := ts, resp := none } := rfl

/-! ### `respond` -/

@[simp] theorem respond_regs (r : PortResp) : (respond r s).regs = s.regs := rfl
@[simp] theorem respond_phase (r : PortResp) : (respond r s).phase = s.phase := rfl
@[simp] theorem respond_cmdl (r : PortResp) : (respond r s).cmdl = s.cmdl := rfl
@[simp] theorem respond_flags (r : PortResp) : (respond r s).flags = s.flags := rfl
@[simp] theorem respond_ctrl (r : PortResp) : (respond r s).ctrl = s.ctrl := rfl
@[simp] theorem respond_blk (r : PortResp) : (respond r s).blk = s.blk := rfl
@[simp] theorem respond_coef (r : PortResp) : (respond r s).coef = s.coef := rfl
@[simp] theorem respond_mem (r : PortResp) : (respond r s).mem = s.mem := rfl
@[simp] theorem respond_port (r : PortResp) :
    (respond r s).port = { s.port with resp := some r, fresh := s.port.fresh + 1 } := rfl

/-! ### `writeBusy` -/

@[simp] theorem writeBusy_regs : (writeBusy s).regs = s.regs := rfl
@[simp] theorem writeBusy_phase : (writeBusy s).phase = s.phase := rfl
@[simp] theorem writeBusy_cmdl : (writeBusy s).cmdl = s.cmdl := rfl
@[simp] theorem writeBusy_flags : (writeBusy s).flags = { s.flags with ovr := true } := rfl
@[simp] theorem writeBusy_ctrl : (writeBusy s).ctrl = s.ctrl := rfl
@[simp] theorem writeBusy_blk : (writeBusy s).blk = s.blk := rfl
@[simp] theorem writeBusy_coef : (writeBusy s).coef = s.coef := rfl
@[simp] theorem writeBusy_mem : (writeBusy s).mem = s.mem := rfl
@[simp] theorem writeBusy_port : (writeBusy s).port = s.port := rfl

end Sys2Proof.Machine
end

