-- ==== Sys2Proof/Laws/Effects.lean ====
section
/-! SUPPORT. For each effect and each shared operation, once, everything it can do: provers cite these instead of unfolding
the definitions. -/

namespace Sys2Proof.Machine

variable {ν : Type}

/-! ### The two ways a command ends -/

@[simp] theorem finish_ok (s t : State.Of ν) : finish s (.ok t) = .next (complete t) := rfl

@[simp] theorem finish_error (s : State.Of ν) (e : Err) : finish s (.error e) = .next (raiseErr e s) := rfl

/-- A command ends in exactly one of two ways (00_scope.md R12). -/
theorem finish_cases (s : State.Of ν) (r : Effect ν) :
    (∃ t, r = .ok t ∧ finish s r = .next (complete t)) ∨ ∃ e, r = .error e ∧ finish s r = .next (raiseErr e s) := by
  cases r with
  | ok t => exact .inl ⟨t, rfl, rfl⟩
  | error e => exact .inr ⟨e, rfl, rfl⟩

@[simp] theorem check_bind {β : Type} (bad : Bool) (e : Err) (f : Unit → Except Err β) :
    (check bad e >>= f) = if bad then .error e else f () := by
  cases bad <;> rfl

@[simp] theorem effect_ok_bind {β γ : Type} (x : β) (f : β → Except Err γ) : ((Except.ok x : Except Err β) >>= f) = f x :=
  rfl

@[simp] theorem effect_error_bind {β γ : Type} (e : Err) (f : β → Except Err γ) :
    ((Except.error e : Except Err β) >>= f) = .error e := rfl

/-- A sequence of effects succeeds exactly when its parts do. -/
theorem effect_bind_eq_ok {β γ : Type} {x : Except Err β} {f : β → Except Err γ} {c : γ} :
    (x >>= f) = .ok c ↔ ∃ b, x = .ok b ∧ f b = .ok c := by
  cases x with
  | ok b => simp
  | error e => simp

/-- A sequence of effects fails exactly when its first part does, or its second after it. -/
theorem effect_bind_eq_error {β γ : Type} {x : Except Err β} {f : β → Except Err γ} {e : Err} :
    (x >>= f) = .error e ↔ x = .error e ∨ ∃ b, x = .ok b ∧ f b = .error e := by
  cases x with
  | ok b => simp
  | error e => simp

/-! ### The checks -/

theorem badImage_eq_false {cfg : Config ν} {s : State.Of ν} :
    s.badImage cfg = false ↔ 1 ≤ s.w ∧ s.w ≤ cfg.maxw ∧ 1 ≤ s.h ∧ s.h ≤ cfg.maxh := by
  simp [State.Of.badImage]
  omega

theorem badStrength_eq_false {s : State.Of ν} : s.badStrength = false ↔ s.regs.qstep ≠ 0 := by
  simp [State.Of.badStrength]

theorem badTextLen_eq_false {cfg : Config ν} {s : State.Of ν} : s.badTextLen cfg = false ↔ s.textLen ≤ cfg.maxtext := by
  simp [State.Of.badTextLen]

theorem badBitLen_eq_false {cfg : Config ν} {s : State.Of ν} : s.badBitLen cfg = false ↔ s.nBits ≤ cfg.maxbits := by
  simp [State.Of.badBitLen]

theorem badText_eq_false {cfg : Config ν} {s : State.Of ν} :
    s.badText cfg = false ↔ ∀ k < s.textLen, (s.mem.txtWord cfg k).toNat ≤ 255 := by
  simp [State.Of.badText]

theorem overCapacity_eq_false {s : State.Of ν} :
    s.overCapacity = false ↔ s.ctrl.capmode = true ∨ s.payloadBits ≤ s.blocks := by
  cases h : s.ctrl.capmode <;> simp [State.Of.overCapacity, h]

theorem badBlock_eq_false {cfg : Config ν} {s : State.Of ν} :
    s.badBlock cfg = false ↔ s.w ≤ cfg.maxw ∧ s.h ≤ cfg.maxh ∧ s.i + 8 ≤ s.h ∧ s.j + 8 ≤ s.w := by
  simp [State.Of.badBlock, and_assoc]

/-! ### The effects that can succeed or raise -/

theorem t2b_ok {cfg : Config ν} {s t : State.Of ν} :
    t2b cfg s = .ok t ↔
      s.badTextLen cfg = false ∧ s.badText cfg = false ∧
      t = { s with
        regs := { s.regs with nbits := BitVec.ofNat 32 s.payloadBits }
        mem := { s.mem with bits := Cells.setSeq s.mem.bits 0 (payload cfg s) } } := by
  unfold t2b
  cases s.badTextLen cfg <;> cases s.badText cfg <;> simp [eq_comm]

theorem b2t_ok {cfg : Config ν} {s t : State.Of ν} :
    b2t cfg s = .ok t ↔ s.badBitLen cfg = false ∧ t = writeOut cfg (bitsToGroup cfg s / 8) s := by
  unfold b2t
  cases s.badBitLen cfg <;> simp [eq_comm]

theorem cscf_ok {cfg : Config ν} {s t : State.Of ν} :
    cscf cfg s = .ok t ↔
      s.badImage cfg = false ∧
      t = { s with
        mem := { s.mem with
          luma := Cells.setMany s.mem.luma (planeCells cfg s fun r c => cfg.num.ofInt (pixelYCC cfg s r c).1.toNat)
          chr1 := Cells.setMany s.mem.chr1 (planeCells cfg s fun r c => (pixelYCC cfg s r c).2.1)
          chr2 := Cells.setMany s.mem.chr2 (planeCells cfg s fun r c => (pixelYCC cfg s r c).2.2) } } := by
  unfold cscf
  cases s.badImage cfg <;> simp [eq_comm]

theorem csci_ok {cfg : Config ν} {s t : State.Of ν} :
    csci cfg s = .ok t ↔
      s.badImage cfg = false ∧
      t = { s with mem := { s.mem with pix := Cells.setMany s.mem.pix (imageBytes cfg s) } } := by
  unfold csci
  cases s.badImage cfg <;> simp [eq_comm]

/-- `ITNEXT` moves one column, or to the next row, or exhausts, or finds the iterator exhausted. -/
theorem itnext_cases (s : State.Of ν) :
    (s.flags.itvalid = false ∧ itnext s = .ok s) ∨
    (s.flags.itvalid = true ∧ s.j + 16 < s.w ∧
      itnext s = .ok { s with regs := { s.regs with itj := BitVec.ofNat 16 (s.j + 8) } }) ∨
    (s.flags.itvalid = true ∧ ¬s.j + 16 < s.w ∧ s.i + 16 < s.h ∧
      itnext s = .ok { s with regs := { s.regs with itj := 0, iti := BitVec.ofNat 16 (s.i + 8) } }) ∨
    (s.flags.itvalid = true ∧ ¬s.j + 16 < s.w ∧ ¬s.i + 16 < s.h ∧
      itnext s = .ok { s with flags := { s.flags with itvalid := false } }) := by
  unfold itnext
  cases s.flags.itvalid
  · exact .inl ⟨rfl, rfl⟩
  · by_cases hj : s.j + 16 < s.w
    · exact .inr (.inl ⟨rfl, hj, by simp [hj]⟩)
    · by_cases hi : s.i + 16 < s.h
      · exact .inr (.inr (.inl ⟨rfl, hj, hi, by simp [hj, hi]⟩))
      · exact .inr (.inr (.inr ⟨rfl, hj, hi, by simp [hj, hi]⟩))

theorem cap_ok {cfg : Config ν} {s t : State.Of ν} :
    cap cfg s = .ok t ↔
      s.badImage cfg = false ∧ t = { s with regs := { s.regs with capacity := BitVec.ofNat 32 s.blocks } } := by
  unfold cap
  cases s.badImage cfg <;> simp [eq_comm]

theorem blkld_ok {cfg : Config ν} {s t : State.Of ν} :
    blkld cfg s = .ok t ↔
      s.badBlock cfg = false ∧
      t = { s with blk := matOf fun r c => s.mem.lumaAt cfg (s.i + r.val) (s.j + c.val) } := by
  unfold blkld
  cases s.badBlock cfg <;> simp [eq_comm]

theorem blkst_ok {cfg : Config ν} {s t : State.Of ν} :
    blkst cfg s = .ok t ↔
      s.badBlock cfg = false ∧
      t = { s with mem := { s.mem with luma := Cells.setMany s.mem.luma (blockCells cfg s) } } := by
  unfold blkst
  cases s.badBlock cfg <;> simp [eq_comm]

theorem qemb_ok {cfg : Config ν} {b : Bool} {s t : State.Of ν} :
    qemb cfg b s = .ok t ↔
      s.badStrength = false ∧
      t = { s with coef := matSet s.coef carrierIndex (requantize cfg.num b (s.strength cfg.num) s.carrier) } := by
  unfold qemb
  cases s.badStrength <;> simp [eq_comm]

theorem qext_ok {cfg : Config ν} {s t : State.Of ν} :
    qext cfg s = .ok t ↔
      s.badStrength = false ∧ t = { s with flags := { s.flags with bitout := classify cfg.num (s.strength cfg.num) s.carrier } } := by
  unfold qext
  cases s.badStrength <;> simp [eq_comm]

/-- One block embedded (45_orchestrator.md R233): the block read, transformed, its carrier requantised, transformed back
and stored. -/
theorem embedBlock_ok {cfg : Config ν} {b : Bool} {s t : State.Of ν} :
    embedBlock cfg b s = .ok t ↔
      s.badBlock cfg = false ∧ s.badStrength = false ∧
      ∃ x y z : Mat ν,
        x = (matOf fun r c => s.mem.lumaAt cfg (s.i + r.val) (s.j + c.val)) ∧
        y = matSet (forwardRows cfg (forwardColumns cfg x)) carrierIndex
          (requantize cfg.num b (s.strength cfg.num) (matAt (forwardRows cfg (forwardColumns cfg x)) 4 5)) ∧
        z = inverseRows cfg (inverseColumns cfg y) ∧
        t = { s with
          blk := z, coef := y
          mem := { s.mem with luma := Cells.setMany s.mem.luma (blockCells cfg { s with blk := z }) } } := by
  simp only [embedBlock, effect_bind_eq_ok, blkld_ok, qemb_ok, blkst_ok, fdct, idct, Except.ok.injEq,
    State.Of.badBlock, State.Of.badStrength, State.Of.strength, State.Of.carrier, blockCells]
  constructor
  · rintro ⟨s1, ⟨h1, e1⟩, s2, e2, s3, ⟨h2, e3⟩, s4, e4, h4, e5⟩
    subst e1 e2 e3 e4 e5
    exact ⟨h1, h2, _, _, _, rfl, rfl, rfl, rfl⟩
  · rintro ⟨h1, h2, x, y, z, ex, ey, ez, et⟩
    refine ⟨{ s with blk := x }, ⟨h1, by rw [ex]⟩, _, rfl, { s with blk := x, coef := y }, ⟨h2, by rw [ey]⟩,
      { s with blk := z, coef := y }, by rw [ez], h1, et⟩

/-- One block read (45_orchestrator.md R233). -/
theorem extractBlock_ok {cfg : Config ν} {s t : State.Of ν} :
    extractBlock cfg s = .ok t ↔
      s.badBlock cfg = false ∧ s.badStrength = false ∧
      ∃ x y : Mat ν,
        x = (matOf fun r c => s.mem.lumaAt cfg (s.i + r.val) (s.j + c.val)) ∧
        y = forwardRows cfg (forwardColumns cfg x) ∧
        t = { s with
          blk := x, coef := y
          flags := { s.flags with bitout := classify cfg.num (s.strength cfg.num) (matAt y 4 5) } } := by
  simp only [extractBlock, effect_bind_eq_ok, blkld_ok, qext_ok, fdct, Except.ok.injEq,
    State.Of.badBlock, State.Of.badStrength, State.Of.strength, State.Of.carrier]
  constructor
  · rintro ⟨s1, ⟨h1, e1⟩, s2, e2, h2, e3⟩
    subst e1 e2 e3
    exact ⟨h1, h2, _, _, rfl, rfl, rfl⟩
  · rintro ⟨h1, h2, x, y, ex, ey, et⟩
    exact ⟨{ s with blk := x }, ⟨h1, by rw [ex]⟩, { s with blk := x, coef := y }, by rw [ey], h2, et⟩

/-! ### Turns -/

theorem turnStep_port (cfg : Config ν) (run : Instr → State.Of ν → Host.Outcome (State.Of ν) Fault Refusal) {s : State.Of ν} {op : PortOp}
    {ts : List Turn} (h : s.port.turns = .port op :: ts) :
    turnStep cfg run s = .next (portAccess cfg op (takeTurn ts s)) := by
  simp [turnStep, h]

theorem turnStep_rst (cfg : Config ν) (run : Instr → State.Of ν → Host.Outcome (State.Of ν) Fault Refusal) {s : State.Of ν} {b : Bool}
    {ts : List Turn} (h : s.port.turns = .rst b :: ts) :
    turnStep cfg run s = .next (resetInput cfg b (takeTurn ts s)) := by
  simp [turnStep, h]

theorem turnStep_engine (cfg : Config ν) (run : Instr → State.Of ν → Host.Outcome (State.Of ν) Fault Refusal) {s : State.Of ν}
    {ts : List Turn} (h : s.port.turns = .engine :: ts) :
    turnStep cfg run s = engineTurn run (takeTurn ts s) := by
  simp [turnStep, h]

theorem turnStep_nil (cfg : Config ν) (run : Instr → State.Of ν → Host.Outcome (State.Of ν) Fault Refusal) {s : State.Of ν}
    (h : s.port.turns = []) : turnStep cfg run s = engineTurn run (takeTurn [] s) := by
  simp [turnStep, h]

/-- `exec` is the dispatch of every configuration at the default one (00_scope.md R6). -/
theorem exec_eq_execFor (i : Instr) (s : State) : exec i s = execFor Config.default i s := by
  cases i <;> rfl

/-- `step` is the step of every configuration at the default one. -/
theorem step_eq_stepFor (s : State) : step s = stepFor Config.default s := by
  have h : exec = execFor Config.default := funext fun i => funext fun s => exec_eq_execFor i s
  rw [step, stepFor, h]

theorem offset?_eq_some {cfg : Config ν} {a off : Nat} :
    cfg.offset? a = some off ↔ a = cfg.base + off ∧ off < 33554432 := by
  unfold Config.offset?
  split_ifs with h
  · simp; omega
  · simp; omega

end Sys2Proof.Machine
end

