-- ==== Sys2Proof/Laws/Mat.lean ====
section
/-! SUPPORT. The laws of the 8×8 register files and of the number helpers. -/

namespace Sys2Proof.Machine

variable {ν : Type}

@[simp] theorem matAt_matOf (f : Fin 8 → Fin 8 → ν) (r c : Fin 8) : matAt (matOf f) r c = f r c := by
  have hd : (8 * r.val + c.val) / 8 = r.val := by omega
  have hm : (8 * r.val + c.val) % 8 = c.val := by omega
  simp [matAt, matOf, cellIndex, hd, hm]

theorem cellIndex_inj {r c r' c' : Fin 8} (h : cellIndex r c = cellIndex r' c') : r = r' ∧ c = c' := by
  have := congrArg Fin.val h
  simp only [cellIndex] at this
  exact ⟨Fin.ext (by omega), Fin.ext (by omega)⟩

theorem matAt_matSet (m : Mat ν) (r c r' c' : Fin 8) (x : ν) :
    matAt (matSet m (cellIndex r c) x) r' c' = if r' = r ∧ c' = c then x else matAt m r' c' := by
  by_cases h : cellIndex r c = cellIndex r' c'
  · obtain ⟨rfl, rfl⟩ := cellIndex_inj h
    simp [matAt, matSet]
  · have hv : (cellIndex r c).val ≠ (cellIndex r' c').val := fun e => h (Fin.ext e)
    have hne : ¬(r' = r ∧ c' = c) := fun e => h (by rw [e.1, e.2])
    simp [matAt, matSet, hne, Vector.getElem_set_ne _ _ hv]

/-- Two matrices with the same cells are equal. -/
theorem mat_ext {m m' : Mat ν} (h : ∀ r c : Fin 8, matAt m r c = matAt m' r c) : m = m' := by
  apply Vector.ext
  intro k hk
  have := h ⟨k / 8, by omega⟩ ⟨k % 8, by omega⟩
  simp only [matAt, cellIndex] at this
  have e : 8 * (k / 8) + k % 8 = k := by omega
  simpa only [e] using this

/-! ### The exact rationals as the parameter `Num` -/

@[simp] theorem ratOps_add (x y : QNum) : ratOps.add x y = x + y := rfl
@[simp] theorem ratOps_sub (x y : QNum) : ratOps.sub x y = x - y := rfl
@[simp] theorem ratOps_mul (x y : QNum) : ratOps.mul x y = x * y := rfl
@[simp] theorem ratOps_div (x y : QNum) : ratOps.div x y = x / y := rfl
@[simp] theorem ratOps_lt (x y : QNum) : ratOps.lt x y = decide (x < y) := rfl
@[simp] theorem ratOps_floor (x : QNum) : ratOps.floor x = ⌊x⌋ := rfl
@[simp] theorem ratOps_ofInt (n : Int) : ratOps.ofInt n = (n : QNum) := rfl
@[simp] theorem default_num : Config.default.num = ratOps := rfl

/-- The basis of the default configuration, `ROM[k][n] / 2^30` (43_block_transform.md R191). -/
theorem default_c (k n : Fin 8) : Config.default.c k n = (basisRom[k][n] : QNum) / 2 ^ 30 := by
  simp only [Config.c, Config.default, ratOps_div, ratOps_ofInt]
  norm_num

theorem sum8_eq_sum (f : Fin 8 → QNum) : sum8 ratOps f = ∑ k, f k := by
  simp [sum8, Fin.sum_univ_eight]

/-- The forward transform is the double sum (43_block_transform.md R192), for any basis. -/
theorem matAt_forward {cfg : Config QNum} (h : cfg.num = ratOps) (x : Mat QNum) (u v : Fin 8) :
    matAt (forwardRows cfg (forwardColumns cfg x)) u v =
      ∑ c, cfg.c v c * ∑ r, cfg.c u r * matAt x r c := by
  simp [forwardRows, forwardColumns, h, sum8_eq_sum]

/-- The inverse transform is the double sum (43_block_transform.md R193), for any basis. -/
theorem matAt_inverse {cfg : Config QNum} (h : cfg.num = ratOps) (y : Mat QNum) (r c : Fin 8) :
    matAt (inverseRows cfg (inverseColumns cfg y)) r c =
      ∑ v, (∑ u, cfg.c u r * matAt y u v) * cfg.c v c := by
  simp [inverseRows, inverseColumns, h, sum8_eq_sum]

/-! ### Numbers -/

theorem sat8_toNat (v : Int) : ((sat8 v).toNat : Int) = max 0 (min 255 v) := by
  unfold sat8
  split_ifs with h1 h2
  · simp; omega
  · simp; omega
  · rw [BitVec.toNat_ofInt]
    omega

theorem sat32_toInt (v : Int) : (sat32 v).toInt = max (-2147483648) (min 2147483647 v) := by
  unfold sat32
  split_ifs with h1 h2
  · simp; omega
  · simp; omega
  · rw [BitVec.toInt_ofInt_eq_self (by decide) (by simp; omega) (by simp; omega)]
    omega

theorem absNum_eq_abs (x : QNum) : absNum ratOps x = |x| := by
  by_cases h : x < 0
  · simp [absNum, h, abs_of_neg]
  · simp [absNum, h, abs_of_nonneg (not_lt.mp h)]

theorem strength_eq (s : State) : s.strength ratOps = (s.regs.qstep.toNat : QNum) / 65536 := by
  simp [State.Of.strength]

theorem strength_pos {s : State} (h : s.badStrength = false) : 0 < s.strength ratOps := by
  have hne : s.regs.qstep ≠ 0 := by simpa [State.Of.badStrength] using h
  have hpos : 0 < s.regs.qstep.toNat := Nat.pos_of_ne_zero fun e => hne (BitVec.eq_of_toNat_eq (by simpa using e))
  rw [strength_eq]
  have : (0 : QNum) < s.regs.qstep.toNat := by exact_mod_cast hpos
  positivity

theorem remQ_eq (c q : QNum) : remQ ratOps c q = c - q * ⌊c / q⌋ := rfl

theorem centroid_eq (b : Bool) (q : QNum) : centroid ratOps b q = if b then 3 * q / 4 else q / 4 := by
  cases b <;> simp [centroid]

/-- The remainder lies in `[0, Q)` (44_quantizer.md R211): its lower bound. -/
theorem remQ_nonneg (c : QNum) {q : QNum} (hq : 0 < q) : 0 ≤ remQ ratOps c q := by
  have h : (⌊c / q⌋ : QNum) ≤ c / q := Int.floor_le _
  have := (le_div_iff₀ hq).mp h
  rw [remQ_eq]
  linarith

/-- The remainder lies in `[0, Q)` (44_quantizer.md R211): its upper bound. -/
theorem remQ_lt (c : QNum) {q : QNum} (hq : 0 < q) : remQ ratOps c q < q := by
  have h : c / q < ⌊c / q⌋ + 1 := Int.lt_floor_add_one _
  have := (div_lt_iff₀ hq).mp h
  rw [remQ_eq]
  linarith

theorem requantize_eq (b : Bool) (q c : QNum) :
    requantize ratOps b q c = q * ⌊c / q⌋ + if b then 3 * q / 4 else q / 4 := by
  simp only [requantize, ratOps_add, ratOps_sub, remQ_eq, centroid_eq]
  ring

/-- Requantising moves inside the bin: the floor of the quotient stays (44_quantizer.md R213). -/
theorem floor_requantize (b : Bool) (c : QNum) {q : QNum} (hq : 0 < q) :
    ⌊requantize ratOps b q c / q⌋ = ⌊c / q⌋ := by
  have e : requantize ratOps b q c / q = ⌊c / q⌋ + (if b then 3 / 4 else 1 / 4) := by
    rw [requantize_eq]
    cases b <;> simp <;> field_simp
  have hb : (0 : QNum) ≤ (if b then 3 / 4 else 1 / 4) ∧ (if b then 3 / 4 else 1 / 4 : QNum) < 1 := by
    cases b <;> norm_num
  rw [e, Int.floor_intCast_add, Int.floor_eq_zero_iff.mpr hb, add_zero]

end Sys2Proof.Machine
end

