-- ==== Sys2Proof/Laws/PerInstr.lean ====
section
/-! SUPPORT. The family `OpcodeRow`: the word of each command is covered by a row of the opcode table, and decodes as a
legal word. -/

namespace Sys2Proof.Laws

/-- The word of the command lies in the opcode table, and in one row of it only. -/
def OpcodeRow.Statement (i : Instr) : Prop :=
  (opcodeTable.filter fun row => row.covers (encode i)).length = 1

theorem OpcodeRow.nop : OpcodeRow.Statement .nop := rfl

theorem OpcodeRow.t2b : OpcodeRow.Statement .t2b := rfl

theorem OpcodeRow.b2t : OpcodeRow.Statement .b2t := rfl

theorem OpcodeRow.cscf : OpcodeRow.Statement .cscf := rfl

theorem OpcodeRow.csci : OpcodeRow.Statement .csci := rfl

theorem OpcodeRow.itrst : OpcodeRow.Statement .itrst := rfl

theorem OpcodeRow.itnext : OpcodeRow.Statement .itnext := rfl

theorem OpcodeRow.blkld : OpcodeRow.Statement .blkld := rfl

theorem OpcodeRow.blkst : OpcodeRow.Statement .blkst := rfl

theorem OpcodeRow.fdct : OpcodeRow.Statement .fdct := rfl

theorem OpcodeRow.idct : OpcodeRow.Statement .idct := rfl

theorem OpcodeRow.qemb (b : Bool) : OpcodeRow.Statement (.qemb b) := by cases b <;> rfl

theorem OpcodeRow.qext : OpcodeRow.Statement .qext := rfl

theorem OpcodeRow.cap : OpcodeRow.Statement .cap := rfl

theorem OpcodeRow.embed : OpcodeRow.Statement .embed := rfl

theorem OpcodeRow.extract : OpcodeRow.Statement .extract := rfl

end Sys2Proof.Laws
end

