-- ==== Sys2Proof/Tests/Slice0.lean ====
section
/-! SUPPORT. Small tests, with expected results from the spec's own encodings and examples, and for each statement with
hypotheses a state and operands that meet them. -/

open Sys2Proof Sys2Proof.Machine

namespace Sys2Proof.Tests

/-! ### Well-formedness: each check refuses a term -/

theorem test_default_config_is_wf : Config.default.wf = true := by decide

theorem test_qemb_is_wf : (Instr.qemb true).wf = true ∧ (Instr.qemb false).wf = true := by decide

theorem test_wf_refuses_no_width : Config.wf { Config.default with maxw := 0 } = false := by decide

theorem test_wf_refuses_wide : Config.wf { Config.default with maxw := 65536, maxh := 1 } = false := by decide

theorem test_wf_refuses_no_height : Config.wf { Config.default with maxh := 0 } = false := by decide

theorem test_wf_refuses_high : Config.wf { Config.default with maxw := 1, maxh := 65536 } = false := by decide

theorem test_wf_refuses_long_text : Config.wf { Config.default with maxtext := 16385 } = false := by decide

theorem test_wf_refuses_text_window : Config.wf { Config.default with maxtext := 20000 } = false := by decide

theorem test_wf_refuses_out_window : Config.wf { Config.default with maxtext := 16383 } = false := by decide

theorem test_wf_refuses_many_bits : Config.wf { Config.default with maxw := 8000, maxh := 8000 } = false := by decide

theorem test_wf_refuses_large_image : Config.wf { Config.default with maxw := 65535, maxh := 255 } = false := by decide

theorem test_wf_refuses_base : Config.wf { Config.default with base := 4 } = false := by decide

/-! ### Decoding: words written out from 30_encoding.md R101, R102, R104 -/

theorem test_decode_nop : decode 0b00000000000000000000000000000000#32 = .ok .nop := by decide

theorem test_decode_t2b : decode 0b00000000000000000000000000000001#32 = .ok .t2b := by decide

theorem test_decode_b2t : decode 0b00000000000000000000000000000010#32 = .ok .b2t := by decide

theorem test_decode_cscf : decode 0b00000000000000000000000000000011#32 = .ok .cscf := by decide

theorem test_decode_csci : decode 0b00000000000000000000000000000100#32 = .ok .csci := by decide

theorem test_decode_itrst : decode 0b00000000000000000000000000000101#32 = .ok .itrst := by decide

theorem test_decode_itnext : decode 0b00000000000000000000000000000110#32 = .ok .itnext := by decide

theorem test_decode_blkld : decode 0b00000000000000000000000000000111#32 = .ok .blkld := by decide

theorem test_decode_blkst : decode 0b00000000000000000000000000001000#32 = .ok .blkst := by decide

theorem test_decode_fdct : decode 0b00000000000000000000000000001001#32 = .ok .fdct := by decide

theorem test_decode_idct : decode 0b00000000000000000000000000001010#32 = .ok .idct := by decide

theorem test_decode_qemb_0 : decode 0b00000000000000000000000000001011#32 = .ok (.qemb false) := by decide

theorem test_decode_qemb_1 : decode 0b00000000000000000000000100001011#32 = .ok (.qemb true) := by decide

theorem test_decode_qext : decode 0b00000000000000000000000000001100#32 = .ok .qext := by decide

theorem test_decode_cap : decode 0b00000000000000000000000000001101#32 = .ok .cap := by decide

theorem test_decode_embed : decode 0b00000000000000000000000000010000#32 = .ok .embed := by decide

theorem test_decode_extract : decode 0b00000000000000000000000000010001#32 = .ok .extract := by decide

/-- 95_test_vectors.md 2.2. -/
theorem test_decode_illegal :
    decode 0x0000020B = .error .nonzeroB ∧ decode 0x0000010C = .error .nonzeroN ∧
      decode 0x00000100 = .error .nonzeroN ∧ decode 0x0000000E = .error .reservedOpcode ∧
      decode 0x0000000F = .error .reservedOpcode ∧ decode 0x00000012 = .error .reservedOpcode ∧
      decode 0x80000010 = .error .nonzeroN := by decide

theorem test_table_word : decodeTableWord 32 0x10B = some (.qemb true) ∧ decodeTableWord 32 0x20B = none := by decide

/-! ### Small states -/

/-- The next state, or the reset state where there is none. -/
def after : Host.Outcome State Fault Refusal → State
  | .next t => t
  | .fault _ => State.reset
  | .refused _ => State.reset

/-- Just after reset, with an image size. -/
def sized (w h : Half) : State := { State.reset with regs := { State.reset.regs with width := w, height := h } }

/-- A text in `TXT`. -/
def withText (ks : List Word) (s : State) : State :=
  { s with
    regs := { s.regs with textlen := BitVec.ofNat 32 ks.length }
    mem := { s.mem with txt := Cells.setSeq [] 0 ks } }

/-- Bits in `BITS`. -/
def withBits (bs : List Bool) (s : State) : State :=
  { s with
    regs := { s.regs with nbits := BitVec.ofNat 32 bs.length }
    mem := { s.mem with bits := Cells.setSeq [] 0 bs } }

/-- An image of one colour, `n` pixels. -/
def filled (p : Byte × Byte × Byte) (n : Nat) (s : State) : State :=
  { s with
    mem := { s.mem with
      pix := (List.range (3 * n)).map fun a => (a, if a % 3 = 0 then p.1 else if a % 3 = 1 then p.2.1 else p.2.2) } }

/-- A strength. -/
def withQ (q : Word) (s : State) : State := { s with regs := { s.regs with qstep := q } }

/-- A position of the iterator. -/
def posAt (i j : Half) (s : State) : State :=
  { s with regs := { s.regs with iti := i, itj := j }, flags := { s.flags with itvalid := true } }

/-- A carrier coefficient. -/
def withCarrier (x : QNum) (s : State) : State := { s with coef := matSet s.coef carrierIndex x }

/-- Legacy capacity policy. -/
def legacy (s : State) : State := { s with ctrl := { s.ctrl with capmode := true } }

/-- Turns to come. -/
def withTurns (ts : List Turn) (s : State) : State := { s with port := { s.port with turns := ts } }

/-! ### Commands -/

/-- 45_orchestrator.md R230: `STATUS = 0x02 | (STATUS & 0x70)`. -/
theorem test_nop : (after (step (State.reset.withFetchWord 32 0))).status = 0x02 := by decide

/-- 95_test_vectors.md 2.4, first row: "Hi". -/
theorem test_t2b_hi :
    readBitsWord Config.default (after (exec .t2b (withText [0x48, 0x69] State.reset))).mem 0 = 0x4869FF00 := by
  decide +kernel

/-- 95_test_vectors.md 2.4: an unencodable character in second place. -/
theorem test_t2b_unencodable :
    (after (exec .t2b (withText [0x41, 0x20AC] State.reset))).flags.err = some .unenc := by decide

/-- 95_test_vectors.md 2.4: eleven bits give one character. -/
theorem test_b2t_drops_incomplete_group :
    let t := after (exec .b2t (withBits [false, true, false, false, false, false, false, true, false, true, false]
      State.reset))
    t.regs.outlen = 1 ∧ t.mem.outWord Config.default 0 = 0x41 := by decide +kernel

/-- 95_test_vectors.md 2.4: two delimiters in a row, one of them removed. -/
theorem test_b2t_removes_one_delimiter :
    let t := after (exec .b2t (withBits (delimiter ++ delimiter) State.reset))
    t.regs.outlen = 2 ∧ t.mem.outWord Config.default 0 = 0xFF ∧ t.mem.outWord Config.default 1 = 0 := by
  decide +kernel

/-- 41_channel_adapter.md R153, example. -/
theorem test_cscf :
    let t := after (exec .cscf (filled (200, 100, 50) 1 (sized 1 1)))
    t.mem.lumaAt Config.default 0 0 = 124 ∧ t.mem.chr1At Config.default 0 0 = 182 ∧
      t.mem.chr2At Config.default 0 0 = 86 := by decide +kernel

/-- 41_channel_adapter.md R154, example: luma 129.47 and grey chroma. -/
theorem test_csci :
    let m := { State.reset.mem with luma := [(0, 12947 / 100)], chr1 := [(0, 128)], chr2 := [(0, 128)] }
    pixel (after (exec .csci { sized 1 1 with mem := m })) 0 0 = (129, 129, 129) := by decide +kernel

/-- 42_block_iterator.md R172: `HEIGHT = 8` yields nothing. -/
theorem test_itrst :
    (after (exec .itrst (sized 64 64))).flags.itvalid = true ∧ (after (exec .itrst (sized 64 8))).flags.itvalid = false := by
  decide

/-- 42_block_iterator.md R173, example: from (0, 24) to (8, 0). -/
theorem test_itnext_next_row :
    let t := after (exec .itnext (posAt 0 24 (sized 40 24)))
    t.regs.iti = 8 ∧ t.regs.itj = 0 ∧ t.flags.itvalid = true := by decide

/-- 42_block_iterator.md R173, example: (8, 24) is the last. -/
theorem test_itnext_exhausts :
    let t := after (exec .itnext (posAt 8 24 (sized 40 24)))
    t.regs.iti = 8 ∧ t.regs.itj = 24 ∧ t.flags.itvalid = false := by decide

/-- 95_test_vectors.md 2.6. -/
theorem test_cap :
    (after (exec .cap (sized 64 64))).regs.capacity = 49 ∧ (after (exec .cap (sized 15 15))).regs.capacity = 1 := by
  decide

/-- 95_test_vectors.md 2.6: (57, 0) is out of bounds, (56, 56) is not. -/
theorem test_blkld_bounds :
    (after (exec .blkld (posAt 57 0 (sized 64 64)))).flags.err = some .bounds ∧
      (after (exec .blkld (posAt 56 56 (sized 64 64)))).flags.err = none := by decide

/-- 42_block_iterator.md R176: cell [1][2] goes to row `IT_I + 1`, column `IT_J + 2`. -/
theorem test_blkst :
    let s := { posAt 3 5 (sized 64 64) with blk := matOf fun r c => if r = 1 ∧ c = 2 then 129 / 2 else 0 }
    (after (exec .blkst s)).mem.lumaAt Config.default 4 7 = 129 / 2 := by decide +kernel

/-- 95_test_vectors.md 2.7 (a). -/
theorem test_fdct_constant :
    probeRead ratOps (matAt (after (exec .fdct { State.reset with blk := matOf fun _ _ => 128 })).coef 0 0) = 0x03FFFFFF := by
  decide +kernel

/-- 95_test_vectors.md 2.7 (c): the impulse, row 4 column 5. -/
theorem test_fdct_impulse :
    probeRead ratOps (matAt (after (exec .fdct
      { State.reset with blk := matOf fun r c => if r = 0 ∧ c = 0 then 255 else 0 })).coef 4 5) = 0x00190B45 := by
  decide +kernel

/-- 95_test_vectors.md 2.9: carrier 5, cell [0][0] reads 0x00807DB6 over a block of 128. -/
theorem test_idct :
    let f := forwardRows Config.default (forwardColumns Config.default (matOf fun _ _ => 128))
    probeRead ratOps (matAt (after (exec .idct { State.reset with coef := matSet f carrierIndex 5 })).blk 0 0) = 0x00807DB6 := by
  decide +kernel

/-- 95_test_vectors.md 2.8: `c = −3.25`, bit 0. -/
theorem test_qemb_negative :
    (after (exec (.qemb false) (withCarrier (-13 / 4) State.reset))).carrier = -15 := by decide +kernel

/-- 95_test_vectors.md 2.8: `c = 19.9`, bit 0: the bin's own centroid, not the nearest. -/
theorem test_qemb_own_bin :
    (after (exec (.qemb false) (withCarrier (199 / 10) State.reset))).carrier = 5 := by decide +kernel

/-- 95_test_vectors.md 2.8: the tie at 10 reads 0. -/
theorem test_qext_tie : (after (exec .qext (withCarrier 10 State.reset))).flags.bitout = false := by decide +kernel

/-- 95_test_vectors.md 2.8: `c = −3.2` reads 1. -/
theorem test_qext_negative : (after (exec .qext (withCarrier (-16 / 5) State.reset))).flags.bitout = true := by
  decide +kernel

/-- 95_test_vectors.md P3: a 16×16 image, strict policy. -/
theorem test_embed_capacity : (after (exec .embed (sized 16 16))).flags.err = some .capacity := by decide

/-- 95_test_vectors.md P7: the second pixel of the watermarked image. -/
theorem test_embed_colour :
    pixel (after (exec .embed (legacy (filled (200, 100, 50) 81 (sized 9 9))))) 0 1 = (197, 97, 47) := by
  decide +kernel

/-- 42_block_iterator.md C1, 95_test_vectors.md S4: one block is read and nothing is found. -/
theorem test_extract_not_found :
    let t := after (exec .extract (filled (128, 128, 128) 81 (sized 9 9)))
    t.flags.found = false ∧ t.regs.nbits = 1 ∧ t.regs.bitcur = 1 ∧ t.flags.itvalid = false := by decide +kernel

/-! ### The host port, 95_test_vectors.md 2.3 -/

/-- The response of the next step. -/
def answer (op : PortOp) (s : State) : Option PortResp := (after (step (withTurns [.port op] s))).port.resp

theorem test_read_id : answer (.read4 0) State.reset = some (.okay (.word 0x574D4431)) := by decide

theorem test_reserved_register_reads_zero : answer (.read4 0x40) State.reset = some (.okay (.word 0)) := by decide

theorem test_unmapped_word_is_an_error : ∃ d, answer (.read4 0x300) State.reset = some (.error d) := ⟨_, rfl⟩

theorem test_width_keeps_sixteen_bits :
    (after (step (withTurns [.port (.write4 0x10 0x12345678)] State.reset))).regs.width = 0x5678 := by decide

theorem test_pix_word_is_little_endian :
    answer (.read4 0x1000000)
      { State.reset with mem := { State.reset.mem with pix := [(0, 0xAA), (1, 0xBB), (2, 0xCC), (3, 0xDD)] } }
      = some (.okay (.word 0xDDCCBBAA)) := by decide

theorem test_bits_word :
    (after (step (withTurns [.port (.write4 0x30000 0x4869FF00)] State.reset))).mem.bits.map Prod.snd
      = [0, 1, 0, 0, 1, 0, 0, 0, 0, 1, 1, 0, 1, 0, 0, 1, 1, 1, 1, 1, 1, 1, 1, 1, 0, 0, 0, 0, 0, 0, 0, 0].map
          (fun n : Nat => n == 1) := by decide

theorem test_probe_write :
    matAt (after (step (withTurns [.port (.write4 0x100 0xFFFCC000)] State.reset))).blk 0 0 = -13 / 4 := by
  decide +kernel

theorem test_write_while_busy_sets_ovr :
    let t := after (step (withTurns [.port (.write4 0x10 64)] (issue 0 State.reset)))
    t.flags.ovr = true ∧ t.regs.width = 0 ∧ t.port.resp = some (.okay .none) := by decide

theorem test_illegal_word_completes :
    let t := after (step (State.reset.withFetchWord 32 0x20B))
    t.status = 0x00000102 ∧ t.cmdl = 0x20B := by decide

/-- 95_test_vectors.md 2.1, a tie and a clamp. -/
theorem test_tou8 : tou8 ratOps (255 / 2) = 128 ∧ tou8 ratOps (-1 / 2) = 0 ∧ tou8 ratOps (2544999 / 10000) = 254 ∧ tou8 ratOps 300 = 255 := by
  decide +kernel

/-- 95_test_vectors.md 2.5. -/
theorem test_colour :
    toYCCBt601 255 255 0 = (226, 149, 1) ∧ fromYCCBt601 226 149 1 = (255, 255, 1) ∧
      fromYCCBt601 255 0 0 = (75, 255, 28) := by decide

/-! ### Other configurations: `Num`, `F` and `BASIS` are arguments (00_scope.md R6) -/

/-- Another `Num`: the integers, with division rounding down. -/
def intOps : NumOps Int where
  add x y := x + y
  sub x y := x - y
  mul x y := x * y
  div x y := x / y
  lt x y := decide (x < y)
  floor x := x
  ofInt x := x

/-- 44_quantizer.md R211, example `rem(−45) = 15`, and R213, examples `−55` and `−45`, which are integers throughout. -/
theorem test_quantizer_over_integers :
    remQ intOps (-45) 20 = 15 ∧ requantize intOps false 20 (-45) = -55 ∧ requantize intOps true 20 (-45) = -45 := by
  decide

/-- 43_block_transform.md R191: `C[k][n] = ROM[k][n] / 2^F`, at another `F`, and another `BASIS`. -/
theorem test_basis_is_an_argument :
    Config.c { Config.default with f := 2, basis := .rom fun _ _ => 3 } 0 0 = 3 / 4 ∧
      Config.c { Config.default with basis := .matrix fun _ _ => 1 / 2 } 4 5 = 1 / 2 := by decide +kernel

/-- 10_state.md R47, 93_implementation_defined.md U22: a probe read rounds down and saturates at both ends. -/
theorem test_probe_read :
    answer (.read4 0x294) (withCarrier (-1 / 131072) State.reset) = some (.okay (.word 0xFFFFFFFF)) ∧
      answer (.read4 0x294) (withCarrier 40000 State.reset) = some (.okay (.word 0x7FFFFFFF)) ∧
      answer (.read4 0x294) (withCarrier (-40000) State.reset) = some (.okay (.word 0x80000000)) := by decide +kernel

/-! ### Witnesses: for each statement with hypotheses, a state and operands that meet them -/

theorem witness_StepRunsTheDecodedCommand :
    ∃ s ts i, EngineNext s ts ∧ s.port.rst = false ∧ s.phase = .busy ∧ decode s.cmdl = .ok i :=
  ⟨State.reset.withFetchWord 32 0x10B, [], .qemb true, .inl rfl, rfl, rfl, by decide⟩

theorem witness_StepRunsTheDecodedCommand_no_turns :
    ∃ s ts i, EngineNext s ts ∧ s.port.turns = [] ∧ s.port.rst = false ∧ s.phase = .busy ∧ decode s.cmdl = .ok i :=
  ⟨issue 0x11 State.reset, [], .extract, .inr ⟨rfl, rfl⟩, rfl, rfl, rfl, by decide⟩

theorem witness_IllegalWordCompletesWithIllcmd :
    ∃ s ts, EngineNext s ts ∧ s.port.rst = false ∧ s.phase = .busy ∧ ∀ i : Instr, encode i ≠ s.cmdl := by
  refine ⟨issue 0x0E State.reset, [], .inr ⟨rfl, rfl⟩, rfl, rfl, fun i => ?_⟩
  cases i with
  | qemb b => cases b <;> decide
  | _ => decide

theorem witness_StepRunsTheDecodedCommand_idle : ∃ s ts, EngineNext s ts ∧ s.phase = .idle :=
  ⟨State.reset, [], .inr ⟨rfl, rfl⟩, rfl⟩

theorem witness_HostWriteToCmdIssues :
    ∃ (s : State) (ts : List Turn) (w : Word),
      s.port.turns = .port (.write4 (Config.default.base + 0x0C) w) :: ts ∧ s.port.rst = false ∧ s.phase = .idle :=
  ⟨withTurns [.port (.write4 0x0C 0x10)] State.reset, [], 0x10, rfl, rfl, rfl⟩

theorem witness_IssuedCommandCompletes :
    ∃ s : State, s.phase = .busy ∧ s.port.rst = false ∧ ∀ b, Turn.rst b ∉ s.port.turns :=
  ⟨withTurns [.port (.read4 8), .port (.read4 8)] (issue 0x10 State.reset), rfl, rfl,
    fun b => by cases b <;> decide⟩

theorem witness_T2b_too_long : ∃ s : State, s.textLen > Config.default.maxtext :=
  ⟨{ State.reset with regs := { State.reset.regs with textlen := 2049 } }, by decide⟩

theorem witness_T2b_unencodable :
    ∃ s : State, s.textLen ≤ Config.default.maxtext ∧
      ∃ k < s.textLen, (s.mem.txtWord Config.default k).toNat > 255 :=
  ⟨withText [0x41, 0x100] State.reset, by decide, 1, by decide, by decide⟩

theorem witness_T2b_encodable : ∃ s, EncodableText s ∧ 1 ≤ s.textLen :=
  ⟨withText [0xFF] State.reset, ⟨by decide, by decide⟩, by decide⟩

theorem witness_B2t_too_long : ∃ s : State, s.nBits > Config.default.maxbits :=
  ⟨{ State.reset with regs := { State.reset.regs with nbits := 16401 } }, by decide⟩

theorem witness_B2t_delimiter :
    ∃ (s : State) (n : Nat), s.nBits ≤ Config.default.maxbits ∧
      EndsDelim (s.mem.bit Config.default) s.nBits ∧ n = s.nBits - 16 :=
  ⟨withBits delimiter State.reset, 0, by decide, ⟨by decide, by decide, by decide⟩, by decide⟩

theorem witness_B2t_no_delimiter :
    ∃ (s : State) (n : Nat), s.nBits ≤ Config.default.maxbits ∧
      ¬EndsDelim (s.mem.bit Config.default) s.nBits ∧ n = s.nBits :=
  ⟨withBits (delimiter.take 15) State.reset, 15, by decide, fun h => absurd h.1 (by decide), by decide⟩

theorem witness_CodecRoundTrip : ∃ s, EncodableText s ∧ s.textLen = 2 :=
  ⟨withText [0xFF, 0x00] State.reset, ⟨by decide, by decide⟩, by decide⟩

theorem witness_ValidImage_smallest : ∃ s, ValidImage s := ⟨sized 1 1, by decide, by decide, by decide, by decide⟩

theorem witness_ValidImage_largest : ∃ s, ValidImage s :=
  ⟨sized 1024 1024, by decide, by decide, by decide, by decide⟩

theorem witness_invalid_image : ∃ s, ¬ValidImage s := ⟨sized 1025 1, fun h => absurd h.2.1 (by decide)⟩

theorem witness_pixel_and_unvisited_cell :
    ∃ s : State, ValidImage s ∧ (∃ r c, r < s.h ∧ c < s.w) ∧ ∃ r c, c < Config.default.maxw ∧ ¬(r < s.h ∧ c < s.w) :=
  ⟨sized 9 9, ⟨by decide, by decide, by decide, by decide⟩, ⟨8, 8, by decide, by decide⟩,
    9, 9, by decide, by decide⟩

theorem witness_Itnext_invalid : ∃ s : State, s.flags.itvalid = false := ⟨State.reset, rfl⟩

theorem witness_Itnext_column : ∃ s : State, s.flags.itvalid = true ∧ s.j + 16 < s.w :=
  ⟨posAt 0 0 (sized 17 9), rfl, by decide⟩

theorem witness_Itnext_row : ∃ s : State, s.flags.itvalid = true ∧ ¬s.j + 16 < s.w ∧ s.i + 16 < s.h :=
  ⟨posAt 0 0 (sized 16 17), rfl, by decide, by decide⟩

theorem witness_Itnext_last : ∃ s : State, s.flags.itvalid = true ∧ ¬s.j + 16 < s.w ∧ ¬s.i + 16 < s.h :=
  ⟨posAt 0xFFFF 0xFFFF (sized 0xFFFF 0xFFFF), rfl, by decide, by decide⟩

theorem witness_IteratorVisitsBlocksInRowMajorOrder : ∃ (s : State) (k : Nat), 1 ≤ s.blocks ∧ k ≤ s.blocks ∧ k = 8 :=
  ⟨sized 40 24, 8, by decide, by decide, rfl⟩

theorem witness_YieldedBlocksLieInsideTheImage : ∃ h w k, k < nb h * nb w := ⟨9, 9, 0, by decide⟩

theorem witness_BlockInside : ∃ s, BlockInside s := ⟨posAt 56 56 (sized 64 64), by decide, by decide, by decide, by decide⟩

theorem witness_block_outside : ∃ s, ¬BlockInside s := ⟨posAt 57 0 (sized 64 64), fun h => absurd h.2.2.1 (by decide)⟩

theorem witness_Blkst_other_cell :
    ∃ (s : State) (r c : Nat), BlockInside s ∧ c < Config.default.maxw ∧
      ¬(s.i ≤ r ∧ r < s.i + 8 ∧ s.j ≤ c ∧ c < s.j + 8) :=
  ⟨posAt 3 5 (sized 64 64), 3, 13, ⟨by decide, by decide, by decide, by decide⟩, by decide, by decide⟩

theorem witness_TransformRoundTripIsWithinTolerance :
    ∃ s : State, (∀ r c : Fin 8, 0 ≤ matAt s.blk r c ∧ matAt s.blk r c ≤ 255) ∧
      ∃ n : Nat, matAt s.blk 0 0 = n :=
  ⟨{ State.reset with blk := matOf fun _ _ => 255 }, fun r c => by rw [matAt_matOf]; norm_num, 255,
    by rw [matAt_matOf]; norm_num⟩

theorem witness_RemainderLiesInTheBin : ∃ c q : QNum, 0 < q ∧ c = -45 ∧ ∃ m : Int, q * m ≤ c :=
  ⟨-45, 20, by norm_num, rfl, -3, by norm_num⟩

theorem witness_positive_strength : ∃ s : State, s.regs.qstep ≠ 0 := ⟨withQ 1 State.reset, by decide⟩

theorem witness_zero_strength : ∃ s : State, s.regs.qstep = 0 := ⟨withQ 0 State.reset, rfl⟩

theorem witness_Composite_badq : ∃ s, ValidImage s ∧ s.regs.qstep = 0 :=
  ⟨withQ 0 (sized 9 9), ⟨by decide, by decide, by decide, by decide⟩, rfl⟩

theorem witness_Composite_len : ∃ s, ValidImage s ∧ s.regs.qstep ≠ 0 ∧ s.textLen > Config.default.maxtext :=
  ⟨{ sized 9 9 with regs := { (sized 9 9).regs with textlen := 2049 } },
    ⟨by decide, by decide, by decide, by decide⟩, by decide, by decide⟩

theorem witness_Composite_unenc :
    ∃ s, ValidImage s ∧ s.regs.qstep ≠ 0 ∧ s.textLen ≤ Config.default.maxtext ∧
      ∃ k < s.textLen, (s.mem.txtWord Config.default k).toNat > 255 :=
  ⟨withText [0x100] (sized 9 9), ⟨by decide, by decide, by decide, by decide⟩, by decide, by decide, 0, by decide,
    by decide⟩

theorem witness_Composite_capacity :
    ∃ s, ValidImage s ∧ s.regs.qstep ≠ 0 ∧ EncodableText s ∧ s.ctrl.capmode = false ∧ s.payloadBits > s.blocks :=
  ⟨sized 9 9, ⟨by decide, by decide, by decide, by decide⟩, by decide, ⟨by decide, by decide⟩, rfl, by decide⟩

theorem witness_EmbedAccepts_strict : ∃ s, EmbedAccepts s ∧ s.ctrl.capmode = false ∧ s.payloadBits = s.blocks :=
  ⟨sized 33 33, ⟨⟨by decide, by decide, by decide, by decide⟩, by decide, ⟨by decide, by decide⟩, .inr (by decide)⟩, rfl,
    by decide⟩

theorem witness_EmbedAccepts_legacy : ∃ s, EmbedAccepts s ∧ s.ctrl.capmode = true ∧ s.payloadBits > s.blocks :=
  ⟨legacy (sized 9 9), ⟨⟨by decide, by decide, by decide, by decide⟩, by decide, ⟨by decide, by decide⟩, .inl rfl⟩, rfl,
    by decide⟩

theorem witness_EmbedAccepts_no_block : ∃ s, EmbedAccepts s ∧ s.blocks = 0 :=
  ⟨legacy (sized 8 8), ⟨⟨by decide, by decide, by decide, by decide⟩, by decide, ⟨by decide, by decide⟩, .inl rfl⟩,
    by decide⟩

theorem witness_Extract_no_block :
    ∃ s, ValidImage s ∧ s.regs.qstep ≠ 0 ∧ s.blocks = 0 ∧ (∀ m ≤ s.blocks, ¬EndsDelim (carriedBit s) m) ∧
      (after (exec .extract s)).nBits = 0 :=
  ⟨sized 8 8, ⟨by decide, by decide, by decide, by decide⟩, by decide, by decide,
    fun m hm h => absurd (Nat.le_trans h.1 hm) (by decide), by decide +kernel⟩

theorem witness_ExtractCompletesAndWritesNoImage : ∃ s, ValidImage s ∧ s.regs.qstep ≠ 0 :=
  ⟨sized 9 9, ⟨by decide, by decide, by decide, by decide⟩, by decide⟩

theorem witness_ExtractReportsNotFound :
    ∃ s, ValidImage s ∧ s.regs.qstep ≠ 0 ∧ 1 ≤ s.blocks ∧ ∀ m ≤ s.blocks, ¬EndsDelim (carriedBit s) m :=
  ⟨sized 9 9, ⟨by decide, by decide, by decide, by decide⟩, by decide, by decide,
    fun m hm h => absurd (Nat.le_trans h.1 hm) (by decide)⟩

/-- A 33×33 grey image whose 16 blocks carry the delimiter at `Q = 40`: the first cell of each of the first eight
blocks is 255, every other pixel is 0. -/
def delimImageByte (a : Nat) : Byte :=
  if a / 3 / 33 % 8 = 0 ∧ a / 3 % 33 % 8 = 0 ∧ a / 3 / 33 < 16 ∧ a / 3 % 33 < 32 then 255 else 0

def delimImage : State :=
  { withQ 0x00280000 (sized 33 33) with
    mem := { State.reset.mem with pix := (List.range 3267).map fun a => (a, delimImageByte a) } }

theorem delimImage_pixByte {a : Nat} (h : a < 3267) : delimImage.mem.pixByte Config.default a = delimImageByte a := by
  simp only [delimImage, Memory.pixByte, Cells.get?_map_range, h, if_true, Option.getD_some]

theorem delimImage_pixelLuma {r c : Nat} (hr : r < 33) (hc : c < 33) :
    pixelLuma delimImage r c = if r % 8 = 0 ∧ c % 8 = 0 ∧ r < 16 ∧ c < 32 then 255 else 0 := by
  have hw : delimImage.w = 33 := by decide
  have e : ∀ n < 3, (r * 33 + c) * 3 + n < 3267 ∧ ((r * 33 + c) * 3 + n) / 3 = r * 33 + c := fun n hn => by omega
  have e0 := e 0 (by omega)
  have e1 := e 1 (by omega)
  have e2 := e 2 (by omega)
  have d : (r * 33 + c) / 33 = r ∧ (r * 33 + c) % 33 = c := by omega
  have b : ∀ n < 3, delimImage.mem.pixByte Config.default ((r * 33 + c) * 3 + n) =
      if r % 8 = 0 ∧ c % 8 = 0 ∧ r < 16 ∧ c < 32 then 255 else 0 := fun n hn => by
    rw [delimImage_pixByte (e n hn).1, delimImageByte, (e n hn).2, d.1, d.2]
  have b0 := b 0 (by omega)
  simp only [Nat.add_zero] at b0
  simp only [pixelLuma, pixelInYCC, pixel, hw, b0, b 1 (by omega), b 2 (by omega)]
  split_ifs
  · have : (Config.default.color.toYCC 255 255 255).1.toNat = 255 := by decide
    exact_mod_cast this
  · have : (Config.default.color.toYCC 0 0 0).1.toNat = 0 := by decide
    exact_mod_cast this

theorem delimImage_blockLuma {k : Nat} (hk : k < 16) (r c : Fin 8) :
    blockLuma delimImage k r c = if r = 0 ∧ c = 0 then (if k < 8 then 255 else 0) else 0 := by
  have hw : nb delimImage.w = 4 := by decide
  rw [blockLuma, hw, delimImage_pixelLuma (by omega) (by omega)]
  have hr : r = 0 ↔ r.val = 0 := Fin.ext_iff
  have hc : c = 0 ↔ c.val = 0 := Fin.ext_iff
  by_cases h8 : k < 8 <;> by_cases hr0 : r.val = 0 <;> by_cases hc0 : c.val = 0 <;>
    simp only [hr, hc, hr0, hc0, h8, if_true, if_false, and_true, and_false] <;>
    split_ifs <;> first | rfl | omega

theorem delimImage_carriedBit {k : Nat} (hk : k < 16) : carriedBit delimImage k = decide (k < 8) := by
  have hs : delimImage.q = 40 := by decide +kernel
  have hx : blockLuma delimImage k = fun r c => if r = 0 ∧ c = 0 then (if k < 8 then 255 else 0) else 0 := by
    funext r c
    exact delimImage_blockLuma hk r c
  have hf : forwardSum (blockLuma delimImage k) 4 5 =
      Config.default.c 4 0 * Config.default.c 5 0 * (if k < 8 then 255 else 0) := by
    rw [hx, forwardSum]
    simp [Fin.sum_univ_eight]
  rw [carriedBit, hf, hs]
  by_cases h8 : k < 8
  · simp only [h8, if_true]
    decide +kernel
  · simp only [h8, if_false]
    decide +kernel

theorem witness_ExtractStopsAtTheFirstDelimiter :
    ∃ (s : State) (m : Nat), ValidImage s ∧ s.regs.qstep ≠ 0 ∧ m ≤ s.blocks ∧ EndsDelim (carriedBit s) m ∧
      ∀ n < m, ¬EndsDelim (carriedBit s) n :=
  ⟨delimImage, 16, ⟨by decide, by decide, by decide, by decide⟩, by decide, by decide,
    ⟨by decide, fun t ht => by rw [delimImage_carriedBit (by omega)]; simp; omega,
      fun t ht => by rw [delimImage_carriedBit (by omega)]; simp⟩,
    fun n hn h => absurd (Nat.lt_of_le_of_lt h.1 hn) (by decide)⟩

/-- Two states that agree on the inputs of `EMBED` and `EXTRACT` and differ elsewhere. -/
theorem witness_CompositesDependOnTheirInputsOnly :
    ∃ s s' : State,
      s.regs.width = s'.regs.width ∧ s.regs.height = s'.regs.height ∧ s.regs.qstep = s'.regs.qstep ∧
      (∀ a < 3 * s.w * s.h, s.mem.pixByte Config.default a = s'.mem.pixByte Config.default a) ∧
      s.regs.textlen = s'.regs.textlen ∧ s.ctrl.capmode = s'.ctrl.capmode ∧
      (∀ k < s.textLen, s.mem.txtWord Config.default k = s'.mem.txtWord Config.default k) ∧
      s.flags.bitout ≠ s'.flags.bitout ∧ EmbedAccepts s :=
  ⟨legacy (sized 9 9),
    { legacy (sized 9 9) with flags := { (legacy (sized 9 9)).flags with bitout := true } },
    rfl, rfl, rfl, fun _ _ => rfl, rfl, rfl, fun _ _ => rfl, by decide,
    ⟨⟨by decide, by decide, by decide, by decide⟩, by decide, ⟨by decide, by decide⟩, .inl rfl⟩⟩

/-- A 33×33 grey image at the default strength: 16 blocks, for the delimiter of an empty text. -/
def greyImage : State := filled (128, 128, 128) 1089 (sized 33 33)

theorem greyImage_pixByte {a : Nat} (h : a < 3267) : greyImage.mem.pixByte Config.default a = 128 := by
  have : (if a % 3 = 0 then (128 : Byte) else if a % 3 = 1 then 128 else 128) = 128 := by split_ifs <;> rfl
  simp only [greyImage, filled, sized, Memory.pixByte, Cells.get?_map_range, h, if_true, Option.getD_some, this]

theorem greyImage_pixel {r c : Nat} (hr : r < 33) (hc : c < 33) : pixel greyImage r c = (128, 128, 128) := by
  have hw : greyImage.w = 33 := by decide
  simp only [pixel, hw, greyImage_pixByte (show (r * 33 + c) * 3 < 3267 by omega),
    greyImage_pixByte (show (r * 33 + c) * 3 + 1 < 3267 by omega),
    greyImage_pixByte (show (r * 33 + c) * 3 + 2 < 3267 by omega)]

theorem greyImage_blockLuma {k : Nat} (hk : k < 16) (r c : Fin 8) : blockLuma greyImage k r c = 128 := by
  have hw : nb greyImage.w = 4 := by decide
  have h : (Config.default.color.toYCC 128 128 128).1.toNat = 128 := by decide
  simp only [blockLuma, pixelLuma, pixelInYCC, hw, greyImage_pixel (show 8 * (k / 4) + r.val < 33 by omega)
    (show 8 * (k % 4) + c.val < 33 by omega)]
  exact_mod_cast h

/-- The sum of a row of the basis: 0 but for row 0 (43_block_transform.md R191). -/
theorem basis_row_sum (u : Fin 8) : ∑ r, Config.default.c u r = if u = 0 then 3037000496 / 1073741824 else 0 := by
  rw [Fin.sum_univ_eight]
  revert u
  decide +kernel

theorem forwardSum_const (a : QNum) (u v : Fin 8) :
    forwardSum (fun _ _ => a) u v = if u = 0 ∧ v = 0 then (3037000496 / 1073741824) ^ 2 * a else 0 := by
  have e : forwardSum (fun _ _ => a) u v =
      (∑ r, Config.default.c u r) * (∑ c, Config.default.c v c) * a := by
    rw [forwardSum, Finset.sum_mul_sum, Finset.sum_mul]
    exact Finset.sum_congr rfl fun r _ => by rw [Finset.sum_mul]
  rw [e, basis_row_sum, basis_row_sum]
  by_cases hu : u = 0 <;> by_cases hv : v = 0 <;>
    simp only [hu, hv, if_true, if_false, and_true, and_false] <;> ring

theorem greyImage_embedded {k : Nat} (hk : k < 16) (r c : Fin 8) :
    inverseSum (embeddedCoef greyImage k) r c =
      Config.default.c 0 r * Config.default.c 0 c * ((3037000496 / 1073741824) ^ 2 * 128) +
        Config.default.c 4 r * Config.default.c 5 c * (if textBit greyImage k then 15 else 5) := by
  have hx : blockLuma greyImage k = fun _ _ => 128 := by
    funext r c
    exact greyImage_blockLuma hk r c
  have hs : greyImage.q = 20 := by decide +kernel
  have hq : quantized (textBit greyImage k) 20 0 = if textBit greyImage k then 15 else 5 := by
    cases textBit greyImage k <;> norm_num [quantized]
  have he : embeddedCoef greyImage k = fun u v =>
      if u = 4 ∧ v = 5 then (if textBit greyImage k then 15 else 5)
      else if u = 0 ∧ v = 0 then (3037000496 / 1073741824) ^ 2 * 128 else 0 := by
    funext u v
    simp only [embeddedCoef, hx, forwardSum_const, hs]
    split_ifs with h1 h2 <;> simp_all
  rw [he, inverseSum]
  simp [Fin.sum_univ_eight]

theorem witness_EmbeddedTextIsExtracted :
    ∃ s : State, EmbedAccepts s ∧ s.payloadBits ≤ s.blocks ∧ 0x000E8000 ≤ s.regs.qstep.toNat ∧
      (∀ r < s.h, ∀ c < s.w, (pixel s r c).2.1 = (pixel s r c).1 ∧ (pixel s r c).2.2 = (pixel s r c).1) ∧
      (∀ k < s.payloadBits, ∀ r c : Fin 8,
        -1 / 2 ≤ inverseSum (embeddedCoef s k) r c ∧ inverseSum (embeddedCoef s k) r c < 509 / 2) ∧
      ∀ n < s.payloadBits, ¬EndsDelim (textBit s) n := by
  have hn : greyImage.payloadBits = 16 := by decide
  refine ⟨greyImage, ⟨⟨by decide, by decide, by decide, by decide⟩, by decide, ⟨by decide, by decide⟩, .inr (by decide)⟩,
    by decide, by decide, fun r hr c hc => ?_, fun k hk r c => ?_,
    fun n h e => absurd (Nat.lt_of_le_of_lt e.1 (hn ▸ h)) (by decide)⟩
  · rw [greyImage_pixel hr hc]
    exact ⟨rfl, rfl⟩
  · rw [greyImage_embedded (hn ▸ hk)]
    generalize textBit greyImage k = b
    revert r c b
    decide +kernel

theorem witness_command_with_error :
    ∃ (i : Instr) (s t : State) (e : Err), exec i s = .next t ∧ t.flags.err = some e :=
  ⟨.cap, State.reset, _, .invimg, rfl, rfl⟩

theorem witness_command_completes : ∃ (i : Instr) (s t : State), exec i s = .next t := ⟨.itrst, State.reset, _, rfl⟩

theorem witness_OnlyLegalAccesses_legal :
    ∃ (s : State) (ts : List Turn) (op : PortOp) (off : Nat),
      s.port.turns = .port op :: ts ∧ op.addr = Config.default.base + off ∧ off < 0x2000000 ∧
        s.port.rst = false ∧ LegalAccess op off :=
  ⟨withTurns [.port (.read1 0x12FFFFF)] State.reset, [], .read1 0x12FFFFF, 0x12FFFFF, rfl, by decide, by decide, rfl,
    by decide, by decide⟩

theorem witness_OnlyLegalAccesses_refused :
    ∃ (s : State) (ts : List Turn) (op : PortOp) (off : Nat),
      s.port.turns = .port op :: ts ∧ op.addr = Config.default.base + off ∧ off < 0x2000000 ∧
        ¬(s.port.rst = false ∧ LegalAccess op off) :=
  ⟨withTurns [.port (.write4 0x12 0)] State.reset, [], .write4 0x12 0, 0x12, rfl, by decide, by decide,
    fun h => absurd h.2.1 (by decide)⟩

theorem witness_HostReadsHaveNoSideEffect :
    ∃ (s : State) (ts : List Turn) (op : PortOp), s.port.turns = .port op :: ts ∧ op.isWrite = false :=
  ⟨withTurns [.port (.read4 8)] State.reset, [], .read4 8, rfl, rfl⟩

theorem witness_AccessWhileBusy_write :
    ∃ (s : State) (ts : List Turn) (op : PortOp) (off : Nat),
      s.port.turns = .port op :: ts ∧ s.port.rst = false ∧ s.phase = .busy ∧
        op.addr = Config.default.base + off ∧ LegalAccess op off ∧ op.isWrite = true :=
  ⟨withTurns [.port (.write4 0x0C 1)] (issue 0 State.reset), [], .write4 0x0C 1, 0x0C, rfl, rfl, rfl, by decide,
    ⟨by decide, .inl (by decide)⟩, rfl⟩

theorem witness_AccessWhileBusy_read (off : Nat) (h : off = 0x00 ∨ off = 0x04 ∨ off = 0x08 ∨ off = 0x0C) :
    ∃ (s : State) (ts : List Turn) (op : PortOp),
      s.port.turns = .port op :: ts ∧ s.port.rst = false ∧ s.phase = .busy ∧
        op.addr = Config.default.base + off ∧ LegalAccess op off ∧ op = .read4 off := by
  refine ⟨withTurns [.port (.read4 off)] (issue 0 State.reset), [], .read4 off, rfl, rfl, rfl, ?_, ⟨?_, .inl ?_⟩, rfl⟩
  · show off = 0 + off
    omega
  · omega
  · omega

theorem witness_RegistersReadBackTheirWidth (off : Nat) :
    ∃ (s : State) (ts : List Turn) (v : Word),
      s.port.turns =
        .port (.write4 (Config.default.base + off) v) :: .port (.read4 (Config.default.base + off)) :: ts ∧
      s.port.rst = false ∧ s.phase = .idle :=
  ⟨withTurns [.port (.write4 (Config.default.base + off) 0), .port (.read4 (Config.default.base + off))] State.reset, [],
    0, rfl, rfl, rfl⟩

/-- The last reserved offset, and the offset of the last writable register. -/
theorem witness_RegisterWrites (v : Word) :
    (∃ (s t : State) (ts : List Turn) (off : Nat),
      s.port.turns = .port (.write4 (Config.default.base + off) v) :: ts ∧ s.port.rst = false ∧ s.phase = .idle ∧
        (0x38 ≤ off ∧ off < 0x100 ∧ off % 4 = 0) ∧ off = 0xFC ∧ t = s) ∧
      ∃ (s t : State) (ts : List Turn) (off : Nat),
        s.port.turns = .port (.write4 (Config.default.base + off) v) :: ts ∧ s.port.rst = false ∧ s.phase = .idle ∧
          off = 0x2C ∧ t = { s with regs := { s.regs with itj := v.extractLsb' 0 16 } } :=
  ⟨⟨withTurns [.port (.write4 (Config.default.base + 0xFC) v)] State.reset, _, [], 0xFC, rfl, rfl, rfl, by decide, rfl, rfl⟩,
    withTurns [.port (.write4 (Config.default.base + 0x2C) v)] State.reset, _, [], 0x2C, rfl, rfl, rfl, rfl, rfl⟩

theorem witness_StatusWriteClearsDoneAndOvr :
    ∃ (s : State) (ts : List Turn) (v : Word),
      s.port.turns = .port (.write4 (Config.default.base + 0x08) v) :: ts ∧ s.port.rst = false ∧ s.phase = .idle ∧
        s.flags.done = true :=
  ⟨withTurns [.port (.write4 0x08 2)] (complete State.reset), [], 2, rfl, rfl, rfl, rfl⟩

theorem witness_ProbeWindowsReadBack (inCoef : Bool) (r c : Fin 8) :
    ∃ (s : State) (ts : List Turn) (w : Word) (off : Nat),
      off = (if inCoef then 0x200 else 0x100) + 4 * (8 * r.val + c.val) ∧
      s.port.turns =
        .port (.write4 (Config.default.base + off) w) :: .port (.read4 (Config.default.base + off)) :: ts ∧
      s.port.rst = false ∧ s.phase = .idle :=
  ⟨withTurns [.port (.write4 (Config.default.base + ((if inCoef then 0x200 else 0x100) + 4 * (8 * r.val + c.val))) 7),
      .port (.read4 (Config.default.base + ((if inCoef then 0x200 else 0x100) + 4 * (8 * r.val + c.val))))] State.reset,
    [], 7, _, rfl, rfl, rfl, rfl⟩

/-- Any list of turns can stand before an idle core out of reset: the other premises of the statements on one
access. -/
theorem witness_idle_access (ts : List Turn) :
    ∃ s : State, s.port.turns = ts ∧ s.port.rst = false ∧ s.phase = .idle := ⟨withTurns ts State.reset, rfl, rfl, rfl⟩

theorem witness_window_indices :
    (∃ a, a % 4 = 0 ∧ a < Config.default.pixBytes ∧ a = 0x2FFFFC) ∧ (∃ k, 32 * k < Config.default.maxbits ∧ k = 512) ∧
      (∃ k, k < Config.default.maxtext ∧ k = 2047) ∧ ∃ k, k < Config.default.maxout ∧ k = 2049 :=
  ⟨⟨_, by decide, by decide, rfl⟩, ⟨_, by decide, rfl⟩, ⟨_, by decide, rfl⟩, ⟨_, by decide, rfl⟩⟩

theorem witness_ResetInput :
    (∃ (s : State) (ts : List Turn), s.port.turns = .rst true :: ts ∧ s.port.rst = false ∧ s.phase = .busy) ∧
      (∃ (s : State) (ts : List Turn), s.port.rst = true ∧ EngineNext s ts) ∧
      ∃ (s : State) (ts : List Turn), s.port.turns = .rst false :: ts ∧ s.port.rst = true :=
  ⟨⟨withTurns [.rst true] (issue 0x10 State.reset), [], rfl, rfl, rfl⟩,
    ⟨{ State.reset with port := { State.reset.port with rst := true } }, [], rfl, .inr ⟨rfl, rfl⟩⟩,
    { State.reset with port := { State.reset.port with rst := true, turns := [.rst false] } }, [], rfl, rfl⟩

/-- A state with the invariant that a step leads from: a core right after reset with a command issued. -/
theorem witness_StepKeepsTheInvariant : ∃ s t, State.Of.Inv Config.default s ∧ s.phase = .busy ∧ step s = .next t :=
  ⟨issue 0x05 State.reset, _,
    { memory := by decide
      running := fun _ => by decide
      outlen := by decide
      bitcur := by decide
      capacity := by decide
      found := fun h => absurd h (by decide)
      trunc := fun h => absurd h (by decide)
      reset := fun h => absurd h (by decide) }, rfl, rfl⟩

theorem witness_NoBufferOverflows :
    ∃ (cfg : Config QNum) (s t : State), cfg.wf = true ∧ s.mem.wf cfg = true ∧ stepFor cfg s = .next t :=
  ⟨{ Config.default with maxw := 9, maxh := 9, maxtext := 0 }, State.reset, _, by decide, by decide, rfl⟩

end Sys2Proof.Tests
end

section
/-! PROOFS. 00_scope.md, O60: in every well-formed configuration a step keeps the buffers canonical and inside their
sizes. First the cells and lengths that commands write, then what each effect, the composite commands, the
host port and the turn do to the memory. -/

namespace Sys2Proof.Machine

variable {ν : Type} {cfg : Config ν}

/-! ### Bounds of the cells and lengths that commands write -/

theorem nb_mono {x y : Nat} (h : x ≤ y) : nb x ≤ nb y := by
  unfold nb
  split_ifs <;> omega

/-- The blocks of a valid image fit `BITS` (00_scope.md R7). -/
theorem blocks_le_maxbits {s : State.Of ν} (h : s.badImage cfg = false) : s.blocks ≤ cfg.maxbits := by
  obtain ⟨-, hw, -, hh⟩ := badImage_eq_false.mp h
  exact (Nat.mul_le_mul (nb_mono hh) (nb_mono hw)).trans (le_max_right _ _)

/-- The bitstream of a text that `TXT` holds fits `BITS` (00_scope.md R7). -/
theorem payloadBits_le_maxbits {s : State.Of ν} (h : s.badTextLen cfg = false) : s.payloadBits ≤ cfg.maxbits := by
  have hlen := badTextLen_eq_false.mp h
  have : s.payloadBits ≤ 8 * cfg.maxtext + 16 := by unfold State.Of.payloadBits; omega
  exact this.trans (le_max_left _ _)

theorem Config.maxbits_le_of_wf (h : cfg.wf = true) : cfg.maxbits ≤ 524288 := by
  simp only [Config.wf, Bool.and_eq_true, decide_eq_true_eq] at h
  omega

@[simp] theorem length_payload (s : State.Of ν) : (payload cfg s).length = s.payloadBits := by
  simp [payload, textWords, charBits, delimiter, State.Of.payloadBits, List.length_flatMap, Function.comp_def,
    Nat.mul_comm]

@[simp] theorem length_decodeChars (bit : Nat → Bool) (m : Nat) : (decodeChars bit m).length = m := by
  simp [decodeChars]

theorem planeKey_lt {r c : Nat} (hr : r < cfg.maxh) (hc : c < cfg.maxw) :
    planeKey cfg r c < cfg.maxw * cfg.maxh :=
  calc r * cfg.maxw + c < (r + 1) * cfg.maxw := by rw [Nat.succ_mul]; omega
    _ ≤ cfg.maxh * cfg.maxw := Nat.mul_le_mul_right _ hr
    _ = cfg.maxw * cfg.maxh := Nat.mul_comm _ _

/-- The three bytes of a pixel of an image that fits the buffer lie in `PIX` (20_memory.md R75). -/
theorem pixAddr_add_three_le {w h r c : Nat} (hw : w ≤ cfg.maxw) (hh : h ≤ cfg.maxh) (hr : r < h) (hc : c < w) :
    pixAddr w r c + 3 ≤ cfg.pixBytes := by
  have hpix : r * w + c + 1 ≤ cfg.maxw * cfg.maxh :=
    calc r * w + c + 1 ≤ (r + 1) * w := by rw [Nat.succ_mul]; omega
      _ ≤ cfg.maxh * cfg.maxw := Nat.mul_le_mul (by omega) hw
      _ = cfg.maxw * cfg.maxh := Nat.mul_comm _ _
  unfold pixAddr Config.pixBytes
  rw [Nat.mul_assoc]
  omega

theorem planeCells_key_lt {α : Type} {s : State.Of ν} (himg : s.badImage cfg = false) (f : Nat → Nat → α) :
    ∀ kv ∈ planeCells cfg s f, kv.1 < cfg.maxw * cfg.maxh := by
  obtain ⟨-, hw, -, hh⟩ := badImage_eq_false.mp himg
  intro kv hkv
  obtain ⟨⟨r, c⟩, hrc, rfl⟩ := List.mem_map.mp hkv
  obtain ⟨hr, hc⟩ := mem_coords.mp hrc
  exact planeKey_lt (hr.trans_le hh) (hc.trans_le hw)

theorem imageBytes_key_lt {s : State.Of ν} (himg : s.badImage cfg = false) :
    ∀ kv ∈ imageBytes cfg s, kv.1 < cfg.pixBytes := by
  obtain ⟨-, hw, -, hh⟩ := badImage_eq_false.mp himg
  intro kv hkv
  obtain ⟨⟨r, c⟩, hrc, hkv⟩ := List.mem_flatMap.mp hkv
  obtain ⟨hr, hc⟩ := mem_coords.mp hrc
  have hlast := pixAddr_add_three_le hw hh hr hc
  simp only [List.mem_cons, List.not_mem_nil, or_false] at hkv
  rcases hkv with rfl | rfl | rfl <;> dsimp only <;> omega

theorem blockCells_key_lt {s : State.Of ν} (hblk : s.badBlock cfg = false) :
    ∀ kv ∈ blockCells cfg s, kv.1 < cfg.maxw * cfg.maxh := by
  obtain ⟨hw, hh, hi, hj⟩ := badBlock_eq_false.mp hblk
  intro kv hkv
  obtain ⟨r, -, hkv⟩ := List.mem_flatMap.mp hkv
  obtain ⟨c, -, rfl⟩ := List.mem_map.mp hkv
  exact planeKey_lt (by omega) (by omega)

/-! ### Replacing one buffer -/

section Replace

variable {m : Memory ν} (h : m.wf cfg = true)
include h

theorem Memory.wf_with_pix {l : List Host.Cell} (hl : Cells.wf cfg.pixBytes 0 l = true) :
    ({ m with pix := l } : Memory ν).wf cfg = true := by
  simp_all [Memory.wf_iff]

theorem Memory.wf_with_txt {l : List (Nat × Word)} (hl : Cells.wf cfg.maxtext 0 l = true) :
    ({ m with txt := l } : Memory ν).wf cfg = true := by
  simp_all [Memory.wf_iff]

theorem Memory.wf_with_out {l : List (Nat × Word)} (hl : Cells.wf cfg.maxout 0 l = true) :
    ({ m with out := l } : Memory ν).wf cfg = true := by
  simp_all [Memory.wf_iff]

theorem Memory.wf_with_bits {l : List (Nat × Bool)} (hl : Cells.wf cfg.maxbits 0 l = true) :
    ({ m with bits := l } : Memory ν).wf cfg = true := by
  simp_all [Memory.wf_iff]

theorem Memory.wf_with_luma {l : List (Nat × ν)} (hl : Cells.wf (cfg.maxw * cfg.maxh) 0 l = true) :
    ({ m with luma := l } : Memory ν).wf cfg = true := by
  simp_all [Memory.wf_iff]

end Replace

/-! ### The primitive effects -/

section Primitive

variable {s t : State.Of ν}

theorem t2b_keeps_memory_wf (h : s.mem.wf cfg = true) (ht : t2b cfg s = .ok t) : t.mem.wf cfg = true := by
  obtain ⟨hlen, -, rfl⟩ := t2b_ok.mp ht
  obtain ⟨-, -, -, hbits, -⟩ := (Memory.wf_iff _ _).mp h
  exact Memory.wf_with_bits h
    (Cells.wf_setSeq _ hbits (by simpa using payloadBits_le_maxbits hlen))

/-- Decoding fits `OUT` when the bits decoded fit `BITS`. -/
theorem writeOut_keeps_memory_wf {n : Nat} (h : s.mem.wf cfg = true) (hn : n ≤ cfg.maxbits) :
    (writeOut cfg (n / 8) s).mem.wf cfg = true := by
  obtain ⟨-, -, hout, -⟩ := (Memory.wf_iff _ _).mp h
  have hfit : n / 8 ≤ cfg.maxout := Nat.div_le_div_right hn
  exact Memory.wf_with_out h (Cells.wf_setSeq _ hout (by simpa using hfit))

theorem b2t_keeps_memory_wf (h : s.mem.wf cfg = true) (ht : b2t cfg s = .ok t) : t.mem.wf cfg = true := by
  obtain ⟨hlen, rfl⟩ := b2t_ok.mp ht
  have hn := badBitLen_eq_false.mp hlen
  refine writeOut_keeps_memory_wf h ?_
  unfold bitsToGroup
  split_ifs <;> omega

theorem cscf_keeps_memory_wf (h : s.mem.wf cfg = true) (ht : cscf cfg s = .ok t) : t.mem.wf cfg = true := by
  obtain ⟨himg, rfl⟩ := cscf_ok.mp ht
  obtain ⟨hpix, htxt, hout, hbits, hluma, hchr1, hchr2⟩ := (Memory.wf_iff _ _).mp h
  exact (Memory.wf_iff _ _).mpr ⟨hpix, htxt, hout, hbits,
    Cells.wf_setMany hluma (planeCells_key_lt himg _), Cells.wf_setMany hchr1 (planeCells_key_lt himg _),
    Cells.wf_setMany hchr2 (planeCells_key_lt himg _)⟩

theorem csci_keeps_memory_wf (h : s.mem.wf cfg = true) (ht : csci cfg s = .ok t) : t.mem.wf cfg = true := by
  obtain ⟨himg, rfl⟩ := csci_ok.mp ht
  obtain ⟨hpix, -⟩ := (Memory.wf_iff _ _).mp h
  exact Memory.wf_with_pix h (Cells.wf_setMany hpix (imageBytes_key_lt himg))

theorem blkst_keeps_memory_wf (h : s.mem.wf cfg = true) (ht : blkst cfg s = .ok t) : t.mem.wf cfg = true := by
  obtain ⟨hblk, rfl⟩ := blkst_ok.mp ht
  obtain ⟨-, -, -, -, hluma, -⟩ := (Memory.wf_iff _ _).mp h
  exact Memory.wf_with_luma h (Cells.wf_setMany hluma (blockCells_key_lt hblk))

theorem itrst_mem (ht : itrst s = .ok t) : t.mem = s.mem := by
  cases ht
  rfl

theorem cap_mem (ht : cap cfg s = .ok t) : t.mem = s.mem := by
  obtain ⟨-, rfl⟩ := cap_ok.mp ht
  rfl

theorem blkld_mem (ht : blkld cfg s = .ok t) : t.mem = s.mem := by
  obtain ⟨-, rfl⟩ := blkld_ok.mp ht
  rfl

theorem fdct_mem (ht : fdct cfg s = .ok t) : t.mem = s.mem := by
  cases ht
  rfl

theorem idct_mem (ht : idct cfg s = .ok t) : t.mem = s.mem := by
  cases ht
  rfl

theorem qemb_mem {b : Bool} (ht : qemb cfg b s = .ok t) : t.mem = s.mem := by
  obtain ⟨-, rfl⟩ := qemb_ok.mp ht
  rfl

theorem qext_mem (ht : qext cfg s = .ok t) : t.mem = s.mem := by
  obtain ⟨-, rfl⟩ := qext_ok.mp ht
  rfl

/-- `ITNEXT` moves the iterator only: no buffer and no other result register changes. -/
theorem itnext_frame (ht : itnext s = .ok t) : t.mem = s.mem ∧ t.regs.nbits = s.regs.nbits := by
  rcases itnext_cases s with ⟨-, e⟩ | ⟨-, -, e⟩ | ⟨-, -, -, e⟩ | ⟨-, -, -, e⟩ <;>
    (cases e.symm.trans ht; exact ⟨rfl, rfl⟩)

end Primitive

/-! ### `EMBED` -/

theorem check_eq_ok {bad : Bool} {e : Err} {u : Unit} : check bad e = .ok u ↔ bad = false := by
  cases bad <;> simp [check]

section Embed

variable {s t : State.Of ν}

theorem embedBlock_keeps_memory_wf {b : Bool} (h : s.mem.wf cfg = true) (ht : embedBlock cfg b s = .ok t) :
    t.mem.wf cfg = true := by
  obtain ⟨hblk, -, x, y, z, -, -, -, rfl⟩ := embedBlock_ok.mp ht
  obtain ⟨-, -, -, -, hluma, -⟩ := (Memory.wf_iff _ _).mp h
  exact Memory.wf_with_luma h (Cells.wf_setMany hluma (blockCells_key_lt (s := { s with blk := z }) hblk))

/-- The loop of `EMBED` stops where it stands, or embeds one bit, moves to the next block and goes on. -/
theorem embedLoop_succ_ok {n fuel k : Nat} {p : Nat × State.Of ν} :
    embedLoop cfg n (fuel + 1) k s = .ok p ↔
      ((s.flags.itvalid && decide (k < n)) = false ∧ p = (k, s)) ∨
      ((s.flags.itvalid && decide (k < n)) = true ∧
        ∃ s1 s2, embedBlock cfg (s.mem.bit cfg k) s = .ok s1 ∧ itnext s1 = .ok s2 ∧
          embedLoop cfg n fuel (k + 1) s2 = .ok p) := by
  rw [embedLoop]
  cases s.flags.itvalid && decide (k < n)
  · simp [eq_comm]
  · simp [effect_bind_eq_ok]

theorem embedLoop_keeps_memory_wf {n fuel k : Nat} {p : Nat × State.Of ν} (h : s.mem.wf cfg = true)
    (hp : embedLoop cfg n fuel k s = .ok p) : p.2.mem.wf cfg = true := by
  induction fuel generalizing k s with
  | zero => cases hp; exact h
  | succ fuel ih =>
    rcases embedLoop_succ_ok.mp hp with ⟨-, rfl⟩ | ⟨-, s1, s2, hblock, hnext, hloop⟩
    · exact h
    · refine ih ?_ hloop
      rw [(itnext_frame hnext).1]
      exact embedBlock_keeps_memory_wf h hblock

/-- `EMBED` passes its checks and runs its parts in order (45_orchestrator.md R231). -/
theorem embed_ok :
    embed cfg s = .ok t ↔
      s.badImage cfg = false ∧ s.badStrength = false ∧ s.badTextLen cfg = false ∧ s.badText cfg = false ∧
      s.overCapacity = false ∧
      ∃ s1 s2 s3 p s4, t2b cfg s = .ok s1 ∧
        cscf cfg { s1 with flags := { s1.flags with trunc := decide (s.payloadBits > s.blocks) } } = .ok s2 ∧
        itrst s2 = .ok s3 ∧ embedLoop cfg s.payloadBits s.blocks 0 s3 = .ok p ∧ csci cfg p.2 = .ok s4 ∧
        t = { s4 with regs := { s4.regs with bitcur := BitVec.ofNat 32 p.1 } } := by
  simp only [embed, effect_bind_eq_ok, check_eq_ok, exists_const, exists_and_left, Except.ok.injEq, eq_comm (b := t)]

theorem embed_keeps_memory_wf (h : s.mem.wf cfg = true) (ht : embed cfg s = .ok t) : t.mem.wf cfg = true := by
  obtain ⟨-, -, -, -, -, s1, s2, s3, p, s4, h1, h2, h3, h4, h5, rfl⟩ := embed_ok.mp ht
  have w1 : s1.mem.wf cfg = true := t2b_keeps_memory_wf h h1
  have w2 : s2.mem.wf cfg = true := cscf_keeps_memory_wf (by exact w1) h2
  have w3 : s3.mem.wf cfg = true := itrst_mem h3 ▸ w2
  change s4.mem.wf cfg = true
  exact csci_keeps_memory_wf (embedLoop_keeps_memory_wf w3 h4) h5

end Embed

/-! ### `EXTRACT` -/

section Extract

variable {s t : State.Of ν}

theorem extractBlock_frame (ht : extractBlock cfg s = .ok t) : t.mem = s.mem ∧ t.regs.nbits = s.regs.nbits := by
  obtain ⟨-, -, x, y, -, -, rfl⟩ := extractBlock_ok.mp ht
  exact ⟨rfl, rfl⟩

theorem appendBit_keeps_memory_wf (h : s.mem.wf cfg = true) (hn : s.nBits < cfg.maxbits) :
    (appendBit s).mem.wf cfg = true := by
  obtain ⟨-, -, -, hbits, -⟩ := (Memory.wf_iff _ _).mp h
  exact Memory.wf_with_bits h (Cells.wf_set _ hbits (Nat.zero_le _) hn)

/-- `NBITS` counts the bit appended, as long as the register does not wrap. -/
theorem appendBit_nBits (hn : s.nBits + 1 < 2 ^ 32) : (appendBit s).nBits = s.nBits + 1 := by
  change (s.nBits + 1) % 2 ^ 32 = s.nBits + 1
  exact Nat.mod_eq_of_lt hn

theorem foundText_keeps_memory_wf (h : s.mem.wf cfg = true) (hn : s.nBits ≤ cfg.maxbits) :
    (foundText cfg s).mem.wf cfg = true :=
  writeOut_keeps_memory_wf h ((Nat.sub_le _ _).trans hn)

/-- The loop of `EXTRACT` stops where it stands, or reads one bit and then either decodes the text or moves to
the next block, and goes on. -/
theorem extractLoop_succ_ok {fuel : Nat} :
    extractLoop cfg (fuel + 1) s = .ok t ↔
      ((s.flags.itvalid && !s.flags.found) = false ∧ t = s) ∨
      ((s.flags.itvalid && !s.flags.found) = true ∧
        ∃ s1, extractBlock cfg s = .ok s1 ∧
          ((endsWithDelim ((appendBit s1).mem.bit cfg) (appendBit s1).nBits = true ∧
              extractLoop cfg fuel (foundText cfg (appendBit s1)) = .ok t) ∨
            (endsWithDelim ((appendBit s1).mem.bit cfg) (appendBit s1).nBits = false ∧
              ∃ s2, itnext (appendBit s1) = .ok s2 ∧ extractLoop cfg fuel s2 = .ok t))) := by
  rw [extractLoop]
  cases s.flags.itvalid && !s.flags.found
  · simp only [Bool.false_eq_true, if_false, Except.ok.injEq, false_and, or_false, true_and]
    exact eq_comm
  · simp only [if_true, effect_bind_eq_ok, false_and, false_or, true_and, Bool.true_eq_false]
    refine exists_congr fun s1 => and_congr_right fun _ => ?_
    cases endsWithDelim ((appendBit s1).mem.bit cfg) (appendBit s1).nBits <;> simp [effect_bind_eq_ok]

/-- Each pass appends one bit, so the passes left bound the bits still to come: `BITS` and `OUT` never overflow
(45_orchestrator.md R232 (i)). -/
theorem extractLoop_keeps_memory_wf {fuel : Nat} (hmax : cfg.maxbits < 2 ^ 32) (h : s.mem.wf cfg = true)
    (hn : s.nBits + fuel ≤ cfg.maxbits) (ht : extractLoop cfg fuel s = .ok t) : t.mem.wf cfg = true := by
  induction fuel generalizing s with
  | zero => cases ht; exact h
  | succ fuel ih =>
    rcases extractLoop_succ_ok.mp ht with ⟨-, rfl⟩ | ⟨-, s1, hblock, hrest⟩
    · exact h
    obtain ⟨hmem1, hnbits1⟩ := extractBlock_frame hblock
    have hcount1 : s1.nBits = s.nBits := congrArg BitVec.toNat hnbits1
    have hcount : (appendBit s1).nBits = s.nBits + 1 := by
      rw [appendBit_nBits (by omega), hcount1]
    have hwf : (appendBit s1).mem.wf cfg = true := appendBit_keeps_memory_wf (hmem1 ▸ h) (by omega)
    rcases hrest with ⟨-, hloop⟩ | ⟨-, s2, hnext, hloop⟩
    · refine ih (foundText_keeps_memory_wf hwf (by omega)) ?_ hloop
      change (appendBit s1).nBits + fuel ≤ cfg.maxbits
      omega
    · obtain ⟨hmem2, hnbits2⟩ := itnext_frame hnext
      have hcount2 : s2.nBits = (appendBit s1).nBits := congrArg BitVec.toNat hnbits2
      exact ih (hmem2 ▸ hwf) (by omega) hloop

/-- `EXTRACT` passes its checks and runs its parts in order (45_orchestrator.md R232). -/
theorem extract_ok :
    extract cfg s = .ok t ↔
      s.badImage cfg = false ∧ s.badStrength = false ∧
      ∃ s1 s2 s3, cscf cfg s = .ok s1 ∧ itrst s1 = .ok s2 ∧
        extractLoop cfg s.blocks
          { s2 with
            regs := { s2.regs with nbits := 0, outlen := 0 }
            flags := { s2.flags with found := false } } = .ok s3 ∧
        t = { s3 with regs := { s3.regs with bitcur := s3.regs.nbits } } := by
  simp only [extract, effect_bind_eq_ok, check_eq_ok, exists_const, exists_and_left, Except.ok.injEq,
    eq_comm (b := t)]

theorem extract_keeps_memory_wf (hcfg : cfg.wf = true) (h : s.mem.wf cfg = true) (ht : extract cfg s = .ok t) :
    t.mem.wf cfg = true := by
  obtain ⟨himg, -, s1, s2, s3, h1, h2, h3, rfl⟩ := extract_ok.mp ht
  have w2 : s2.mem.wf cfg = true := itrst_mem h2 ▸ cscf_keeps_memory_wf h h1
  have hmax : cfg.maxbits < 2 ^ 32 := (Config.maxbits_le_of_wf hcfg).trans_lt (by norm_num)
  have hstart : 0 + s.blocks ≤ cfg.maxbits := (Nat.zero_add _).trans_le (blocks_le_maxbits himg)
  change s3.mem.wf cfg = true
  exact extractLoop_keeps_memory_wf hmax (by exact w2) (by exact hstart) h3

end Extract

/-! ### The Engine's turn -/

section Engine

variable {s t : State.Of ν}

/-- A command keeps the memory canonical if its effect does: an error changes no buffer (00_scope.md R11, R12). -/
theorem finish_keeps_memory_wf {r : Effect ν} (h : s.mem.wf cfg = true) (hr : ∀ u, r = .ok u → u.mem.wf cfg = true)
    (ht : finish s r = .next t) : t.mem.wf cfg = true := by
  rcases finish_cases s r with ⟨u, hu, e⟩ | ⟨err, -, e⟩ <;> cases e.symm.trans ht
  · exact hr u hu
  · exact h

/-- The effect of a command: what its rule does, before it completes. -/
def effectFor (cfg : Config ν) (i : Instr) (s : State.Of ν) : Effect ν :=
  match i with
  | .nop => .ok s
  | .t2b => t2b cfg s
  | .b2t => b2t cfg s
  | .cscf => cscf cfg s
  | .csci => csci cfg s
  | .itrst => itrst s
  | .itnext => itnext s
  | .blkld => blkld cfg s
  | .blkst => blkst cfg s
  | .fdct => fdct cfg s
  | .idct => idct cfg s
  | .qemb b => qemb cfg b s
  | .qext => qext cfg s
  | .cap => cap cfg s
  | .embed => embed cfg s
  | .extract => extract cfg s

/-- Every command completes with its effect (00_scope.md R12). -/
theorem execFor_eq_finish (i : Instr) (s : State.Of ν) : execFor cfg i s = finish s (effectFor cfg i s) := by
  cases i <;> rfl

theorem effectFor_keeps_memory_wf (hcfg : cfg.wf = true) (i : Instr) (h : s.mem.wf cfg = true)
    (ht : effectFor cfg i s = .ok t) : t.mem.wf cfg = true := by
  cases i with
  | nop => cases ht; exact h
  | t2b => exact t2b_keeps_memory_wf h ht
  | b2t => exact b2t_keeps_memory_wf h ht
  | cscf => exact cscf_keeps_memory_wf h ht
  | csci => exact csci_keeps_memory_wf h ht
  | itrst => exact itrst_mem ht ▸ h
  | itnext => exact (itnext_frame ht).1 ▸ h
  | blkld => exact blkld_mem ht ▸ h
  | blkst => exact blkst_keeps_memory_wf h ht
  | fdct => exact fdct_mem ht ▸ h
  | idct => exact idct_mem ht ▸ h
  | qemb b => exact qemb_mem ht ▸ h
  | qext => exact qext_mem ht ▸ h
  | cap => exact cap_mem ht ▸ h
  | embed => exact embed_keeps_memory_wf h ht
  | extract => exact extract_keeps_memory_wf hcfg h ht

theorem execFor_keeps_memory_wf (hcfg : cfg.wf = true) (i : Instr) (h : s.mem.wf cfg = true)
    (ht : execFor cfg i s = .next t) : t.mem.wf cfg = true :=
  finish_keeps_memory_wf h (fun _ => effectFor_keeps_memory_wf hcfg i h) (execFor_eq_finish i s ▸ ht)

/-- The Engine stays as it is (in reset or idle), completes an illegal word, or runs the command of the latched word. -/
theorem engineTurn_next_cases {run : Instr → State.Of ν → Host.Outcome (State.Of ν) Fault Refusal}
    (ht : engineTurn run s = .next t) :
    t = s ∨ t = raiseErr .illcmd s ∨ ∃ i, decode s.cmdl = .ok i ∧ run i s = .next t := by
  unfold engineTurn at ht
  split_ifs at ht
  · cases ht; exact .inl rfl
  · split at ht
    · cases ht; exact .inl rfl
    · unfold completion at ht
      split at ht
      · next i hi => exact .inr (.inr ⟨i, hi, ht⟩)
      · cases ht; exact .inr (.inl rfl)

theorem engineTurn_keeps_memory_wf (hcfg : cfg.wf = true) (h : s.mem.wf cfg = true)
    (ht : engineTurn (execFor cfg) s = .next t) : t.mem.wf cfg = true := by
  rcases engineTurn_next_cases ht with rfl | rfl | ⟨i, -, hrun⟩
  · exact h
  · exact h
  · exact execFor_keeps_memory_wf hcfg i h hrun

end Engine

/-! ### The host port and the reset input -/

section Port

variable {s : State.Of ν}

@[simp] theorem writeReg_mem (r : Reg) (v : Word) (s : State.Of ν) : (writeReg r v s).mem = s.mem := by
  cases r <;> rfl

/-- The window of `TXT` maps to cells of `TXT` only (20_memory.md R71). -/
theorem wordRegion_txt_lt {off k : Nat} (hg : wordRegion cfg off = some (.txt k)) : k < cfg.maxtext := by
  unfold wordRegion regionAt at hg
  split_ifs at hg <;> cases hg
  omega

theorem writeWordIdle_keeps_memory_wf {g : Region} (v : Word) (h : s.mem.wf cfg = true)
    (hg : ∀ k, g = .txt k → k < cfg.maxtext) : (writeWordIdle cfg g v s).mem.wf cfg = true := by
  cases g with
  | reg r => exact (writeReg_mem r v s).symm ▸ h
  | blkw k => exact h
  | coefw k => exact h
  | txt k =>
    obtain ⟨-, htxt, -⟩ := (Memory.wf_iff _ _).mp h
    exact Memory.wf_with_txt h (Cells.wf_set v htxt (Nat.zero_le _) (hg k rfl))
  | out k => exact h
  | bits k => exact wf_writeBitsWord k v h
  | pix a => exact wf_writePix _ _ (wf_writePix _ _ (wf_writePix _ _ (wf_writePix _ _ h)))

theorem read4_mem (off : Nat) : (read4 cfg off s).mem = s.mem := by
  unfold read4
  split <;> rfl

theorem read1_mem (off : Nat) : (read1 cfg off s).mem = s.mem := by
  unfold read1
  split <;> rfl

theorem write4_keeps_memory_wf (off : Nat) (v : Word) (h : s.mem.wf cfg = true) :
    (write4 cfg off v s).mem.wf cfg = true := by
  unfold write4
  split
  · exact h
  · next g hg =>
    rw [respond_mem]
    split_ifs
    · exact h
    · exact writeWordIdle_keeps_memory_wf v h fun k hk => wordRegion_txt_lt (hk ▸ hg)

theorem write1_keeps_memory_wf (off : Nat) (v : Byte) (h : s.mem.wf cfg = true) :
    (write1 cfg off v s).mem.wf cfg = true := by
  unfold write1
  split
  · exact h
  · rw [respond_mem]
    split_ifs
    · exact h
    · exact wf_writePix _ v h

theorem accessInReset_mem (op : PortOp) : (accessInReset cfg op s).mem = s.mem := by
  cases op <;> rfl

theorem accessAt_keeps_memory_wf (op : PortOp) (off : Nat) (h : s.mem.wf cfg = true) :
    (accessAt cfg op off s).mem.wf cfg = true := by
  cases op with
  | read4 a => exact (read4_mem off).symm ▸ h
  | write4 a v => exact write4_keeps_memory_wf off v h
  | read1 a => exact (read1_mem off).symm ▸ h
  | write1 a v => exact write1_keeps_memory_wf off v h

theorem portAccess_keeps_memory_wf (op : PortOp) (h : s.mem.wf cfg = true) :
    (portAccess cfg op s).mem.wf cfg = true := by
  unfold portAccess
  split
  · exact h
  · split_ifs
    · exact (accessInReset_mem op).symm ▸ h
    · exact accessAt_keeps_memory_wf op _ h

theorem resetInput_keeps_memory_wf (level : Bool) (h : s.mem.wf cfg = true) :
    (resetInput cfg level s).mem.wf cfg = true := by
  unfold resetInput
  split_ifs
  · exact h
  · exact Memory.wf_unwritten cfg _
  · exact h

end Port

/-! ### The step -/

theorem stepFor_keeps_memory_wf {s t : State.Of ν} (hcfg : cfg.wf = true) (h : s.mem.wf cfg = true)
    (ht : stepFor cfg s = .next t) : t.mem.wf cfg = true := by
  unfold stepFor at ht
  match hturns : s.port.turns with
  | [] =>
    rw [turnStep_nil _ _ hturns] at ht
    exact engineTurn_keeps_memory_wf (s := takeTurn [] s) hcfg h ht
  | .engine :: ts =>
    rw [turnStep_engine _ _ hturns] at ht
    exact engineTurn_keeps_memory_wf (s := takeTurn ts s) hcfg h ht
  | .port op :: ts =>
    cases (turnStep_port _ _ hturns).symm.trans ht
    exact portAccess_keeps_memory_wf (s := takeTurn ts s) op h
  | .rst level :: ts =>
    cases (turnStep_rst _ _ hturns).symm.trans ht
    exact resetInput_keeps_memory_wf (s := takeTurn ts s) level h

/-- Settles O60: the bound that carries it is that of `EXTRACT`, whose passes left bound the bits still to come. -/
theorem noBufferOverflowsInAnyConfiguration : Obligations.NoBufferOverflowsInAnyConfiguration :=
  fun _ _ _ _ hcfg hmem hstep => stepFor_keeps_memory_wf hcfg hmem hstep

end Sys2Proof.Machine
end

section
/-! PROOFS. 00_scope.md, O16: rounding to a sample. -/

namespace Sys2Proof.Machine

theorem toNat_tou8 (x : QNum) : ((tou8 ratOps x).toNat : Int) = clamp255 ⌊x + 1 / 2⌋ := by
  simp [tou8, sat8_toNat, clamp255]

/-- Rounding to the nearest integer commutes with clamping to `0..255`, whose ends are integers. -/
theorem clamp255_floor_clamp (x : QNum) : clamp255 ⌊max 0 (min 255 x) + 1 / 2⌋ = clamp255 ⌊x + 1 / 2⌋ := by
  rcases lt_or_ge x 0 with hneg | hnonneg
  · have hfloor : ⌊x + 1 / 2⌋ ≤ 0 := Int.le_of_lt_add_one (Int.floor_lt.mpr (by push_cast; linarith))
    have hclamp : max 0 (min 255 x) = 0 := max_eq_left ((min_le_right _ _).trans hneg.le)
    have hzero : ⌊(0 : QNum) + 1 / 2⌋ = 0 := by norm_num
    rw [hclamp, hzero]
    unfold clamp255
    omega
  rcases lt_or_ge 255 x with hbig | hsmall
  · have hfloor : 255 ≤ ⌊x + 1 / 2⌋ := Int.le_floor.mpr (by push_cast; linarith)
    have hclamp : max 0 (min 255 x) = 255 := by rw [min_eq_left hbig.le]; norm_num
    have htop : ⌊(255 : QNum) + 1 / 2⌋ = 255 := by norm_num [Int.floor_eq_iff]
    rw [hclamp, htop]
    unfold clamp255
    omega
  · rw [min_eq_right hsmall, max_eq_right hnonneg]

/-- Settles O16: the sample is the clamped floor, and clamping commutes with rounding. -/
theorem roundingToASample : Obligations.RoundingToASample :=
  fun x => ⟨toNat_tou8 x, (toNat_tou8 x).trans (clamp255_floor_clamp x).symm⟩

end Sys2Proof.Machine
end

section
/-! PROOFS. 10_state.md, O43 and O44: what the commands leave unchanged. First the frames of the two composite
commands, each a projection of the state whose value they keep; then the table of the writers. -/

namespace Sys2Proof.Machine

variable {ν : Type} {cfg : Config ν} {s t : State.Of ν}

/-! ### Frames -/

/-- What no command writes (10_state.md R21 to R24, R37, R42, R49): the host's operands, the latched word and the
boundary. -/
def hostPart (s : State.Of ν) :=
  (s.regs.width, s.regs.height, s.regs.qstep, s.regs.textlen, s.ctrl, s.mem.txt, s.mem.epoch, s.flags.ovr, s.cmdl, s.port)

/-- What `EMBED` does not write. -/
def embedFrame (s : State.Of ν) :=
  (hostPart s, s.flags.found, s.flags.bitout, s.regs.capacity, s.regs.outlen, s.mem.out)

/-- What `EXTRACT` does not write. -/
def extractFrame (s : State.Of ν) := (hostPart s, s.flags.trunc, s.regs.capacity, s.mem.pix)

theorem hostPart_eq_of_embedFrame_eq (h : embedFrame t = embedFrame s) : hostPart t = hostPart s :=
  congrArg Prod.fst h

theorem hostPart_eq_of_extractFrame_eq (h : extractFrame t = extractFrame s) : hostPart t = hostPart s :=
  congrArg Prod.fst h

/-- `ITNEXT` writes the position and `ITVALID` only (42_block_iterator.md R173). -/
theorem itnext_moves (ht : itnext s = .ok t) :
    ∃ i j v, t = { s with regs := { s.regs with iti := i, itj := j }, flags := { s.flags with itvalid := v } } := by
  rcases itnext_cases s with ⟨-, e⟩ | ⟨-, -, e⟩ | ⟨-, -, -, e⟩ | ⟨-, -, -, e⟩ <;>
    (cases e.symm.trans ht; exact ⟨_, _, _, rfl⟩)

theorem embedBlock_embedFrame {b : Bool} (ht : embedBlock cfg b s = .ok t) : embedFrame t = embedFrame s := by
  obtain ⟨-, -, x, y, z, -, -, -, rfl⟩ := embedBlock_ok.mp ht
  rfl

theorem itnext_embedFrame (ht : itnext s = .ok t) : embedFrame t = embedFrame s := by
  obtain ⟨i, j, v, rfl⟩ := itnext_moves ht
  rfl

theorem embedLoop_embedFrame {n fuel k : Nat} {p : Nat × State.Of ν} (hp : embedLoop cfg n fuel k s = .ok p) :
    embedFrame p.2 = embedFrame s := by
  induction fuel generalizing k s with
  | zero => cases hp; rfl
  | succ fuel ih =>
    rcases embedLoop_succ_ok.mp hp with ⟨-, rfl⟩ | ⟨-, s1, s2, hblock, hnext, hloop⟩
    · rfl
    · rw [ih hloop, itnext_embedFrame hnext, embedBlock_embedFrame hblock]

theorem embed_embedFrame (ht : embed cfg s = .ok t) : embedFrame t = embedFrame s := by
  obtain ⟨-, -, -, -, -, s1, s2, s3, p, s4, h1, h2, h3, h4, h5, rfl⟩ := embed_ok.mp ht
  have hstart : embedFrame s3 = embedFrame s := by
    obtain ⟨-, -, rfl⟩ := t2b_ok.mp h1
    obtain ⟨-, rfl⟩ := cscf_ok.mp h2
    cases h3
    rfl
  obtain ⟨-, rfl⟩ := csci_ok.mp h5
  calc embedFrame _ = embedFrame p.2 := rfl
    _ = embedFrame s3 := embedLoop_embedFrame h4
    _ = embedFrame s := hstart

theorem extractBlock_extractFrame (ht : extractBlock cfg s = .ok t) : extractFrame t = extractFrame s := by
  obtain ⟨-, -, x, y, -, -, rfl⟩ := extractBlock_ok.mp ht
  rfl

theorem itnext_extractFrame (ht : itnext s = .ok t) : extractFrame t = extractFrame s := by
  obtain ⟨i, j, v, rfl⟩ := itnext_moves ht
  rfl

theorem appendBit_extractFrame (s : State.Of ν) : extractFrame (appendBit s) = extractFrame s := rfl

theorem foundText_extractFrame (cfg : Config ν) (s : State.Of ν) : extractFrame (foundText cfg s) = extractFrame s :=
  rfl

theorem extractLoop_extractFrame {fuel : Nat} (ht : extractLoop cfg fuel s = .ok t) :
    extractFrame t = extractFrame s := by
  induction fuel generalizing s with
  | zero => cases ht; rfl
  | succ fuel ih =>
    rcases extractLoop_succ_ok.mp ht with ⟨-, rfl⟩ | ⟨-, s1, hblock, ⟨-, hloop⟩ | ⟨-, s2, hnext, hloop⟩⟩
    · rfl
    · rw [ih hloop, foundText_extractFrame, appendBit_extractFrame, extractBlock_extractFrame hblock]
    · rw [ih hloop, itnext_extractFrame hnext, appendBit_extractFrame, extractBlock_extractFrame hblock]

theorem extract_extractFrame (ht : extract cfg s = .ok t) : extractFrame t = extractFrame s := by
  obtain ⟨-, -, s1, s2, s3, h1, h2, h3, rfl⟩ := extract_ok.mp ht
  have hstart : extractFrame s2 = extractFrame s := by
    obtain ⟨-, rfl⟩ := cscf_ok.mp h1
    cases h2
    rfl
  calc extractFrame _ = extractFrame s3 := rfl
    _ = extractFrame _ := extractLoop_extractFrame h3
    _ = extractFrame s := hstart

theorem effectFor_hostPart (i : Instr) (ht : effectFor cfg i s = .ok t) : hostPart t = hostPart s := by
  cases i with
  | nop => cases ht; rfl
  | t2b => obtain ⟨-, -, rfl⟩ := t2b_ok.mp ht; simp only [hostPart]
  | b2t => obtain ⟨-, rfl⟩ := b2t_ok.mp ht; simp only [hostPart, writeOut]
  | cscf => obtain ⟨-, rfl⟩ := cscf_ok.mp ht; simp only [hostPart]
  | csci => obtain ⟨-, rfl⟩ := csci_ok.mp ht; simp only [hostPart]
  | itrst => cases ht; simp only [hostPart]
  | itnext => obtain ⟨i, j, v, rfl⟩ := itnext_moves (s := s) ht; simp only [hostPart]
  | blkld => obtain ⟨-, rfl⟩ := blkld_ok.mp ht; simp only [hostPart]
  | blkst => obtain ⟨-, rfl⟩ := blkst_ok.mp ht; simp only [hostPart]
  | fdct => cases ht; simp only [hostPart]
  | idct => cases ht; simp only [hostPart]
  | qemb b => obtain ⟨-, rfl⟩ := qemb_ok.mp ht; simp only [hostPart]
  | qext => obtain ⟨-, rfl⟩ := qext_ok.mp ht; simp only [hostPart]
  | cap => obtain ⟨-, rfl⟩ := cap_ok.mp ht; simp only [hostPart]
  | embed => exact hostPart_eq_of_embedFrame_eq (embed_embedFrame ht)
  | extract => exact hostPart_eq_of_extractFrame_eq (extract_extractFrame ht)

/-- A command that ends at `t` has raised an error at `s`, or has completed its effect (00_scope.md R12). -/
theorem execFor_next_cases {i : Instr} (ht : execFor cfg i s = .next t) :
    (∃ e, effectFor cfg i s = .error e ∧ t = raiseErr e s) ∨ ∃ u, effectFor cfg i s = .ok u ∧ t = complete u := by
  rw [execFor_eq_finish] at ht
  rcases finish_cases s (effectFor cfg i s) with ⟨u, hu, e⟩ | ⟨err, herr, e⟩ <;> cases e.symm.trans ht
  · exact .inr ⟨u, hu, rfl⟩
  · exact .inl ⟨err, herr, rfl⟩

theorem complete_hostPart (s : State.Of ν) : hostPart (complete s) = hostPart s := rfl

theorem execFor_hostPart {i : Instr} (ht : execFor cfg i s = .next t) : hostPart t = hostPart s := by
  rcases execFor_next_cases ht with ⟨e, -, rfl⟩ | ⟨u, hu, rfl⟩
  · rfl
  · exact (complete_hostPart u).trans (effectFor_hostPart i hu)

theorem port_eq_of_hostPart_eq (h : hostPart t = hostPart s) : t.port = s.port := by
  simp only [hostPart, Prod.mk.injEq] at h
  simp only [h]

theorem cmdl_eq_of_hostPart_eq (h : hostPart t = hostPart s) : t.cmdl = s.cmdl := by
  simp only [hostPart, Prod.mk.injEq] at h
  simp only [h]

theorem exec_hostPart {i : Instr} {s t : State} (ht : exec i s = .next t) : hostPart t = hostPart s :=
  execFor_hostPart (exec_eq_execFor i s ▸ ht)

/-- Settles O43: the effect of each command keeps the host's part of the state, and so do both ways to complete. -/
theorem noCommandWritesTheHostOperands : Obligations.NoCommandWritesTheHostOperands := by
  intro i s t ht
  have hkept := exec_hostPart ht
  simpa only [hostPart, Prod.mk.injEq] using hkept

/-! ### The writers of the result registers, flags and buffers -/

/-- From `s` to `t` nothing has changed that the rules do not let the command `i` write (10_state.md R25 to R30, R35,
R36, R38, R39, R45 to R53). -/
structure WritesOnlyItsOwn (i : Instr) (s t : State.Of ν) : Prop where
  found : i ≠ .extract → t.flags.found = s.flags.found
  trunc : i ≠ .embed → t.flags.trunc = s.flags.trunc
  bitout : i ∉ [.qext, .extract] → t.flags.bitout = s.flags.bitout
  iterator : i ∉ [.itrst, .itnext, .embed, .extract] →
    t.flags.itvalid = s.flags.itvalid ∧ t.regs.iti = s.regs.iti ∧ t.regs.itj = s.regs.itj
  bitcur : i ∉ [.embed, .extract] → t.regs.bitcur = s.regs.bitcur
  capacity : i ≠ .cap → t.regs.capacity = s.regs.capacity
  bits : i ∉ [.t2b, .embed, .extract] → t.regs.nbits = s.regs.nbits ∧ t.mem.bits = s.mem.bits
  out : i ∉ [.b2t, .extract] → t.regs.outlen = s.regs.outlen ∧ t.mem.out = s.mem.out
  pix : i ∉ [.csci, .embed] → t.mem.pix = s.mem.pix
  chroma : i ∉ [.cscf, .embed, .extract] → t.mem.chr1 = s.mem.chr1 ∧ t.mem.chr2 = s.mem.chr2
  luma : i ∉ [.cscf, .blkst, .embed, .extract] → t.mem.luma = s.mem.luma
  blk : i ∉ [.blkld, .idct, .embed, .extract] → t.blk = s.blk
  coef : i ∉ [.fdct, .qemb false, .qemb true, .embed, .extract] → t.coef = s.coef

theorem WritesOnlyItsOwn.refl (i : Instr) (s : State.Of ν) : WritesOnlyItsOwn i s s := by
  constructor <;> intro _ <;> simp only [and_self]

theorem effectFor_writesOnlyItsOwn (i : Instr) (ht : effectFor cfg i s = .ok t) : WritesOnlyItsOwn i s t := by
  cases i with
  | nop => cases ht; exact .refl _ _
  | t2b => obtain ⟨-, -, rfl⟩ := t2b_ok.mp ht; constructor <;> simp
  | b2t => obtain ⟨-, rfl⟩ := b2t_ok.mp ht; constructor <;> simp [writeOut]
  | cscf => obtain ⟨-, rfl⟩ := cscf_ok.mp ht; constructor <;> simp
  | csci => obtain ⟨-, rfl⟩ := csci_ok.mp ht; constructor <;> simp
  | itrst => cases ht; constructor <;> simp
  | itnext => obtain ⟨i, j, v, rfl⟩ := itnext_moves (s := s) ht; constructor <;> simp
  | blkld => obtain ⟨-, rfl⟩ := blkld_ok.mp ht; constructor <;> simp
  | blkst => obtain ⟨-, rfl⟩ := blkst_ok.mp ht; constructor <;> simp
  | fdct => cases ht; constructor <;> simp
  | idct => cases ht; constructor <;> simp
  | qemb b => obtain ⟨-, rfl⟩ := qemb_ok.mp ht; constructor <;> cases b <;> simp
  | qext => obtain ⟨-, rfl⟩ := qext_ok.mp ht; constructor <;> simp
  | cap => obtain ⟨-, rfl⟩ := cap_ok.mp ht; constructor <;> simp
  | embed =>
    have hkept := embed_embedFrame ht
    simp only [embedFrame, Prod.mk.injEq] at hkept
    obtain ⟨-, hfound, hbitout, hcapacity, houtlen, hout⟩ := hkept
    constructor <;> simp [*]
  | extract =>
    have hkept := extract_extractFrame ht
    simp only [extractFrame, Prod.mk.injEq] at hkept
    obtain ⟨-, htrunc, hcapacity, hpix⟩ := hkept
    constructor <;> simp [*]

/-- Settles O44: an error writes none of them, and a completed effect writes those of its rule. -/
theorem stateIsWrittenOnlyByItsCommands : Obligations.StateIsWrittenOnlyByItsCommands := by
  intro i s t ht
  obtain ⟨h1, h2, h3, h4, h5, h6, h7, h8, h9, h10, h11, h12, h13⟩ : WritesOnlyItsOwn i s t := by
    rcases execFor_next_cases (exec_eq_execFor i s ▸ ht) with ⟨e, -, rfl⟩ | ⟨u, hu, rfl⟩
    · exact { WritesOnlyItsOwn.refl i s with }
    · exact { effectFor_writesOnlyItsOwn i hu with }
  exact ⟨h1, h2, h3, h4, h5, h6, h7, h8, h9, h10, h11, h12, h13⟩

end Sys2Proof.Machine
end

section
/-! PROOFS. 10_state.md, O59: every step keeps the invariant. First what the effects leave in `OUTLEN`, `BITCUR`,
`CAPACITY`, `FOUND` and `TRUNC`; then the Engine's turn, the host's accesses and the input `rst`. -/

namespace Sys2Proof.Machine

variable {ν : Type} {cfg : Config ν} {s t : State.Of ν}

/-! ### The results of the effects fit their registers -/

theorem toNat_ofNat_le (w m : Nat) : (BitVec.ofNat w m).toNat ≤ m := by
  rw [BitVec.toNat_ofNat]
  exact Nat.mod_le _ _

theorem writeOut_outlen_le {n : Nat} (hn : n ≤ cfg.maxbits) :
    (writeOut cfg (n / 8) s).regs.outlen.toNat ≤ cfg.maxout :=
  (toNat_ofNat_le _ _).trans (Nat.div_le_div_right hn)

theorem b2t_outlen_le (ht : b2t cfg s = .ok t) : t.regs.outlen.toNat ≤ cfg.maxout := by
  obtain ⟨hlen, rfl⟩ := b2t_ok.mp ht
  have hn := badBitLen_eq_false.mp hlen
  refine writeOut_outlen_le ?_
  unfold bitsToGroup
  split_ifs <;> omega

theorem cap_capacity_le (ht : cap cfg s = .ok t) : t.regs.capacity.toNat ≤ nb cfg.maxw * nb cfg.maxh := by
  obtain ⟨himg, rfl⟩ := cap_ok.mp ht
  obtain ⟨-, hw, -, hh⟩ := badImage_eq_false.mp himg
  calc (BitVec.ofNat 32 s.blocks).toNat ≤ nb s.h * nb s.w := toNat_ofNat_le _ _
    _ ≤ nb cfg.maxh * nb cfg.maxw := Nat.mul_le_mul (nb_mono hh) (nb_mono hw)
    _ = nb cfg.maxw * nb cfg.maxh := Nat.mul_comm _ _

/-- The loop of `EMBED` embeds no bit past the last one (45_orchestrator.md R231). -/
theorem embedLoop_count_le {n fuel k : Nat} {p : Nat × State.Of ν} (hk : k ≤ n)
    (hp : embedLoop cfg n fuel k s = .ok p) : p.1 ≤ n := by
  induction fuel generalizing k s with
  | zero => cases hp; exact hk
  | succ fuel ih =>
    rcases embedLoop_succ_ok.mp hp with ⟨-, rfl⟩ | ⟨hgo, s1, s2, -, -, hloop⟩
    · exact hk
    · have hlt : k < n := by simp_all
      exact ih hlt hloop

theorem embed_bitcur_le (ht : embed cfg s = .ok t) : t.regs.bitcur.toNat ≤ cfg.maxbits := by
  obtain ⟨-, -, hlen, -, -, s1, s2, s3, p, s4, -, -, -, hloop, -, rfl⟩ := embed_ok.mp ht
  calc (BitVec.ofNat 32 p.1).toNat ≤ p.1 := toNat_ofNat_le _ _
    _ ≤ s.payloadBits := embedLoop_count_le (Nat.zero_le _) hloop
    _ ≤ cfg.maxbits := payloadBits_le_maxbits hlen

/-- What holds at the head of the loop of `EXTRACT` with `left` passes to go: the bits still to come fit, the text
decoded fits, and a text found ends where the last bit read, the last 0 of the delimiter, stands
(45_orchestrator.md R232). -/
structure ExtractProgress (cfg : Config ν) (left : Nat) (s : State.Of ν) : Prop where
  room : s.nBits + left ≤ cfg.maxbits
  outlen : s.regs.outlen.toNat ≤ cfg.maxout
  found : s.flags.found = true →
    s.flags.itvalid = true ∧ s.flags.bitout = false ∧ 8 * s.regs.outlen.toNat + 16 ≤ s.nBits

/-- Where the bits read end with the delimiter, there are sixteen of them and the last one is 0
(40_bit_codec.md R130). -/
theorem endsWithDelim_last {bit : Nat → Bool} {n : Nat} (h : endsWithDelim bit n = true) :
    16 ≤ n ∧ bit (n - 1) = false := by
  simp only [endsWithDelim, Bool.and_eq_true, decide_eq_true_eq, List.all_eq_true, List.mem_range, beq_iff_eq] at h
  obtain ⟨hlen, hbits⟩ := h
  have hlast := hbits 15 (by omega)
  rw [show n - 16 + 15 = n - 1 by omega] at hlast
  exact ⟨hlen, hlast⟩

/-- The bit that `EXTRACT` appends is the last one it has read. -/
theorem appendBit_last (hn : (appendBit s).nBits = s.nBits + 1) :
    (appendBit s).mem.bit cfg ((appendBit s).nBits - 1) = s.flags.bitout := by
  rw [hn, Nat.add_sub_cancel]
  simp [Memory.bit, appendBit]

theorem extractBlock_writes (ht : extractBlock cfg s = .ok t) :
    ∃ x y b, t = { s with blk := x, coef := y, flags := { s.flags with bitout := b } } := by
  obtain ⟨-, -, x, y, -, -, rfl⟩ := extractBlock_ok.mp ht
  exact ⟨_, _, _, rfl⟩

theorem foundText_progress {left : Nat} (hroom : s.nBits + left ≤ cfg.maxbits) (hvalid : s.flags.itvalid = true)
    (hlen : 16 ≤ s.nBits) (hlast : s.flags.bitout = false) : ExtractProgress cfg left (foundText cfg s) where
  room := hroom
  outlen := writeOut_outlen_le (by omega)
  found _ := by
    have houtlen := toNat_ofNat_le 32 ((s.nBits - 16) / 8)
    refine ⟨hvalid, hlast, ?_⟩
    change 8 * (BitVec.ofNat 32 ((s.nBits - 16) / 8)).toNat + 16 ≤ s.nBits
    omega

theorem extractLoop_progress {fuel : Nat} (hmax : cfg.maxbits < 2 ^ 32) (h : ExtractProgress cfg fuel s)
    (ht : extractLoop cfg fuel s = .ok t) : ExtractProgress cfg 0 t := by
  induction fuel generalizing s with
  | zero => cases ht; exact h
  | succ fuel ih =>
    rcases extractLoop_succ_ok.mp ht with ⟨-, rfl⟩ | ⟨hgo, s1, hblock, hrest⟩
    · exact { h with room := (Nat.le_add_right _ _).trans h.room }
    simp only [Bool.and_eq_true, Bool.not_eq_true'] at hgo
    obtain ⟨hvalid, hnone⟩ := hgo
    have hroom := h.room
    obtain ⟨x, y, b, rfl⟩ := extractBlock_writes hblock
    have hcount : (appendBit _).nBits = s.nBits + 1 :=
      appendBit_nBits (s := { s with blk := x, coef := y, flags := { s.flags with bitout := b } })
        (by change s.nBits + 1 < 2 ^ 32; omega)
    have hroom' : (appendBit _).nBits + fuel ≤ cfg.maxbits := hcount ▸ (by omega : s.nBits + 1 + fuel ≤ cfg.maxbits)
    rcases hrest with ⟨hends, hloop⟩ | ⟨-, s2, hnext, hloop⟩
    · obtain ⟨hlen, hlast⟩ := endsWithDelim_last hends
      rw [appendBit_last hcount] at hlast
      exact ih (foundText_progress hroom' hvalid hlen hlast) hloop
    · obtain ⟨i, j, v, rfl⟩ := itnext_moves hnext
      refine ih ?_ hloop
      exact ⟨hroom', h.outlen, fun hfound => by cases hnone.symm.trans hfound⟩

theorem extract_progress (hcfg : cfg.wf = true) (ht : extract cfg s = .ok t) :
    ExtractProgress cfg 0 t ∧ t.regs.bitcur = t.regs.nbits := by
  obtain ⟨himg, -, s1, s2, s3, -, -, hloop, rfl⟩ := extract_ok.mp ht
  have hmax : cfg.maxbits < 2 ^ 32 := (Config.maxbits_le_of_wf hcfg).trans_lt (by norm_num)
  have hstart : 0 + s.blocks ≤ cfg.maxbits := (Nat.zero_add _).trans_le (blocks_le_maxbits himg)
  have h := extractLoop_progress hmax ⟨by exact hstart, Nat.zero_le _, fun h => Bool.noConfusion h⟩ hloop
  exact ⟨{ h with }, rfl⟩

/-! ### The Engine's turn -/

theorem effectFor_outlen_le (hcfg : cfg.wf = true) (i : Instr) (h : s.regs.outlen.toNat ≤ cfg.maxout)
    (ht : effectFor cfg i s = .ok t) : t.regs.outlen.toNat ≤ cfg.maxout := by
  by_cases hb2t : i = .b2t
  · subst hb2t; exact b2t_outlen_le ht
  by_cases hextract : i = .extract
  · subst hextract
    obtain ⟨hprogress, -⟩ := extract_progress hcfg ht
    exact hprogress.outlen
  · obtain ⟨houtlen, -⟩ := (effectFor_writesOnlyItsOwn i ht).out (by simp [hb2t, hextract])
    exact houtlen ▸ h

theorem effectFor_bitcur_le (hcfg : cfg.wf = true) (i : Instr) (h : s.regs.bitcur.toNat ≤ cfg.maxbits)
    (ht : effectFor cfg i s = .ok t) : t.regs.bitcur.toNat ≤ cfg.maxbits := by
  by_cases hembed : i = .embed
  · subst hembed; exact embed_bitcur_le ht
  by_cases hextract : i = .extract
  · subst hextract
    obtain ⟨hprogress, hbitcur⟩ := extract_progress hcfg ht
    exact hbitcur ▸ hprogress.room
  · rw [(effectFor_writesOnlyItsOwn i ht).bitcur (by simp [hembed, hextract])]
    exact h

theorem effectFor_capacity_le (i : Instr) (h : s.regs.capacity.toNat ≤ nb cfg.maxw * nb cfg.maxh)
    (ht : effectFor cfg i s = .ok t) : t.regs.capacity.toNat ≤ nb cfg.maxw * nb cfg.maxh := by
  by_cases hcap : i = .cap
  · subst hcap; exact cap_capacity_le ht
  · rw [(effectFor_writesOnlyItsOwn i ht).capacity hcap]
    exact h

/-- Only `EXTRACT` sets `FOUND` of a command issued with it clear, and then it means what 10_state.md R35 says. -/
theorem effectFor_found (hcfg : cfg.wf = true) (i : Instr) (hnone : s.flags.found = false)
    (htrunc : s.flags.trunc = false) (ht : effectFor cfg i s = .ok t) (hfound : t.flags.found = true) :
    t.flags.trunc = false ∧ t.flags.itvalid = true ∧ t.flags.bitout = false ∧
      8 * t.regs.outlen.toNat + 16 ≤ t.regs.bitcur.toNat := by
  have hwrites := effectFor_writesOnlyItsOwn i ht
  by_cases hextract : i = .extract
  · subst hextract
    obtain ⟨hprogress, hbitcur⟩ := extract_progress hcfg ht
    exact ⟨(hwrites.trunc nofun).trans htrunc, hbitcur ▸ hprogress.found hfound⟩
  · rw [hwrites.found hextract, hnone] at hfound
    cases hfound

theorem of_released_of_reset {p : Prop} (hrst : s.port.rst = false) (hreset : s.port.rst = true) : p := by
  cases hrst.symm.trans hreset

theorem of_idle_of_busy {p : Prop} (hidle : s.phase = .idle) (hbusy : s.phase = .busy) : p := by
  cases hidle.symm.trans hbusy

section Running

variable (h : s.Inv cfg) (hbusy : s.phase = .busy) (hrst : s.port.rst = false)
include h hbusy hrst

theorem State.Of.Inv.raiseErr (e : Err) : (raiseErr e s).Inv cfg where
  memory := h.memory
  running := nofun
  outlen := h.outlen
  bitcur := h.bitcur
  capacity := h.capacity
  found hfound := by
    obtain ⟨-, hnone, -⟩ := h.running hbusy
    cases hnone.symm.trans hfound
  trunc htrunc := by
    obtain ⟨-, -, hnone, -⟩ := h.running hbusy
    cases hnone.symm.trans htrunc
  reset := of_released_of_reset hrst

theorem State.Of.Inv.complete (hcfg : cfg.wf = true) {i : Instr} (ht : effectFor cfg i s = .ok t) :
    (complete t).Inv cfg where
  memory := effectFor_keeps_memory_wf (t := t) hcfg i h.memory ht
  running := nofun
  outlen := effectFor_outlen_le (t := t) hcfg i h.outlen ht
  bitcur := effectFor_bitcur_le (t := t) hcfg i h.bitcur ht
  capacity := effectFor_capacity_le (t := t) i h.capacity ht
  found hfound := by
    obtain ⟨-, hnone, htrunc, -⟩ := h.running hbusy
    exact ⟨rfl, effectFor_found (t := t) hcfg i hnone htrunc ht hfound⟩
  trunc _ := rfl
  reset hreset := by
    have hport := port_eq_of_hostPart_eq (effectFor_hostPart i ht)
    exact of_released_of_reset (hport ▸ hrst) hreset

theorem completion_inv (hcfg : cfg.wf = true) (ht : completion (execFor cfg) s = .next t) : t.Inv cfg := by
  unfold completion at ht
  split at ht
  · rcases execFor_next_cases ht with ⟨e, -, rfl⟩ | ⟨u, hu, rfl⟩
    · exact h.raiseErr hbusy hrst e
    · exact h.complete hbusy hrst hcfg hu
  · cases ht
    exact h.raiseErr hbusy hrst .illcmd

end Running

theorem engineTurn_inv (hcfg : cfg.wf = true) (h : s.Inv cfg) (ht : engineTurn (execFor cfg) s = .next t) :
    t.Inv cfg := by
  unfold engineTurn at ht
  split_ifs at ht with hrst
  · cases ht; exact h
  · split at ht
    · cases ht; exact h
    · next hbusy => exact completion_inv h hbusy (Bool.not_eq_true _ ▸ hrst) hcfg ht

/-! ### The host's accesses and the input `rst` -/

theorem State.Of.Inv.takeTurn (h : s.Inv cfg) (ts : List Turn) : (takeTurn ts s).Inv cfg := { h with }

theorem State.Of.Inv.respond (h : s.Inv cfg) (r : PortResp) : (respond r s).Inv cfg := { h with }

theorem read4_inv (h : s.Inv cfg) (off : Nat) : (read4 cfg off s).Inv cfg := by
  unfold read4
  split <;> exact h.respond _

theorem read1_inv (h : s.Inv cfg) (off : Nat) : (read1 cfg off s).Inv cfg := by
  unfold read1
  split <;> exact h.respond _

section Released

variable (h : s.Inv cfg) (hrst : s.port.rst = false)
include h hrst

theorem State.Of.Inv.writeBusy : (writeBusy s).Inv cfg :=
  { h with reset := of_released_of_reset hrst }

theorem State.Of.Inv.withMem {m : Memory ν} (hm : m.wf cfg = true) : ({ s with mem := m } : State.Of ν).Inv cfg :=
  { h with memory := hm, reset := of_released_of_reset hrst }

theorem State.Of.Inv.issue (w : Word) : (issue w s).Inv cfg :=
  { h with
    running := fun _ => ⟨rfl, rfl, rfl, rfl⟩
    found := nofun
    trunc := nofun
    reset := of_released_of_reset hrst }

/-- A host write to a register of an idle core changes none of the results that the invariant speaks of; a write to
`CMD` clears the flags. -/
theorem State.Of.Inv.writeReg (hidle : s.phase = .idle) (r : Reg) (v : Word) : (writeReg r v s).Inv cfg := by
  cases r with
  | cmd => exact h.issue hrst v
  | id | outlen | bitcur | capacity | reserved => exact h
  | ctrl | status | width | height | qstep | textlen | nbits | iti | itj =>
    exact { h with running := of_idle_of_busy hidle, reset := of_released_of_reset hrst }

theorem State.Of.Inv.writeWordIdle (hidle : s.phase = .idle) {g : Region} (v : Word)
    (hg : ∀ k, g = .txt k → k < cfg.maxtext) : (writeWordIdle cfg g v s).Inv cfg := by
  have hmem := writeWordIdle_keeps_memory_wf v h.memory hg
  cases g with
  | reg r => exact h.writeReg hrst hidle r v
  | blkw k | coefw k => exact { h with reset := of_released_of_reset hrst }
  | out k => exact h
  | txt k | bits k | pix a => exact h.withMem hrst hmem

theorem write4_inv (off : Nat) (v : Word) : (write4 cfg off v s).Inv cfg := by
  unfold write4
  split
  · exact h.respond _
  · next g hg =>
    refine State.Of.Inv.respond ?_ _
    split_ifs with hbusy
    · exact h.writeBusy hrst
    · have hidle : s.phase = .idle := by
        cases hp : s.phase <;> simp_all [State.Of.busy]
      exact h.writeWordIdle hrst hidle v fun k hk => wordRegion_txt_lt (hk ▸ hg)

theorem write1_inv (off : Nat) (v : Byte) : (write1 cfg off v s).Inv cfg := by
  unfold write1
  split
  · exact h.respond _
  · refine State.Of.Inv.respond ?_ _
    split_ifs
    · exact h.writeBusy hrst
    · exact h.withMem hrst (wf_writePix _ v h.memory)

theorem accessAt_inv (op : PortOp) (off : Nat) : (accessAt cfg op off s).Inv cfg := by
  cases op with
  | read4 a => exact read4_inv h off
  | write4 a v => exact write4_inv h hrst off v
  | read1 a => exact read1_inv h off
  | write1 a v => exact write1_inv h hrst off v

end Released

theorem portAccess_inv (op : PortOp) (h : s.Inv cfg) : (portAccess cfg op s).Inv cfg := by
  unfold portAccess
  split
  · exact h
  · split_ifs with hrst
    · cases op <;> exact h.respond _
    · exact accessAt_inv h (Bool.not_eq_true _ ▸ hrst) op _

/-- The state after a reset has the invariant, whatever the boundary (70_reset_and_hazards.md R291). -/
theorem afterReset_inv (cfg : Config ν) (epoch : Nat) (port : Boundary) :
    (State.Of.afterReset cfg epoch port).Inv cfg where
  memory := Memory.wf_unwritten cfg epoch
  running := nofun
  outlen := Nat.zero_le _
  bitcur := Nat.zero_le _
  capacity := Nat.zero_le _
  found := nofun
  trunc := nofun
  reset _ := ⟨rfl, rfl, rfl, rfl, rfl, rfl⟩

theorem resetInput_inv (level : Bool) (h : s.Inv cfg) : (resetInput cfg level s).Inv cfg := by
  unfold resetInput
  split_ifs
  · exact h
  · exact afterReset_inv cfg _ _
  · exact { h with reset := nofun }

/-! ### The step -/

theorem stepFor_inv (hcfg : cfg.wf = true) (h : s.Inv cfg) (ht : stepFor cfg s = .next t) : t.Inv cfg := by
  unfold stepFor at ht
  match hturns : s.port.turns with
  | [] =>
    rw [turnStep_nil _ _ hturns] at ht
    exact engineTurn_inv hcfg (h.takeTurn []) ht
  | .engine :: ts =>
    rw [turnStep_engine _ _ hturns] at ht
    exact engineTurn_inv hcfg (h.takeTurn ts) ht
  | .port op :: ts =>
    cases (turnStep_port _ _ hturns).symm.trans ht
    exact portAccess_inv op (h.takeTurn ts)
  | .rst level :: ts =>
    cases (turnStep_rst _ _ hturns).symm.trans ht
    exact resetInput_inv level (h.takeTurn ts)

theorem default_wf : Config.default.wf = true := by decide

/-- Settles O59: the loop of `EXTRACT` carries the meaning of `FOUND`; the other clauses follow from who writes
what. -/
theorem stepKeepsTheInvariant : Obligations.StepKeepsTheInvariant :=
  fun s _ h ht => stepFor_inv default_wf h (step_eq_stepFor s ▸ ht)

end Sys2Proof.Machine
end

section
/-! PROOFS. 10_state.md, O4, O7 and O8: the Engine's turn runs the latched command, and an issued command completes. -/

namespace Sys2Proof.Machine

variable {s t : State}

/-! ### The Engine's turn -/

theorem step_of_engineNext {ts : List Turn} (h : EngineNext s ts) : step s = engineTurn exec (taken ts s) := by
  rcases h with hturns | ⟨hturns, rfl⟩
  · exact turnStep_engine _ _ hturns
  · exact turnStep_nil _ _ hturns

theorem engineTurn_busy (hrst : s.port.rst = false) (hbusy : s.phase = .busy) :
    engineTurn exec s = completion exec s := by
  simp [engineTurn, hrst, hbusy]

theorem engineTurn_idle (hidle : s.phase = .idle) : engineTurn exec s = .next s := by
  simp [engineTurn, hidle]

theorem completion_of_decode {i : Instr} (hi : decode s.cmdl = .ok i) : completion exec s = exec i s := by
  simp only [completion, hi]

/-- Settles O4: the Engine's turn, at a word that decodes and at an idle core. -/
theorem stepRunsTheDecodedCommand : Obligations.StepRunsTheDecodedCommand := by
  refine fun s ts h => ⟨fun i hrst hbusy hi => ?_, fun hidle => ?_⟩
  · rw [step_of_engineNext h, engineTurn_busy (s := taken ts s) hrst hbusy, completion_of_decode (s := taken ts s) hi]
  · rw [step_of_engineNext h, engineTurn_idle (s := taken ts s) hidle]

/-! ### Completion -/

theorem exec_completes (i : Instr) (s : State) :
    ∃ t, exec i s = .next t ∧ t.phase = .idle ∧ t.flags.done = true := by
  rw [exec_eq_execFor, execFor_eq_finish]
  rcases finish_cases s (effectFor Config.default i s) with ⟨u, -, e⟩ | ⟨err, -, e⟩
  · exact ⟨_, e, rfl, rfl⟩
  · exact ⟨_, e, rfl, rfl⟩

/-- Settles O7: both ways a command ends leave it idle with `DONE` set. -/
theorem everyCommandCompletes : Obligations.EveryCommandCompletes := exec_completes

/-- At the Engine's turn a busy core completes, also on an illegal word, and keeps the latched word. -/
theorem step_completes {ts : List Turn} (h : EngineNext s ts) (hrst : s.port.rst = false) (hbusy : s.phase = .busy) :
    ∃ t, step s = .next t ∧ t.phase = .idle ∧ t.flags.done = true ∧ t.cmdl = s.cmdl := by
  rw [step_of_engineNext h, engineTurn_busy (s := taken ts s) hrst hbusy]
  unfold completion
  split
  · next i _ =>
    obtain ⟨t, ht, hidle, hdone⟩ := exec_completes i (taken ts s)
    exact ⟨t, ht, hidle, hdone, cmdl_eq_of_hostPart_eq (s := taken ts s) (exec_hostPart ht)⟩
  · exact ⟨_, rfl, rfl, rfl, rfl⟩

/-! ### The turns of the host before it -/

/-- What a host access to a busy core out of reset leaves in place: the running command and the turns to come
(20_memory.md R79). -/
theorem accessAt_busy {ν : Type} {s : State.Of ν} (cfg : Config ν) (op : PortOp) (off : Nat) (hbusy : s.phase = .busy) :
    (accessAt cfg op off s).phase = .busy ∧ (accessAt cfg op off s).cmdl = s.cmdl ∧
      (accessAt cfg op off s).port.rst = s.port.rst ∧ (accessAt cfg op off s).port.turns = s.port.turns := by
  have hb : s.busy = true := decide_eq_true hbusy
  cases op with
  | read4 a => simp only [accessAt, read4]; split <;> exact ⟨hbusy, rfl, rfl, rfl⟩
  | write4 a v => simp only [accessAt, write4, hb, if_true]; split <;> exact ⟨hbusy, rfl, rfl, rfl⟩
  | read1 a => simp only [accessAt, read1]; split <;> exact ⟨hbusy, rfl, rfl, rfl⟩
  | write1 a v => simp only [accessAt, write1, hb, if_true]; split <;> exact ⟨hbusy, rfl, rfl, rfl⟩

theorem portAccess_busy {ν : Type} {s : State.Of ν} (cfg : Config ν) (op : PortOp) (hbusy : s.phase = .busy)
    (hrst : s.port.rst = false) :
    (portAccess cfg op s).phase = .busy ∧ (portAccess cfg op s).cmdl = s.cmdl ∧
      (portAccess cfg op s).port.rst = s.port.rst ∧ (portAccess cfg op s).port.turns = s.port.turns := by
  unfold portAccess
  split
  · exact ⟨hbusy, rfl, rfl, rfl⟩
  · simpa only [hrst, Bool.false_eq_true, if_false] using accessAt_busy cfg op _ hbusy

/-- Settles O8, by induction on the turns to come: an access of the host leaves the command running, and the Engine's
turn, or the end of the list, completes it. -/
theorem issuedCommandCompletes : Obligations.IssuedCommandCompletes := by
  intro s hbusy hrst hnorst
  generalize hturns : s.port.turns = turns at hnorst
  induction turns generalizing s with
  | nil =>
    obtain ⟨t, ht, hend⟩ := step_completes (.inr ⟨hturns, rfl⟩) hrst hbusy
    exact ⟨1, t, le_rfl, by simp, by simp [Host.Core.run, core, ht], hend⟩
  | cons turn ts ih =>
    cases turn with
    | engine =>
      obtain ⟨t, ht, hend⟩ := step_completes (.inl hturns) hrst hbusy
      exact ⟨1, t, le_rfl, by simp, by simp [Host.Core.run, core, ht], hend⟩
    | rst level => exact absurd List.mem_cons_self (hnorst level)
    | port op =>
      have hstep : step s = .next (portAccess Config.default op (takeTurn ts s)) := turnStep_port _ _ hturns
      obtain ⟨hbusy', hcmdl, hrst', hturns'⟩ :=
        portAccess_busy Config.default op (s := takeTurn ts s) hbusy hrst
      obtain ⟨n, t, hn, hlen, hrun, hidle, hdone, hcmdl'⟩ :=
        ih _ hbusy' (hrst'.trans hrst) hturns' fun b hb => hnorst b (List.mem_cons_of_mem _ hb)
      refine ⟨n + 1, t, by omega, ?_, ?_, hidle, hdone, hcmdl'.trans hcmdl⟩
      · simpa using hlen
      · simpa [Host.Core.run, core, hstep] using hrun

end Sys2Proof.Machine
end

section
/-! PROOFS. 10_state.md, O6, O48, O49, O50, O51 and O54: the host's word accesses to an idle core. First what one word
access does, then the registers, `STATUS`, the probe windows and the text windows. -/

namespace Sys2Proof.Machine

/-! ### A word access to an idle core -/

section Access

variable {s : State} {ts : List Turn} {off : Nat} {g : Region}

theorem step_port {op : PortOp} (hturns : s.port.turns = .port op :: ts) (hrst : s.port.rst = false)
    (haddr : op.addr = Config.default.base + off) (hoff : off < 0x2000000) :
    step s = .next (accessAt Config.default op off (takeTurn ts s)) := by
  have hsel : Config.default.offset? op.addr = some off := offset?_eq_some.mpr ⟨haddr, hoff⟩
  have hrst' : (takeTurn ts s).port.rst = false := hrst
  rw [step, turnStep_port _ _ hturns, portAccess, hsel]
  simp only [hrst', Bool.false_eq_true, if_false]

theorem busy_eq_false (hidle : s.phase = .idle) : s.busy = false := by
  simp [State.Of.busy, hidle]

theorem readWordIdle_takeTurn (g : Region) (s : State) (ts : List Turn) :
    readWordIdle Config.default (takeTurn ts s) g = readWordIdle Config.default s g := by
  cases g with
  | reg r => cases r <;> rfl
  | blkw k | coefw k | txt k | out k | bits k | pix a => rfl

theorem respond_writeWordIdle_takeTurn (g : Region) (v : Word) (r : PortResp) (s : State) (ts : List Turn) :
    respond r (writeWordIdle Config.default g v (takeTurn ts s)) =
      answered ts r (writeWordIdle Config.default g v s) := by
  cases g with
  | reg r => cases r <;> rfl
  | blkw k | coefw k | txt k | out k | bits k | pix a => rfl

/-- The offset of every mapped word lies in the window (20_memory.md R71, R85). -/
theorem wordRegion_default_lt (hg : wordRegion Config.default off = some g) : off < 0x2000000 := by
  have htxt : Config.default.maxtext = 2048 := rfl
  have hout : Config.default.maxout = 2050 := by decide
  have hbits : bitsWords Config.default = 513 := by decide
  have hpix : pixWindow Config.default = 3145728 := by decide
  unfold wordRegion regionAt at hg
  split_ifs at hg <;> omega

theorem step_read4_idle (hturns : s.port.turns = .port (.read4 (Config.default.base + off)) :: ts)
    (hrst : s.port.rst = false) (hidle : s.phase = .idle) (hg : wordRegion Config.default off = some g) :
    step s = .next (answered ts (.okay (.word (readWordIdle Config.default s g))) s) := by
  have hbusy : (takeTurn ts s).busy = false := busy_eq_false hidle
  rw [step_port hturns hrst rfl (wordRegion_default_lt hg)]
  simp only [accessAt, read4, hg, hbusy, Bool.false_eq_true, if_false, readWordIdle_takeTurn]
  rfl

theorem step_write4_idle {v : Word} (hturns : s.port.turns = .port (.write4 (Config.default.base + off) v) :: ts)
    (hrst : s.port.rst = false) (hidle : s.phase = .idle) (hg : wordRegion Config.default off = some g) :
    step s = .next (answered ts (.okay .none) (writeWordIdle Config.default g v s)) := by
  have hbusy : (takeTurn ts s).busy = false := busy_eq_false hidle
  rw [step_port hturns hrst rfl (wordRegion_default_lt hg)]
  simp only [accessAt, write4, hg, hbusy, Bool.false_eq_true, if_false, respond_writeWordIdle_takeTurn]

end Access

/-! ### The registers -/

section Registers

variable {ν : Type} {s : State} {ts : List Turn} {off : Nat} {v : Word}

theorem wordRegion_reg (cfg : Config ν) (hoff : off < 0x100) (h4 : off % 4 = 0) :
    wordRegion cfg off = some (.reg (regAt off)) := by
  simp [wordRegion, regionAt, hoff, h4]

theorem regAt_reserved (hoff : 0x38 ≤ off) : regAt off = .reserved := by
  unfold regAt
  split
  case h_15 => rfl
  all_goals omega

@[simp] theorem writeReg_port (r : Reg) (v : Word) (s : State.Of ν) : (writeReg r v s).port = s.port := by
  cases r <;> rfl

theorem writeReg_phase {r : Reg} (hr : r ≠ .cmd) (v : Word) (s : State.Of ν) : (writeReg r v s).phase = s.phase := by
  cases r with
  | cmd => exact absurd rfl hr
  | id | ctrl | status | width | height | qstep | textlen | nbits | outlen | iti | itj | bitcur | capacity
  | reserved => rfl

theorem readReg_answered (r : Reg) (ts : List Turn) (p : PortResp) (s : State) :
    readReg r (answered ts p s) = readReg r s := by
  cases r <;> rfl

theorem step_readReg (hturns : s.port.turns = .port (.read4 (Config.default.base + off)) :: ts)
    (hrst : s.port.rst = false) (hidle : s.phase = .idle) (hoff : off < 0x100) (h4 : off % 4 = 0) :
    step s = .next (answered ts (.okay (.word (readReg (regAt off) s))) s) :=
  step_read4_idle hturns hrst hidle (wordRegion_reg _ hoff h4)

theorem step_writeReg (hturns : s.port.turns = .port (.write4 (Config.default.base + off) v) :: ts)
    (hrst : s.port.rst = false) (hidle : s.phase = .idle) (hoff : off < 0x100) (h4 : off % 4 = 0) :
    step s = .next (answered ts (.okay .none) (writeReg (regAt off) v s)) :=
  step_write4_idle hturns hrst hidle (wordRegion_reg _ hoff h4)

end Registers

/-- Settles O6: offset 0x0C is that of `CMD`, and a write to it issues the word. -/
theorem hostWriteToCmdIssues : Obligations.HostWriteToCmdIssues :=
  fun _ _ _ hturns hrst hidle => step_writeReg hturns hrst hidle (by decide) (by decide)

theorem setWidth_setWidth_eq_and (v : Word) : (v.setWidth 16).setWidth 32 = v &&& 0xFFFF#32 := by
  apply BitVec.eq_of_toNat_eq
  rw [BitVec.toNat_setWidth, BitVec.toNat_setWidth, BitVec.toNat_and,
    show (0xFFFF#32).toNat = 2 ^ 16 - 1 from rfl, Nat.and_two_pow_sub_one_eq_mod]
  omega

theorem getLsbD_append_flagBit_zero {n : Nat} (x : BitVec n) (b : Bool) : (x ++ flagBit b).getLsbD 0 = b := by
  rw [BitVec.getLsbD_append]
  cases b <;> rfl

theorem getLsbD_append_flagBit_succ {n : Nat} (x : BitVec n) (b : Bool) (i : Nat) :
    (x ++ flagBit b).getLsbD (i + 1) = x.getLsbD i := by
  rw [BitVec.getLsbD_append]
  simp

/-- `CTRL` keeps the two low bits of the word (10_state.md R42). -/
theorem ctrlWord_writeReg (v : Word) (s : State) : (writeReg .ctrl v s).ctrlWord = v &&& 3#32 := by
  have hbits : ∀ i, (writeReg .ctrl v s).ctrlWord.getLsbD i = (v &&& 3#32).getLsbD i := by
    intro i
    rw [State.Of.ctrlWord, BitVec.getLsbD_and]
    rcases i with _ | _ | i
    · rw [getLsbD_append_flagBit_zero]
      simp [writeReg]
    · rw [getLsbD_append_flagBit_succ, getLsbD_append_flagBit_zero]
      simp [writeReg]
    · rw [getLsbD_append_flagBit_succ, getLsbD_append_flagBit_succ]
      simp [BitVec.getLsbD_ofNat, Nat.testBit_succ]
  exact BitVec.eq_of_getLsbD_eq fun i _ => hbits i

/-- Settles O48: each offset names one register, whose write and read are those of `writeReg` and `readReg`. -/
theorem registersReadBackTheirWidth : Obligations.RegistersReadBackTheirWidth := by
  constructor
  · intro s ts off v e hturns hrst hidle hcases
    obtain ⟨hoff, h4⟩ : off < 0x100 ∧ off % 4 = 0 := by omega
    have hreg : regAt off ≠ .cmd ∧ readReg (regAt off) (writeReg (regAt off) v s) = e := by
      rcases hcases with ⟨rfl, rfl⟩ | ⟨rfl, rfl⟩ | ⟨rfl | rfl | rfl | rfl, rfl⟩ | ⟨rfl | rfl | rfl, rfl⟩ | ⟨rfl, rfl⟩ |
        ⟨rfl, rfl⟩ | ⟨rfl, rfl⟩ | ⟨hres, -, -, rfl⟩
      · exact ⟨nofun, rfl⟩
      · exact ⟨nofun, ctrlWord_writeReg v s⟩
      iterate 4 exact ⟨nofun, setWidth_setWidth_eq_and v⟩
      iterate 6 exact ⟨nofun, rfl⟩
      · rw [regAt_reserved hres]
        exact ⟨nofun, rfl⟩
    obtain ⟨hcmd, hread⟩ := hreg
    refine ⟨_, _, step_writeReg hturns hrst hidle hoff h4, step_readReg rfl ?_ ?_ hoff h4, ?_⟩
    · exact (congrArg Boundary.rst (writeReg_port _ v s)).trans hrst
    · exact (writeReg_phase hcmd v s).trans hidle
    · exact congrArg (fun w => some (PortResp.okay (.word w))) ((readReg_answered _ _ _ _).trans hread)
  · intro s t ts off v hturns hrst hidle hcases
    obtain ⟨hoff, h4⟩ : off < 0x100 ∧ off % 4 = 0 := by omega
    rw [step_writeReg hturns hrst hidle hoff h4]
    rcases hcases with ⟨rfl, rfl⟩ | ⟨rfl, rfl⟩ | ⟨rfl, rfl⟩ | ⟨rfl, rfl⟩ | ⟨rfl, rfl⟩ | ⟨rfl, rfl⟩ |
      ⟨rfl, rfl⟩ | ⟨rfl, rfl⟩ | ⟨rfl | rfl | rfl | rfl | ⟨hres, -⟩, rfl⟩
    iterate 12 rfl
    · rw [regAt_reserved hres]
      rfl

/-! ### `STATUS` -/

/-- `STATUS` with bit 7, which is 0, as one more flag. -/
theorem status_eq (s : State) :
    s.status = (0#16 ++ errCode s.flags.err ++ flagBit false ++ flagBit s.flags.itvalid ++ flagBit s.flags.bitout
      ++ flagBit s.flags.ovr ++ flagBit s.flags.trunc ++ flagBit s.flags.found ++ flagBit s.flags.done
      ++ flagBit s.busy : BitVec 32) := rfl

theorem status_flagBits (s : State) :
    s.status.getLsbD 0 = s.busy ∧ s.status.getLsbD 1 = s.flags.done ∧ s.status.getLsbD 2 = s.flags.found ∧
    s.status.getLsbD 3 = s.flags.trunc ∧ s.status.getLsbD 4 = s.flags.ovr ∧ s.status.getLsbD 5 = s.flags.bitout ∧
    s.status.getLsbD 6 = s.flags.itvalid ∧ s.status.getLsbD 7 = false := by
  simp only [status_eq, getLsbD_append_flagBit_succ, getLsbD_append_flagBit_zero, and_self]

theorem status_getLsbD_add_eight (s : State) (i : Nat) :
    s.status.getLsbD (i + 8) = (0#16 ++ errCode s.flags.err).getLsbD i := by
  simp only [status_eq, getLsbD_append_flagBit_succ]

theorem status_errField (s : State) : s.status.extractLsb' 8 8 = errCode s.flags.err := by
  ext i hi
  rw [BitVec.getElem_extractLsb', Nat.add_comm, status_getLsbD_add_eight, BitVec.getLsbD_append]
  simp [hi]

theorem status_high (s : State) : s.status.extractLsb' 16 16 = 0 := by
  ext i hi
  rw [BitVec.getElem_extractLsb', show 16 + i = (8 + i) + 8 by omega, status_getLsbD_add_eight, BitVec.getLsbD_append]
  simp

/-- Settles O49: the bits of the concatenation, and the reads of the offsets of `STATUS` and `CMD`. -/
theorem statusWordLayout : Obligations.StatusWordLayout := by
  refine ⟨fun s => ?_, fun s ts hrst hidle => ⟨fun hturns => ?_, fun hturns => ?_⟩⟩
  · obtain ⟨hbusy, hflags⟩ := status_flagBits s
    obtain ⟨hdone, hfound, htrunc, hovr, hbitout, hitvalid, hseven⟩ := hflags
    refine ⟨?_, hdone, hfound, htrunc, hovr, hbitout, hitvalid, hseven, ?_, status_high s⟩
    · rw [hbusy, State.Of.busy, decide_eq_true_eq]
    · rw [status_errField]
      rcases s.flags.err with _ | e
      · rfl
      · cases e <;> rfl
  · exact step_readReg hturns hrst hidle (by decide) (by decide)
  · exact step_readReg hturns hrst hidle (by decide) (by decide)

/-- Settles O50: a write to `STATUS` acknowledges (60_exceptions.md R272). -/
theorem statusWriteClearsDoneAndOvr : Obligations.StatusWriteClearsDoneAndOvr := by
  intro s ts v hturns hrst hidle
  rw [step_writeReg hturns hrst hidle (by decide) (by decide)]
  have hclear : ∀ a b : Bool, (a && !b) = if b then false else a := by decide
  simp only [hclear, regAt, writeReg, acknowledge]

/-! ### The probe windows -/

/-- The cell `k` of `BLK` or of `COEF` as the host addresses it. -/
def probeCell (inCoef : Bool) (k : Fin 64) : Region := if inCoef then .coefw k else .blkw k

theorem wordRegion_probe {ν : Type} (cfg : Config ν) (inCoef : Bool) (r c : Fin 8) :
    wordRegion cfg ((if inCoef then 0x200 else 0x100) + 4 * (8 * r.val + c.val)) =
      some (probeCell inCoef (cellIndex r c)) := by
  have hcell : Fin.ofNat 64 (8 * r.val + c.val) = cellIndex r c := Fin.ext (Nat.mod_eq_of_lt (by omega))
  cases inCoef
  · have e : (0x100 + 4 * (8 * r.val + c.val) - 0x100) / 4 = 8 * r.val + c.val := by omega
    simp only [Bool.false_eq_true, if_false, probeCell]
    rw [wordRegion, if_pos (by omega), regionAt, if_neg (by omega), if_pos (by omega), e, hcell]
  · have e : (0x200 + 4 * (8 * r.val + c.val) - 0x200) / 4 = 8 * r.val + c.val := by omega
    simp only [if_true, probeCell]
    rw [wordRegion, if_pos (by omega), regionAt, if_neg (by omega), if_neg (by omega), if_pos (by omega), e, hcell]

/-- The register file that the window addresses. -/
def probed (inCoef : Bool) (s : State) : Mat QNum := if inCoef then s.coef else s.blk

/-- `s` with the matrix that the window addresses replaced. -/
def withProbed (inCoef : Bool) (m : Mat QNum) (s : State) : State :=
  if inCoef then { s with coef := m } else { s with blk := m }

theorem withProbed_port (inCoef : Bool) (m : Mat QNum) (s : State) : (withProbed inCoef m s).port = s.port := by
  cases inCoef <;> rfl

theorem withProbed_phase (inCoef : Bool) (m : Mat QNum) (s : State) : (withProbed inCoef m s).phase = s.phase := by
  cases inCoef <;> rfl

theorem readWordIdle_probe (inCoef : Bool) (r c : Fin 8) (s : State) :
    readWordIdle Config.default s (probeCell inCoef (cellIndex r c)) = probeRead ratOps (matAt (probed inCoef s) r c) := by
  cases inCoef <;> rfl

theorem writeWordIdle_probe (inCoef : Bool) (k : Fin 64) (w : Word) (s : State) :
    writeWordIdle Config.default (probeCell inCoef k) w s =
      withProbed inCoef (matSet (probed inCoef s) k (probeWrite ratOps w)) s := by
  cases inCoef <;> rfl

theorem probed_answered_withProbed (inCoef : Bool) (m : Mat QNum) (s : State) (ts : List Turn) (p : PortResp) :
    probed inCoef (answered ts p (withProbed inCoef m s)) = m := by
  cases inCoef <;> rfl

theorem probeRead_toInt (x : QNum) :
    (probeRead ratOps x).toInt = max (-2147483648) (min 2147483647 ⌊x * 65536⌋) := by
  simp [probeRead, sat32_toInt]

theorem probeWrite_eq (w : Word) : probeWrite ratOps w = (w.toInt : QNum) / 65536 := by
  simp [probeWrite]

/-- A word written to a probe window reads back: its value needs no rounding and no saturation. -/
theorem probeRead_probeWrite (w : Word) : probeRead ratOps (probeWrite ratOps w) = w := by
  apply BitVec.eq_of_toInt_eq
  have hexact : ⌊(w.toInt : QNum) / 65536 * 65536⌋ = w.toInt := by
    rw [div_mul_cancel₀ _ (by norm_num), Int.floor_intCast]
  rw [probeRead_toInt, probeWrite_eq, hexact]
  have hlo := BitVec.le_toInt w
  have hhi := BitVec.toInt_lt (x := w)
  omega

/-- Settles O51: a probe write sets one cell of the matrix, and a probe read is the saturated floor of it. -/
theorem probeWindowsReadBack : Obligations.ProbeWindowsReadBack := by
  constructor
  · rintro s ts r c w inCoef off rfl hturns hrst hidle
    have hregion := wordRegion_probe Config.default inCoef r c
    obtain ⟨m, hm⟩ : ∃ m, m = matSet (probed inCoef s) (cellIndex r c) (probeWrite ratOps w) := ⟨_, rfl⟩
    have hcell : matAt m r c = probeWrite ratOps w := by rw [hm, matAt_matSet, if_pos ⟨rfl, rfl⟩]
    have hwrite := step_write4_idle hturns hrst hidle hregion
    rw [writeWordIdle_probe, ← hm] at hwrite
    have hread := step_read4_idle (ts := ts)
      (s := answered (.port (.read4 (Config.default.base + _)) :: ts) (.okay .none) (withProbed inCoef m s)) rfl
      ((congrArg Boundary.rst (withProbed_port inCoef m s)).trans hrst) ((withProbed_phase inCoef m s).trans hidle)
      hregion
    rw [readWordIdle_probe, probed_answered_withProbed, hcell, probeRead_probeWrite] at hread
    refine ⟨m, _, hwrite, hcell.trans (probeWrite_eq w), fun a b hne => ?_, hread, rfl⟩
    rw [hm, matAt_matSet, if_neg hne, probed]
  · intro s ts r c inCoef hturns hrst hidle
    rw [Nat.add_assoc] at hturns
    refine ⟨_, step_read4_idle hturns hrst hidle (wordRegion_probe _ inCoef r c), ?_⟩
    rw [readWordIdle_probe, probeRead_toInt, probed]

/-! ### The text windows -/

section Text

variable {ν : Type} {cfg : Config ν} {k : Nat}

theorem wordRegion_txt (hk : k < cfg.maxtext) : wordRegion cfg (0x10000 + 4 * k) = some (.txt k) := by
  have e : (0x10000 + 4 * k - 0x10000) / 4 = k := by omega
  rw [wordRegion, if_pos (by omega), regionAt, if_neg (by omega), if_neg (by omega), if_neg (by omega),
    if_pos (by omega), e]

theorem wordRegion_out (hcfg : cfg.wf = true) (hk : k < cfg.maxout) :
    wordRegion cfg (0x20000 + 4 * k) = some (.out k) := by
  have htxt : 4 * cfg.maxtext ≤ 65536 := by
    simp only [Config.wf, Bool.and_eq_true, decide_eq_true_eq] at hcfg
    omega
  have e : (0x20000 + 4 * k - 0x20000) / 4 = k := by omega
  rw [wordRegion, if_pos (by omega), regionAt, if_neg (by omega), if_neg (by omega), if_neg (by omega),
    if_neg (by omega), if_pos (by omega), e]

theorem txtWord_set (m : Memory ν) (v : Word) (x : Nat) :
    ({ m with txt := Cells.set m.txt k v } : Memory ν).txtWord cfg x = if x = k then v else m.txtWord cfg x := by
  simp only [Memory.txtWord, Cells.get?_set]
  split_ifs <;> rfl

end Text

/-- Settles O54: word `k` of a text window is cell `k` of its buffer, and `OUT` is read-only for the host. -/
theorem textWindows : Obligations.TextWindows := by
  intro s ts k v hrst hidle
  simp only [Nat.add_assoc]
  refine ⟨fun hk hturns => ?_, fun hk hturns => ?_, fun hk hturns => ?_, fun hk hturns => ?_⟩
  · refine ⟨_, step_write4_idle hturns hrst hidle (wordRegion_txt hk), ?_, fun x hx => ?_⟩
    · rw [txtWord_set, if_pos rfl]
    · rw [txtWord_set, if_neg hx]
  · exact step_read4_idle hturns hrst hidle (wordRegion_txt hk)
  · exact step_read4_idle hturns hrst hidle (wordRegion_out default_wf hk)
  · exact step_write4_idle hturns hrst hidle (wordRegion_out default_wf hk)

end Sys2Proof.Machine
end

section
/-! PROOFS. 10_state.md, O39: the outputs of `EMBED` and `EXTRACT` depend on their named inputs only. Two runs are
followed side by side: each part of a command takes related states to related states, or raises the same error in both
runs. -/

namespace Sys2Proof.Machine

variable {ν : Type} {cfg : Config ν} {s s' : State.Of ν}

/-! ### Two runs side by side -/

/-- Two effects raise the same error, or both succeed with related results. -/
inductive EffectRel {α β : Type} (R : α → β → Prop) : Except Err α → Except Err β → Prop
  | ok {a : α} {b : β} (h : R a b) : EffectRel R (.ok a) (.ok b)
  | error (e : Err) : EffectRel R (.error e) (.error e)

theorem EffectRel.bind {α β α' β' : Type} {R : α → β → Prop} {Q : α' → β' → Prop} {x : Except Err α}
    {y : Except Err β} {f : α → Except Err α'} {g : β → Except Err β'} (hx : EffectRel R x y)
    (hf : ∀ a b, R a b → EffectRel Q (f a) (g b)) : EffectRel Q (x >>= f) (y >>= g) := by
  cases hx with
  | ok h => exact hf _ _ h
  | error e => exact .error e

/-- A check that both runs see alike; past it, it has not failed. -/
theorem EffectRel.check {bad bad' : Bool} (h : bad = bad') (e : Err) :
    EffectRel (fun _ _ => bad = false) (check bad e) (check bad' e) := by
  subst h
  cases bad with
  | true => exact .error e
  | false => exact .ok rfl

/-- Related effects end with the same error, and where there is none, with related states (00_scope.md R12). -/
theorem EffectRel.finish {R : State.Of ν → State.Of ν → Prop} {r r' : Effect ν} (h : EffectRel R r r') :
    ∃ t t', finish s r = .next t ∧ finish s' r' = .next t' ∧ t.flags.err = t'.flags.err ∧
      (t.flags.err = none → ∃ u u', R u u' ∧ t = complete u ∧ t' = complete u') := by
  cases h with
  | ok h => exact ⟨_, _, rfl, rfl, rfl, fun _ => ⟨_, _, h, rfl, rfl⟩⟩
  | error e => exact ⟨_, _, rfl, rfl, rfl, nofun⟩

/-! ### The same writes to two buffers -/

/-- After the same writes two buffers agree at a cell that is among those written, or at which they agreed before. -/
theorem Cells.getD_setMany_congr {α : Type} {m m' : List (Nat × α)} {d d' : α} (kvs : List (Nat × α)) {k : Nat}
    (h : (∃ kv ∈ kvs, kv.1 = k) ∨ (Cells.get? m k).getD d = (Cells.get? m' k).getD d') :
    (Cells.get? (Cells.setMany m kvs) k).getD d = (Cells.get? (Cells.setMany m' kvs) k).getD d' := by
  induction kvs generalizing m m' with
  | nil => simpa [Cells.setMany] using h
  | cons kv kvs ih =>
    refine ih (m := Cells.set m kv.1 kv.2) (m' := Cells.set m' kv.1 kv.2) ?_
    by_cases hk : k = kv.1
    · exact .inr (by simp [hk])
    · simpa [Cells.get?_set, hk, Ne.symm hk] using h

theorem Cells.getD_setSeq_congr {α : Type} {m m' : List (Nat × α)} {d d' : α} {vs : List α} {k : Nat}
    (hk : k < vs.length) :
    (Cells.get? (Cells.setSeq m 0 vs) k).getD d = (Cells.get? (Cells.setSeq m' 0 vs) k).getD d' := by
  simp [Cells.get?_setSeq, hk]

/-! ### The inputs -/

/-- The same image, size and strength (10_state.md R55). -/
structure SameImage (cfg : Config ν) (s s' : State.Of ν) : Prop where
  width : s.regs.width = s'.regs.width
  height : s.regs.height = s'.regs.height
  qstep : s.regs.qstep = s'.regs.qstep
  pix : ∀ a < 3 * s.w * s.h, s.mem.pixByte cfg a = s'.mem.pixByte cfg a

/-- The same text and policy too (10_state.md R55). -/
structure SameEmbedInputs (cfg : Config ν) (s s' : State.Of ν) : Prop extends SameImage cfg s s' where
  textlen : s.regs.textlen = s'.regs.textlen
  capmode : s.ctrl.capmode = s'.ctrl.capmode
  txt : ∀ k < s.textLen, s.mem.txtWord cfg k = s'.mem.txtWord cfg k

section SameImage

variable (h : SameImage cfg s s')
include h

theorem SameImage.badImage : s.badImage cfg = s'.badImage cfg := by
  simp only [State.Of.badImage, State.Of.w, State.Of.h, h.width, h.height]

theorem SameImage.badStrength : s.badStrength = s'.badStrength := by
  simp only [State.Of.badStrength, h.qstep]

theorem SameImage.blocks : s.blocks = s'.blocks := by
  simp only [State.Of.blocks, State.Of.w, State.Of.h, h.width, h.height]

theorem SameImage.pixelYCC {r c : Nat} (hr : r < s.h) (hc : c < s.w) : pixelYCC cfg s r c = pixelYCC cfg s' r c := by
  have hlast : (r * s.w + c) * 3 + 3 ≤ 3 * s.w * s.h :=
    calc (r * s.w + c) * 3 + 3 ≤ ((r + 1) * s.w) * 3 := by rw [Nat.succ_mul]; omega
      _ ≤ (s.h * s.w) * 3 := Nat.mul_le_mul_right _ (Nat.mul_le_mul_right _ hr)
      _ = 3 * s.w * s.h := by ring
  have hw : s.w = s'.w := congrArg BitVec.toNat h.width
  simp only [Machine.pixelYCC, pixAddr, ← hw]
  rw [h.pix _ (by omega), h.pix _ (by omega), h.pix _ (by omega)]

/-- Both runs write the same cells to a plane. -/
theorem SameImage.planeCells {α : Type} (f : Byte × Byte × Byte → α) :
    planeCells cfg s (fun r c => f (Machine.pixelYCC cfg s r c)) =
      planeCells cfg s' (fun r c => f (Machine.pixelYCC cfg s' r c)) := by
  have hw : s.w = s'.w := congrArg BitVec.toNat h.width
  have hh : s.h = s'.h := congrArg BitVec.toNat h.height
  unfold Machine.planeCells
  rw [← hw, ← hh]
  refine List.map_congr_left fun rc hrc => ?_
  obtain ⟨hr, hc⟩ := mem_coords.mp hrc
  simp only [h.pixelYCC hr hc]

end SameImage

/-- Every cell of the image rectangle is among those that `CSCF` writes to a plane, whatever the plane held. -/
theorem SameImage.plane_getD (h : SameImage cfg s s') {α : Type} (f : Byte × Byte × Byte → α) {m m' : List (Nat × α)}
    {d d' : α} {r c : Nat} (hr : r < s.h) (hc : c < s.w) :
    (Cells.get? (Cells.setMany m (Machine.planeCells cfg s fun r c => f (Machine.pixelYCC cfg s r c)))
        (planeKey cfg r c)).getD d =
      (Cells.get? (Cells.setMany m' (Machine.planeCells cfg s' fun r c => f (Machine.pixelYCC cfg s' r c)))
        (planeKey cfg r c)).getD d' := by
  rw [← h.planeCells f]
  exact Cells.getD_setMany_congr _ (.inl ⟨_, List.mem_map.mpr ⟨(r, c), mem_coords.mpr ⟨hr, hc⟩, rfl⟩, rfl⟩)

/-- The planes agree over the image rectangle. -/
structure SamePlanes (cfg : Config ν) (s s' : State.Of ν) : Prop where
  luma : ∀ r < s.h, ∀ c < s.w, s.mem.lumaAt cfg r c = s'.mem.lumaAt cfg r c
  chr1 : ∀ r < s.h, ∀ c < s.w, s.mem.chr1At cfg r c = s'.mem.chr1At cfg r c
  chr2 : ∀ r < s.h, ∀ c < s.w, s.mem.chr2At cfg r c = s'.mem.chr2At cfg r c

/-- `t` is `s` with other planes. -/
def PlanesReplaced (s t : State.Of ν) : Prop :=
  ∃ l c1 c2, t = { s with mem := { s.mem with luma := l, chr1 := c1, chr2 := c2 } }

/-- `CSCF` makes the planes agree where the images agree, and changes nothing else. -/
theorem cscf_rel (h : SameImage cfg s s') :
    EffectRel (fun t t' => SamePlanes cfg t t' ∧ PlanesReplaced s t ∧ PlanesReplaced s' t') (cscf cfg s)
      (cscf cfg s') := by
  unfold cscf
  rw [← h.badImage]
  cases s.badImage cfg with
  | true => exact .error _
  | false =>
    refine .ok ⟨⟨?_, ?_, ?_⟩, ⟨_, _, _, rfl⟩, ⟨_, _, _, rfl⟩⟩
    · exact fun r hr c hc => h.plane_getD (fun p => cfg.num.ofInt p.1.toNat) hr hc
    · exact fun r hr c hc => h.plane_getD (fun p => p.2.1) hr hc
    · exact fun r hr c hc => h.plane_getD (fun p => p.2.2) hr hc

/-! ### The work on the blocks -/

/-- The same size, strength, iterator and luma: what the work on a block depends on. -/
structure SameWork (cfg : Config ν) (s s' : State.Of ν) : Prop where
  width : s.regs.width = s'.regs.width
  height : s.regs.height = s'.regs.height
  qstep : s.regs.qstep = s'.regs.qstep
  iti : s.regs.iti = s'.regs.iti
  itj : s.regs.itj = s'.regs.itj
  itvalid : s.flags.itvalid = s'.flags.itvalid
  luma : ∀ r < s.h, ∀ c < s.w, s.mem.lumaAt cfg r c = s'.mem.lumaAt cfg r c

/-- The block that `BLKLD` loads. -/
def loadedBlock (cfg : Config ν) (s : State.Of ν) : Mat ν :=
  matOf fun r c => s.mem.lumaAt cfg (s.i + r.val) (s.j + c.val)

/-- The coefficients of the block with the bit `b` requantised into its carrier. -/
def markedCoef (cfg : Config ν) (b : Bool) (s : State.Of ν) : Mat ν :=
  matSet (forwardRows cfg (forwardColumns cfg (loadedBlock cfg s))) carrierIndex
    (requantize cfg.num b (s.strength cfg.num) (matAt (forwardRows cfg (forwardColumns cfg (loadedBlock cfg s))) 4 5))

/-- The block with the bit `b` embedded. -/
def markedBlock (cfg : Config ν) (b : Bool) (s : State.Of ν) : Mat ν :=
  inverseRows cfg (inverseColumns cfg (markedCoef cfg b s))

/-- One block of `EMBED`, its first failing check or its result (45_orchestrator.md R233). -/
theorem embedBlock_eq (b : Bool) (s : State.Of ν) :
    embedBlock cfg b s =
      if s.badBlock cfg then .error .bounds
      else if s.badStrength then .error .badq
      else .ok { s with
        blk := markedBlock cfg b s, coef := markedCoef cfg b s
        mem := { s.mem with
          luma := Cells.setMany s.mem.luma (blockCells cfg { s with blk := markedBlock cfg b s }) } } := by
  cases hblk : s.badBlock cfg with
  | true => simp [embedBlock, blkld, hblk]
  | false =>
    cases hq : s.badStrength with
    | true =>
      have hq' : ∀ x y, ({ s with blk := x, coef := y } : State.Of ν).badStrength = true := fun _ _ => hq
      simp [embedBlock, blkld, fdct, qemb, hblk, hq']
    | false => exact embedBlock_ok.mpr ⟨hblk, hq, _, _, _, rfl, rfl, rfl, rfl⟩

/-- One block of `EXTRACT`, its first failing check or its result (45_orchestrator.md R233). -/
theorem extractBlock_eq (s : State.Of ν) :
    extractBlock cfg s =
      if s.badBlock cfg then .error .bounds
      else if s.badStrength then .error .badq
      else .ok { s with
        blk := loadedBlock cfg s, coef := forwardRows cfg (forwardColumns cfg (loadedBlock cfg s))
        flags := { s.flags with
          bitout := classify cfg.num (s.strength cfg.num)
            (matAt (forwardRows cfg (forwardColumns cfg (loadedBlock cfg s))) 4 5) } } := by
  cases hblk : s.badBlock cfg with
  | true => simp [extractBlock, blkld, hblk]
  | false =>
    cases hq : s.badStrength with
    | true =>
      have hq' : ∀ x y, ({ s with blk := x, coef := y } : State.Of ν).badStrength = true := fun _ _ => hq
      simp [extractBlock, blkld, fdct, qext, hblk, hq']
    | false => exact extractBlock_ok.mpr ⟨hblk, hq, _, _, rfl, rfl, rfl⟩

/-- Where `ITNEXT` puts `IT_I`, `IT_J` and `ITVALID` (42_block_iterator.md R173). -/
def nextPosition (s : State.Of ν) : Half × Half × Bool :=
  if s.flags.itvalid then
    if s.j + 16 < s.w then (s.regs.iti, BitVec.ofNat 16 (s.j + 8), s.flags.itvalid)
    else if s.i + 16 < s.h then (BitVec.ofNat 16 (s.i + 8), 0, s.flags.itvalid)
    else (s.regs.iti, s.regs.itj, false)
  else (s.regs.iti, s.regs.itj, s.flags.itvalid)

/-- `s` with the iterator at the position. -/
def withPosition (p : Half × Half × Bool) (s : State.Of ν) : State.Of ν :=
  { s with regs := { s.regs with iti := p.1, itj := p.2.1 }, flags := { s.flags with itvalid := p.2.2 } }

theorem itnext_eq (s : State.Of ν) : itnext s = .ok (withPosition (nextPosition s) s) := by
  unfold itnext nextPosition
  split_ifs <;> rfl

section SameWork

variable (h : SameWork cfg s s')
include h

theorem SameWork.badBlock : s.badBlock cfg = s'.badBlock cfg := by
  simp only [State.Of.badBlock, State.Of.w, State.Of.h, State.Of.i, State.Of.j, h.width, h.height, h.iti, h.itj]

theorem SameWork.badStrength : s.badStrength = s'.badStrength := by
  simp only [State.Of.badStrength, h.qstep]

theorem SameWork.strength (num : NumOps ν) : s.strength num = s'.strength num := by
  simp only [State.Of.strength, h.qstep]

theorem SameWork.loadedBlock (hin : s.badBlock cfg = false) : loadedBlock cfg s = loadedBlock cfg s' := by
  obtain ⟨-, -, hi, hj⟩ := badBlock_eq_false.mp hin
  refine congrArg matOf (funext fun r => funext fun c => ?_)
  have hcell := h.luma (s.i + r.val) (by omega) (s.j + c.val) (by omega)
  simpa only [State.Of.i, State.Of.j, h.iti, h.itj] using hcell

theorem SameWork.markedCoef (hin : s.badBlock cfg = false) (b : Bool) : markedCoef cfg b s = markedCoef cfg b s' := by
  simp only [Machine.markedCoef, h.loadedBlock hin, h.strength]

theorem SameWork.markedBlock (hin : s.badBlock cfg = false) (b : Bool) :
    markedBlock cfg b s = markedBlock cfg b s' := by
  simp only [Machine.markedBlock, h.markedCoef hin]

theorem SameWork.blockCells (z : Mat ν) : blockCells cfg { s with blk := z } = blockCells cfg { s' with blk := z } := by
  simp only [Machine.blockCells, State.Of.i, State.Of.j, h.iti, h.itj]

theorem SameWork.nextPosition : nextPosition s = nextPosition s' := by
  simp only [Machine.nextPosition, State.Of.w, State.Of.h, State.Of.i, State.Of.j, h.width, h.height, h.iti, h.itj,
    h.itvalid]

end SameWork

/-! ### `EMBED` -/

/-- The two runs of `EMBED` in the loop, with `n` bits to embed: what their outputs are made of, over the `size` bytes of
the image. -/
structure SameEmbed (cfg : Config ν) (n size : Nat) (s s' : State.Of ν) : Prop
    extends SameWork cfg s s', SamePlanes cfg s s' where
  nbits : s.regs.nbits = s'.regs.nbits
  count : s.nBits ≤ n
  trunc : s.flags.trunc = s'.flags.trunc
  bits : ∀ k < n, s.mem.bit cfg k = s'.mem.bit cfg k
  pix : ∀ a < size, s.mem.pixByte cfg a = s'.mem.pixByte cfg a

section Embed

variable {n size : Nat}

/-- Other cells of the luma plane keep the runs related when they agree over the image rectangle. -/
theorem SameEmbed.withLuma (h : SameEmbed cfg n size s s') {z z' y y' : Mat ν} {l l' : List (Nat × ν)}
    (hl : ∀ r < s.h, ∀ c < s.w, (Cells.get? l (planeKey cfg r c)).getD (cfg.resetMem.luma s.mem.epoch r c) =
      (Cells.get? l' (planeKey cfg r c)).getD (cfg.resetMem.luma s'.mem.epoch r c)) :
    SameEmbed cfg n size { s with blk := z, coef := y, mem := { s.mem with luma := l } }
      { s' with blk := z', coef := y', mem := { s'.mem with luma := l' } } :=
  { h with luma := hl }

/-- Other bytes of `PIX` keep the runs related when they agree over the image. -/
theorem SameEmbed.withPix (h : SameEmbed cfg n size s s') {l l' : List Host.Cell}
    (hl : ∀ a < size, (Cells.get? l a).getD (cfg.resetMem.pix s.mem.epoch a) =
      (Cells.get? l' a).getD (cfg.resetMem.pix s'.mem.epoch a)) :
    SameEmbed cfg n size { s with mem := { s.mem with pix := l } } { s' with mem := { s'.mem with pix := l' } } :=
  { h with pix := hl }

theorem embedBlock_rel (h : SameEmbed cfg n size s s') (b : Bool) :
    EffectRel (SameEmbed cfg n size) (embedBlock cfg b s) (embedBlock cfg b s') := by
  rw [embedBlock_eq, embedBlock_eq, ← h.badBlock, ← h.badStrength]
  cases hin : s.badBlock cfg with
  | true => exact .error _
  | false =>
    cases s.badStrength with
    | true => exact .error _
    | false =>
      refine .ok (h.withLuma fun r hr c hc => ?_)
      rw [← h.markedBlock hin, ← h.blockCells]
      exact Cells.getD_setMany_congr _ (.inr (h.luma r hr c hc))

theorem embedLoop_rel {fuel k : Nat} (h : SameEmbed cfg n size s s') :
    EffectRel (fun p p' => p.1 = p'.1 ∧ SameEmbed cfg n size p.2 p'.2) (embedLoop cfg n fuel k s)
      (embedLoop cfg n fuel k s') := by
  induction fuel generalizing k s s' with
  | zero => exact .ok ⟨rfl, h⟩
  | succ fuel ih =>
    rw [embedLoop, embedLoop, ← h.itvalid]
    split_ifs with hgo
    · have hk : k < n := by simp_all
      rw [← h.bits k hk]
      refine .bind (embedBlock_rel h _) fun t t' ht => ?_
      rw [itnext_eq, itnext_eq, ← ht.nextPosition]
      exact ih { ht with iti := rfl, itj := rfl, itvalid := rfl }
    · exact .ok ⟨rfl, h⟩

theorem csci_rel (h : SameEmbed cfg n size s s') : EffectRel (SameEmbed cfg n size) (csci cfg s) (csci cfg s') := by
  have hw : s.w = s'.w := congrArg BitVec.toNat h.width
  have hh : s.h = s'.h := congrArg BitVec.toNat h.height
  have hbad : s.badImage cfg = s'.badImage cfg := by simp only [State.Of.badImage, hw, hh]
  have hbytes : imageBytes cfg s = imageBytes cfg s' := by
    unfold imageBytes
    rw [← hw, ← hh]
    refine List.flatMap_congr fun rc hrc => ?_
    obtain ⟨hr, hc⟩ := mem_coords.mp hrc
    simp only [cellRGB, h.luma _ hr _ hc, h.chr1 _ hr _ hc, h.chr2 _ hr _ hc]
  unfold csci
  rw [← hbad, ← hbytes]
  cases s.badImage cfg with
  | true => exact .error _
  | false => exact .ok (h.withPix fun a ha => Cells.getD_setMany_congr _ (.inr (h.pix a ha)))

theorem badText_eq_any (s : State.Of ν) : s.badText cfg = (textWords cfg s).any fun p => decide (p.toNat > 255) := by
  simp only [State.Of.badText, Machine.textWords, List.any_map, Function.comp_def]

/-- `s` with the bitstream `l` of `n` bits. -/
def withStream (n : Nat) (l : List (Nat × Bool)) (s : State.Of ν) : State.Of ν :=
  { s with regs := { s.regs with nbits := BitVec.ofNat 32 n }, mem := { s.mem with bits := l } }

/-- The outputs of `EMBED` agree, `PIX` over the `size` bytes of the image (10_state.md R55). -/
structure SameEmbedOutputs (cfg : Config ν) (size : Nat) (s s' : State.Of ν) : Prop where
  nbits : s.regs.nbits = s'.regs.nbits
  bitcur : s.regs.bitcur = s'.regs.bitcur
  trunc : s.flags.trunc = s'.flags.trunc
  bits : ∀ k < s.nBits, s.mem.bit cfg k = s'.mem.bit cfg k
  pix : ∀ a < size, s.mem.pixByte cfg a = s'.mem.pixByte cfg a

section Inputs

variable (h : SameEmbedInputs cfg s s')
include h

theorem SameEmbedInputs.payloadBits : s.payloadBits = s'.payloadBits := by
  simp only [State.Of.payloadBits, State.Of.textLen, h.textlen]

theorem SameEmbedInputs.textWords : textWords cfg s = textWords cfg s' := by
  have hlen : s.textLen = s'.textLen := congrArg BitVec.toNat h.textlen
  unfold Machine.textWords
  rw [← hlen]
  exact List.map_congr_left fun k hk => h.txt k (List.mem_range.mp hk)

theorem SameEmbedInputs.badTextLen : s.badTextLen cfg = s'.badTextLen cfg := by
  simp only [State.Of.badTextLen, State.Of.textLen, h.textlen]

theorem SameEmbedInputs.badText : s.badText cfg = s'.badText cfg := by
  rw [badText_eq_any, badText_eq_any, h.textWords]

theorem SameEmbedInputs.overCapacity : s.overCapacity = s'.overCapacity := by
  simp only [State.Of.overCapacity, h.payloadBits, h.blocks, h.capmode]

/-- `T2B` makes the bitstreams agree where the texts agree, and changes nothing else. -/
theorem t2b_rel :
    EffectRel (fun t t' => (∃ l, t = withStream s.payloadBits l s) ∧ (∃ l, t' = withStream s.payloadBits l s') ∧
        ∀ k < s.payloadBits, t.mem.bit cfg k = t'.mem.bit cfg k)
      (t2b cfg s) (t2b cfg s') := by
  have hpayload : payload cfg s = payload cfg s' := by simp only [payload, h.textWords]
  unfold t2b
  rw [← h.badTextLen, ← h.badText, ← h.payloadBits, ← hpayload]
  split_ifs
  · exact .error _
  · exact .error _
  · exact .ok ⟨⟨_, rfl⟩, ⟨_, rfl⟩, fun k hk => Cells.getD_setSeq_congr (by simpa using hk)⟩

/-- `EMBED` takes related inputs to related outputs (45_orchestrator.md R231). -/
theorem embed_rel :
    EffectRel (SameEmbedOutputs cfg (3 * s.w * s.h)) (embed cfg s) (embed cfg s') := by
  simp only [embed, itrst, effect_ok_bind, ← h.payloadBits, ← h.blocks]
  refine .bind (.check h.badImage _) fun _ _ _ => ?_
  refine .bind (.check h.badStrength _) fun _ _ _ => ?_
  refine .bind (.check h.badTextLen _) fun _ _ _ => ?_
  refine .bind (.check h.badText _) fun _ _ _ => ?_
  refine .bind (.check h.overCapacity _) fun _ _ _ => ?_
  refine .bind (t2b_rel h) ?_
  rintro _ _ ⟨⟨l, rfl⟩, ⟨l', rfl⟩, hbits⟩
  refine .bind (cscf_rel ⟨h.width, h.height, h.qstep, h.pix⟩) ?_
  rintro _ _ ⟨⟨hluma, hchr1, hchr2⟩, ⟨_, _, _, rfl⟩, ⟨_, _, _, rfl⟩⟩
  have hw : s.w = s'.w := congrArg BitVec.toNat h.width
  have hh : s.h = s'.h := congrArg BitVec.toNat h.height
  refine .bind (embedLoop_rel (n := s.payloadBits) (size := 3 * s.w * s.h) ?_) ?_
  · exact {
      width := h.width, height := h.height, qstep := h.qstep, iti := rfl, itj := rfl
      itvalid := congrArg₂ (fun w h => decide (8 < h) && decide (8 < w)) hw hh
      luma := hluma, chr1 := hchr1, chr2 := hchr2, nbits := rfl, count := toNat_ofNat_le _ _, trunc := rfl
      bits := hbits, pix := h.pix }
  · rintro ⟨k, t⟩ ⟨_, t'⟩ ⟨rfl, ht⟩
    refine .bind (csci_rel ht) fun u u' hu => ?_
    exact .ok ⟨hu.nbits, rfl, hu.trunc, fun k hk => hu.bits k (hk.trans_le hu.count), hu.pix⟩

end Inputs

end Embed

/-! ### `EXTRACT` -/

/-- The two runs of `EXTRACT` in the loop: what their outputs are made of. -/
structure SameExtract (cfg : Config ν) (s s' : State.Of ν) : Prop extends SameWork cfg s s' where
  found : s.flags.found = s'.flags.found
  outlen : s.regs.outlen = s'.regs.outlen
  nbits : s.regs.nbits = s'.regs.nbits
  bits : ∀ k < s.nBits, s.mem.bit cfg k = s'.mem.bit cfg k
  out : ∀ g < s.regs.outlen.toNat, s.mem.outWord cfg g = s'.mem.outWord cfg g

theorem extractBlock_rel (h : SameExtract cfg s s') :
    EffectRel (fun t t' => SameExtract cfg t t' ∧ t.flags.bitout = t'.flags.bitout) (extractBlock cfg s)
      (extractBlock cfg s') := by
  rw [extractBlock_eq, extractBlock_eq, ← h.badBlock, ← h.badStrength]
  cases hin : s.badBlock cfg with
  | true => exact .error _
  | false =>
    cases s.badStrength with
    | true => exact .error _
    | false =>
      rw [← h.loadedBlock hin, ← h.strength]
      exact .ok ⟨{ h with }, rfl⟩

theorem appendBit_same (h : SameExtract cfg s s') (hbit : s.flags.bitout = s'.flags.bitout) :
    SameExtract cfg (appendBit s) (appendBit s') := by
  have hn : s.nBits = s'.nBits := congrArg BitVec.toNat h.nbits
  refine { h with nbits := congrArg (fun n => BitVec.ofNat 32 (n + 1)) hn, bits := fun k hk => ?_ }
  have hle : k < s.nBits + 1 := hk.trans_le (toNat_ofNat_le _ _)
  simp only [Memory.bit, appendBit, Cells.get?_set, ← hn, ← hbit]
  split_ifs with hlast
  · rfl
  · exact h.bits k (by omega)

/-- Whether the bits read end with the delimiter depends on those bits only. -/
theorem endsWithDelim_congr {bit bit' : Nat → Bool} {n : Nat} (h : ∀ k < n, bit k = bit' k) :
    endsWithDelim bit n = endsWithDelim bit' n := by
  unfold endsWithDelim
  by_cases hn : 16 ≤ n
  · refine congrArg _ (Bool.eq_iff_iff.mpr ?_)
    rw [List.all_eq_true, List.all_eq_true]
    refine forall₂_congr fun t ht => ?_
    have ht' := List.mem_range.mp ht
    rw [h _ (by omega)]
  · simp only [hn, decide_false, Bool.false_and]

/-- The first `m` characters depend on the first `8m` bits only. -/
theorem decodeChars_congr {bit bit' : Nat → Bool} {m : Nat} (h : ∀ k < 8 * m, bit k = bit' k) :
    decodeChars bit m = decodeChars bit' m := by
  refine List.map_congr_left fun g hg => ?_
  have hg' := List.mem_range.mp hg
  unfold charAt
  refine congrArg _ (funext fun k => ?_)
  rw [h (8 * g + (7 - k.val)) (by omega)]

theorem foundText_same (h : SameExtract cfg s s') : SameExtract cfg (foundText cfg s) (foundText cfg s') := by
  have hn : s.nBits = s'.nBits := congrArg BitVec.toNat h.nbits
  have hchars : decodeChars (s.mem.bit cfg) ((s.nBits - 16) / 8) = decodeChars (s'.mem.bit cfg) ((s.nBits - 16) / 8) :=
    decodeChars_congr fun k hk => h.bits k (by omega)
  refine { h with found := rfl, outlen := congrArg (fun n => BitVec.ofNat 32 ((n - 16) / 8)) hn, out := fun g hg => ?_ }
  have hle : g < (s.nBits - 16) / 8 := hg.trans_le (toNat_ofNat_le _ _)
  simp only [Memory.outWord, foundText, writeOut, ← hn, ← hchars]
  exact Cells.getD_setSeq_congr (by simpa using hle)

theorem extractLoop_rel {fuel : Nat} (h : SameExtract cfg s s') :
    EffectRel (SameExtract cfg) (extractLoop cfg fuel s) (extractLoop cfg fuel s') := by
  induction fuel generalizing s s' with
  | zero => exact .ok h
  | succ fuel ih =>
    rw [extractLoop, extractLoop, ← h.itvalid, ← h.found]
    split_ifs with hgo
    · refine .bind (extractBlock_rel h) ?_
      rintro t t' ⟨ht, hbit⟩
      have hu := appendBit_same ht hbit
      have hn : (appendBit t).nBits = (appendBit t').nBits := congrArg BitVec.toNat hu.nbits
      simp only [← hn, ← endsWithDelim_congr hu.bits]
      split_ifs
      · exact ih (foundText_same hu)
      · rw [itnext_eq, itnext_eq, ← hu.nextPosition]
        exact ih { hu with iti := rfl, itj := rfl, itvalid := rfl }
    · exact .ok h

/-- `EXTRACT` takes related inputs to related outputs (45_orchestrator.md R232). -/
theorem extract_rel (h : SameImage cfg s s') :
    EffectRel (fun t t' => SameExtract cfg t t' ∧ t.regs.bitcur = t'.regs.bitcur) (extract cfg s) (extract cfg s') := by
  have hw : s.w = s'.w := congrArg BitVec.toNat h.width
  have hh : s.h = s'.h := congrArg BitVec.toNat h.height
  simp only [extract, itrst, effect_ok_bind, ← h.blocks]
  refine .bind (.check h.badImage _) fun _ _ _ => ?_
  refine .bind (.check h.badStrength _) fun _ _ _ => ?_
  refine .bind (cscf_rel h) ?_
  rintro _ _ ⟨⟨hluma, -, -⟩, ⟨_, _, _, rfl⟩, ⟨_, _, _, rfl⟩⟩
  refine .bind (extractLoop_rel ?_) fun t t' ht => .ok ⟨{ ht with }, ht.nbits⟩
  exact {
    width := h.width, height := h.height, qstep := h.qstep, iti := rfl, itj := rfl
    itvalid := congrArg₂ (fun w h => decide (8 < h) && decide (8 < w)) hw hh
    luma := hluma, found := rfl, outlen := rfl, nbits := rfl, bits := nofun, out := nofun }

/-- Settles O39: both composite commands take related inputs to related outputs, or to the same error. -/
theorem compositesDependOnTheirInputsOnly : Obligations.CompositesDependOnTheirInputsOnly := by
  intro s s' hwidth hheight hqstep hpix
  have himage : SameImage Config.default s s' := ⟨hwidth, hheight, hqstep, hpix⟩
  refine ⟨fun htextlen hcapmode htxt => ?_, ?_⟩
  · have hinputs : SameEmbedInputs Config.default s s' :=
      { himage with textlen := htextlen, capmode := hcapmode, txt := htxt }
    obtain ⟨t, t', ht, ht', herr, hout⟩ := (embed_rel hinputs).finish (s := s) (s' := s')
    refine ⟨t, t', ht, ht', herr, fun hnone => ?_⟩
    obtain ⟨u, u', hu, rfl, rfl⟩ := hout hnone
    exact ⟨hu.nbits, hu.bitcur, hu.trunc, hu.bits, hu.pix⟩
  · obtain ⟨t, t', ht, ht', herr, hout⟩ := (extract_rel himage).finish (s := s) (s' := s')
    refine ⟨t, t', ht, ht', herr, fun hnone => ?_⟩
    obtain ⟨u, u', ⟨hu, hbitcur⟩, rfl, rfl⟩ := hout hnone
    exact ⟨hu.found, hu.outlen, hu.nbits, hbitcur, hu.bits, hu.out⟩

end Sys2Proof.Machine
end

section
/-! PROOFS. 20_memory.md, O45, O46, O47, O52 and O53: which accesses the map answers, the accesses to a busy core, and
the windows of `PIX` and `BITS`. -/

namespace Sys2Proof.Machine

variable {ν : Type}

/-! ### The address map -/

section Map

variable {off : Nat}

theorem default_windows :
    Config.default.maxtext = 2048 ∧ Config.default.maxout = 2050 ∧ bitsWords Config.default = 513 ∧
      pixWindow Config.default = 3145728 := by decide

theorem regionAt_default_isSome : (regionAt Config.default off).isSome = true ↔ MappedOffset off := by
  obtain ⟨htxt, hout, hbits, hpix⟩ := default_windows
  unfold regionAt MappedOffset
  split_ifs <;> simp <;> omega

theorem wordRegion_default_isSome :
    (wordRegion Config.default off).isSome = true ↔ off % 4 = 0 ∧ MappedOffset off := by
  unfold wordRegion
  split_ifs with h4
  · rw [regionAt_default_isSome, and_iff_right h4]
  · exact ⟨nofun, fun h => absurd h.1 h4⟩

theorem byteRegion_default_isSome :
    (byteRegion Config.default off).isSome = true ↔ 0x1000000 ≤ off ∧ off < 0x1300000 := by
  obtain ⟨htxt, hout, hbits, hpix⟩ := default_windows
  unfold byteRegion regionAt
  split_ifs <;> simp <;> omega

theorem LegalAccess.lt {op : PortOp} (h : LegalAccess op off) : off < 0x2000000 := by
  cases op <;> simp only [LegalAccess, MappedOffset] at h <;> omega

end Map

/-! ### What an access can do -/

section Outcome

variable {cfg : Config ν} {s : State.Of ν} {op : PortOp} {off : Nat}

theorem accessInReset_eq (cfg : Config ν) (op : PortOp) (s : State.Of ν) :
    ∃ d, DataFits op d ∧ accessInReset cfg op s = respond (.error d) s := by
  cases op with
  | read4 a => exact ⟨_, ⟨_, rfl⟩, rfl⟩
  | read1 a => exact ⟨_, ⟨_, rfl⟩, rfl⟩
  | write4 a v => exact ⟨_, rfl, rfl⟩
  | write1 a v => exact ⟨_, rfl, rfl⟩

/-- A read at any offset only answers (20_memory.md R78). -/
theorem accessAt_read (cfg : Config ν) (off : Nat) (s : State.Of ν) (hread : op.isWrite = false) :
    ∃ r, accessAt cfg op off s = respond r s := by
  cases op with
  | read4 a => simp only [accessAt, read4]; split <;> exact ⟨_, rfl⟩
  | read1 a => simp only [accessAt, read1]; split <;> exact ⟨_, rfl⟩
  | write4 a v => cases hread
  | write1 a v => cases hread

theorem portAccess_read (cfg : Config ν) (s : State.Of ν) (hread : op.isWrite = false) :
    portAccess cfg op s = s ∨ ∃ r, portAccess cfg op s = respond r s := by
  unfold portAccess
  split
  · exact .inl rfl
  · split_ifs
    · obtain ⟨d, -, hd⟩ := accessInReset_eq cfg op s
      exact .inr ⟨_, hd⟩
    · exact .inr (accessAt_read cfg _ s hread)

theorem writeWordIdle_port (cfg : Config ν) (g : Region) (v : Word) (s : State.Of ν) :
    (writeWordIdle cfg g v s).port = s.port := by
  cases g with
  | reg r => exact writeReg_port r v s
  | blkw k | coefw k | txt k | out k | bits k | pix a => rfl

/-- What a legal access does: it is answered `OKAY`, and the rest of the boundary is as it was. -/
theorem accessAt_legal (s : State) (h : LegalAccess op off) :
    ∃ d, DataFits op d ∧ (accessAt Config.default op off s).port = (respond (.okay d) s).port := by
  cases op with
  | read4 a =>
    obtain ⟨g, hg⟩ := Option.isSome_iff_exists.mp (wordRegion_default_isSome.mpr h)
    exact ⟨_, ⟨_, rfl⟩, by rw [accessAt, read4, hg]⟩
  | write4 a v =>
    obtain ⟨g, hg⟩ := Option.isSome_iff_exists.mp (wordRegion_default_isSome.mpr h)
    refine ⟨_, rfl, ?_⟩
    simp only [accessAt, write4, hg, respond_port]
    split_ifs <;> simp only [writeBusy_port, writeWordIdle_port]
  | read1 a =>
    obtain ⟨x, hx⟩ := Option.isSome_iff_exists.mp (byteRegion_default_isSome.mpr h)
    exact ⟨_, ⟨_, rfl⟩, by rw [accessAt, read1, hx]⟩
  | write1 a v =>
    obtain ⟨x, hx⟩ := Option.isSome_iff_exists.mp (byteRegion_default_isSome.mpr h)
    refine ⟨_, rfl, ?_⟩
    simp only [accessAt, write1, hx, respond_port]
    split_ifs <;> rfl

/-- What any other access in the window does: it is refused (20_memory.md R74). -/
theorem accessAt_illegal (s : State) (h : ¬LegalAccess op off) :
    ∃ d, DataFits op d ∧ accessAt Config.default op off s = respond (.error d) s := by
  cases op with
  | read4 a =>
    have hg := Option.not_isSome_iff_eq_none.mp (mt wordRegion_default_isSome.mp h)
    exact ⟨_, ⟨_, rfl⟩, by rw [accessAt, read4, hg]⟩
  | write4 a v =>
    have hg := Option.not_isSome_iff_eq_none.mp (mt wordRegion_default_isSome.mp h)
    exact ⟨_, rfl, by rw [accessAt, write4, hg]⟩
  | read1 a =>
    have hx := Option.not_isSome_iff_eq_none.mp (mt byteRegion_default_isSome.mp h)
    exact ⟨_, ⟨_, rfl⟩, by rw [accessAt, read1, hx]⟩
  | write1 a v =>
    have hx := Option.not_isSome_iff_eq_none.mp (mt byteRegion_default_isSome.mp h)
    exact ⟨_, rfl, by rw [accessAt, write1, hx]⟩

/-- A legal write to a busy core is dropped (20_memory.md R79). -/
theorem accessAt_write_busy {s : State} (hbusy : s.phase = .busy) (hlegal : LegalAccess op off)
    (hwrite : op.isWrite = true) :
    accessAt Config.default op off s = respond (.okay .none) (writeBusy s) := by
  have hb : s.busy = true := decide_eq_true hbusy
  cases op with
  | read4 a => cases hwrite
  | read1 a => cases hwrite
  | write4 a v =>
    obtain ⟨g, hg⟩ := Option.isSome_iff_exists.mp (wordRegion_default_isSome.mpr hlegal)
    simp only [accessAt, write4, hg, hb, if_true]
  | write1 a v =>
    obtain ⟨x, hx⟩ := Option.isSome_iff_exists.mp (byteRegion_default_isSome.mpr hlegal)
    simp only [accessAt, write1, hx, hb, if_true]

end Outcome

theorem step_port_in_reset {s : State} {ts : List Turn} {op : PortOp} {off : Nat}
    (hturns : s.port.turns = .port op :: ts) (hrst : s.port.rst = true)
    (haddr : op.addr = Config.default.base + off) (hoff : off < 0x2000000) :
    step s = .next (accessInReset Config.default op (takeTurn ts s)) := by
  have hsel : Config.default.offset? op.addr = some off := offset?_eq_some.mpr ⟨haddr, hoff⟩
  have hrst' : (takeTurn ts s).port.rst = true := hrst
  rw [step, turnStep_port _ _ hturns, portAccess, hsel]
  simp only [hrst', if_true]

/-- Settles O45: in reset every access is refused; out of reset the map decides. -/
theorem onlyLegalAccessesAreAnsweredOkay : Obligations.OnlyLegalAccessesAreAnsweredOkay := by
  intro s ts op off hturns haddr hoff
  cases hrst : s.port.rst with
  | true =>
    obtain ⟨d, hd, hreset⟩ := accessInReset_eq Config.default op (takeTurn ts s)
    refine ⟨d, hd, nofun, fun _ => ?_⟩
    rw [step_port_in_reset hturns hrst haddr hoff, hreset]
    rfl
  | false =>
    have hstep := step_port hturns hrst haddr hoff
    by_cases hlegal : LegalAccess op off
    · obtain ⟨d, hd, hport⟩ := accessAt_legal (takeTurn ts s) hlegal
      exact ⟨d, hd, fun _ => ⟨_, hstep, hport⟩, fun hnot => absurd ⟨rfl, hlegal⟩ hnot⟩
    · obtain ⟨d, hd, herror⟩ := accessAt_illegal (takeTurn ts s) hlegal
      exact ⟨d, hd, fun h => absurd h.2 hlegal, fun _ => hstep.trans (congrArg _ herror)⟩

/-- Settles O46: a read is not selected, or only answers. -/
theorem hostReadsHaveNoSideEffect : Obligations.HostReadsHaveNoSideEffect := by
  intro s ts op hturns hread
  have hstep : step s = .next (portAccess Config.default op (takeTurn ts s)) := turnStep_port _ _ hturns
  refine ⟨_, hstep, ?_⟩
  obtain hsame | ⟨r, hr⟩ := portAccess_read Config.default (takeTurn ts s) hread
  · rw [hsame]
    exact ⟨rfl, rfl, rfl⟩
  · rw [hr]
    exact ⟨rfl, rfl, rfl⟩

/-! ### A busy core -/

theorem step_readReg_busy {s : State} {ts : List Turn} {off : Nat}
    (hturns : s.port.turns = .port (.read4 (Config.default.base + off)) :: ts) (hrst : s.port.rst = false)
    (hbusy : s.phase = .busy) (hoff : off < 0x100) (h4 : off % 4 = 0) (hreg : (regAt off).readableBusy = true) :
    step s = .next (answered ts (.okay (.word (readReg (regAt off) s))) s) := by
  have hb : (takeTurn ts s).busy = true := decide_eq_true hbusy
  have hsame : readReg (regAt off) (takeTurn ts s) = readReg (regAt off) s :=
    readWordIdle_takeTurn (.reg (regAt off)) s ts
  rw [step_port hturns hrst rfl (by omega)]
  simp only [accessAt, read4, wordRegion_reg _ hoff h4, hb, if_true, readWordBusy, hreg, hsame]
  rfl

/-- Settles O47: a legal write to a busy core is dropped, and the four registers of 20_memory.md R79 are readable. -/
theorem accessWhileBusy : Obligations.AccessWhileBusy := by
  intro s ts op off hturns hrst hbusy haddr hlegal
  refine ⟨fun hwrite => ?_, ?_⟩
  · rw [step_port hturns hrst haddr hlegal.lt, accessAt_write_busy (s := takeTurn ts s) hbusy hlegal hwrite]
    rfl
  · rintro a rfl
    obtain rfl : a = Config.default.base + off := haddr
    refine ⟨?_, ?_, ?_, ?_⟩ <;> rintro rfl <;> exact step_readReg_busy hturns hrst hbusy (by decide) (by decide) rfl

/-! ### The window of `PIX` -/

section Pix

variable {cfg : Config ν} {a : Nat}

theorem regionAt_pix (hcfg : cfg.wf = true) (ha : a < cfg.pixBytes) :
    regionAt cfg (0x1000000 + a) = some (.pix a) := by
  have hsizes : 4 * cfg.maxtext ≤ 65536 ∧ 4 * cfg.maxout ≤ 65536 ∧ cfg.maxbits ≤ 524288 := by
    simp only [Config.wf, Bool.and_eq_true, decide_eq_true_eq] at hcfg
    omega
  have hwindow : a < pixWindow cfg := by
    unfold pixWindow
    omega
  have hbits : bitsWords cfg ≤ 16384 := by
    unfold bitsWords
    omega
  rw [regionAt, if_neg (by omega), if_neg (by omega), if_neg (by omega), if_neg (by omega), if_neg (by omega),
    if_neg (by omega), if_pos (by omega), Nat.add_sub_cancel_left]

theorem wordRegion_pix (hcfg : cfg.wf = true) (ha : a < cfg.pixBytes) (h4 : a % 4 = 0) :
    wordRegion cfg (0x1000000 + a) = some (.pix a) := by
  rw [wordRegion, if_pos (by omega), regionAt_pix hcfg ha]

theorem byteRegion_pix (hcfg : cfg.wf = true) (ha : a < cfg.pixBytes) : byteRegion cfg (0x1000000 + a) = some a := by
  rw [byteRegion, regionAt_pix hcfg ha]

theorem writePix_frame (cfg : Config ν) (a : Nat) (v : Byte) (m : Memory ν) :
    ∃ pix', writePix cfg a v m = { m with pix := pix' } := by
  unfold writePix
  split_ifs
  · exact ⟨_, rfl⟩
  · exact ⟨m.pix, rfl⟩

theorem writeWordIdle_pix_frame (cfg : Config ν) (a : Nat) (v : Word) (s : State.Of ν) :
    ∃ pix', writeWordIdle cfg (.pix a) v s = { s with mem := { s.mem with pix := pix' } } := by
  obtain ⟨p0, h0⟩ := writePix_frame cfg a (byteLane v 0) s.mem
  obtain ⟨p1, h1⟩ := writePix_frame cfg (a + 1) (byteLane v 1) { s.mem with pix := p0 }
  obtain ⟨p2, h2⟩ := writePix_frame cfg (a + 2) (byteLane v 2) { s.mem with pix := p1 }
  obtain ⟨p3, h3⟩ := writePix_frame cfg (a + 3) (byteLane v 3) { s.mem with pix := p2 }
  exact ⟨p3, by rw [writeWordIdle, h0, h1, h2, h3]⟩

/-- A word write sets byte `a + k` from lane `k` of the word (20_memory.md R72). -/
theorem pixByte_writeWordIdle_pix (ha : a + 3 < cfg.pixBytes) (v : Word) (s : State.Of ν) (x : Nat) :
    (writeWordIdle cfg (.pix a) v s).mem.pixByte cfg x =
      if a ≤ x ∧ x < a + 4 then byteLane v (x - a) else s.mem.pixByte cfg x := by
  simp only [writeWordIdle, pixByte_writePix cfg _ _ x _ ha,
    pixByte_writePix cfg _ _ x _ (show a + 2 < cfg.pixBytes by omega),
    pixByte_writePix cfg _ _ x _ (show a + 1 < cfg.pixBytes by omega),
    pixByte_writePix cfg _ _ x _ (show a < cfg.pixBytes by omega)]
  by_cases hx : a ≤ x ∧ x < a + 4
  · obtain rfl | rfl | rfl | rfl : x = a ∨ x = a + 1 ∨ x = a + 2 ∨ x = a + 3 := by omega
    all_goals simp
  · rw [if_neg hx, if_neg (by omega), if_neg (by omega), if_neg (by omega), if_neg (by omega)]

theorem extractLsb'_append_byte {n : Nat} (x : BitVec n) (b : Byte) (k : Nat) :
    (x ++ b).extractLsb' (8 * (k + 1)) 8 = x.extractLsb' (8 * k) 8 := by
  rw [BitVec.extractLsb'_append_eq_of_le (by omega), Nat.mul_succ, Nat.add_sub_cancel]

theorem byteLane_append (b : Nat → Byte) {k : Nat} (hk : k < 4) :
    byteLane (b 3 ++ b 2 ++ b 1 ++ b 0 : BitVec 32) k = b k := by
  have hlow : ∀ {n : Nat} (x : BitVec n) (c : Byte), (x ++ c).extractLsb' (8 * 0) 8 = c :=
    fun _ _ => BitVec.extractLsb'_append_eq_right
  match k with
  | 0 => exact hlow _ _
  | 1 => exact (extractLsb'_append_byte _ _ 0).trans (hlow _ _)
  | 2 => exact (extractLsb'_append_byte _ _ 1).trans ((extractLsb'_append_byte _ _ 0).trans (hlow _ _))
  | 3 =>
    exact (extractLsb'_append_byte _ _ 2).trans
      ((extractLsb'_append_byte _ _ 1).trans BitVec.extractLsb'_append_eq_left)

theorem readPix_of_lt (s : State.Of ν) (n : Nat) (ha : a < cfg.pixBytes) : readPix cfg s a n = s.mem.pixByte cfg a :=
  if_pos ha

/-- Lane `k` of a word read is byte `a + k` (20_memory.md R72). -/
theorem byteLane_readWordIdle_pix (ha : a + 3 < cfg.pixBytes) (s : State.Of ν) {k : Nat} (hk : k < 4) :
    byteLane (readWordIdle cfg s (.pix a)) k = s.mem.pixByte cfg (a + k) := by
  rw [readWordIdle]
  exact (byteLane_append (fun n => readPix cfg s (a + n) n) hk).trans (readPix_of_lt s k (by omega))

end Pix

section PixByte

variable {s : State} {ts : List Turn} {a : Nat}

theorem step_read1_idle (hturns : s.port.turns = .port (.read1 (Config.default.base + (0x1000000 + a))) :: ts)
    (hrst : s.port.rst = false) (hidle : s.phase = .idle) (ha : a < Config.default.pixBytes) :
    step s = .next (answered ts (.okay (.byte (s.mem.pixByte Config.default a))) s) := by
  have hbusy : (takeTurn ts s).busy = false := busy_eq_false hidle
  have hoff : a < 3145728 := ha
  rw [step_port hturns hrst rfl (by omega)]
  simp only [accessAt, read1, byteRegion_pix default_wf ha, hbusy, Bool.false_eq_true, if_false, readPix_of_lt _ _ ha]
  rfl

theorem step_write1_idle {v : Byte}
    (hturns : s.port.turns = .port (.write1 (Config.default.base + (0x1000000 + a)) v) :: ts)
    (hrst : s.port.rst = false) (hidle : s.phase = .idle) (ha : a < Config.default.pixBytes) :
    step s = .next (answered ts (.okay .none) { s with mem := writePix Config.default a v s.mem }) := by
  have hbusy : (takeTurn ts s).busy = false := busy_eq_false hidle
  have hoff : a < 3145728 := ha
  rw [step_port hturns hrst rfl (by omega)]
  simp only [accessAt, write1, byteRegion_pix default_wf ha, hbusy, Bool.false_eq_true, if_false]
  rfl

end PixByte

/-- Settles O52: a word access reaches the four bytes of its word, lane by lane, and a byte access reaches one. -/
theorem pixWindowIsLittleEndian : Obligations.PixWindowIsLittleEndian := by
  intro s ts a hrst hidle ha
  have hlast : a % 4 = 0 → a + 3 < Config.default.pixBytes := by
    have hsize : Config.default.pixBytes = 3145728 := rfl
    omega
  simp only [Nat.add_assoc]
  refine ⟨fun v h4 hturns => ?_, fun h4 hturns => ?_, fun v hturns => ?_, fun hturns => ?_⟩
  · have hstep := step_write4_idle hturns hrst hidle (wordRegion_pix default_wf ha h4)
    have hbyte := pixByte_writeWordIdle_pix (hlast h4) v s
    obtain ⟨pix', hpix⟩ := writeWordIdle_pix_frame Config.default a v s
    rw [hpix] at hstep hbyte
    refine ⟨pix', hstep, fun k hk => ?_, fun x hx => (hbyte x).trans (if_neg hx)⟩
    rw [hbyte, if_pos (by omega), Nat.add_sub_cancel_left, byteLane]
  · exact ⟨_, step_read4_idle hturns hrst hidle (wordRegion_pix default_wf ha h4),
      fun k hk => byteLane_readWordIdle_pix (hlast h4) s hk⟩
  · have hstep := step_write1_idle hturns hrst hidle ha
    have hbyte := fun x => pixByte_writePix Config.default s.mem a x v ha
    obtain ⟨pix', hpix⟩ := writePix_frame Config.default a v s.mem
    rw [hpix] at hstep hbyte
    exact ⟨pix', hstep, (hbyte a).trans (if_pos rfl), fun x hx => (hbyte x).trans (if_neg hx)⟩
  · exact step_read1_idle hturns hrst hidle ha

/-! ### The window of `BITS` -/

section Bits

variable {cfg : Config ν} {k : Nat}

theorem wordRegion_bits (hcfg : cfg.wf = true) (hk : 32 * k < cfg.maxbits) :
    wordRegion cfg (0x30000 + 4 * k) = some (.bits k) := by
  have hsizes : 4 * cfg.maxtext ≤ 65536 ∧ 4 * cfg.maxout ≤ 65536 := by
    simp only [Config.wf, Bool.and_eq_true, decide_eq_true_eq] at hcfg
    omega
  have hwindow : k < bitsWords cfg := by
    unfold bitsWords
    omega
  have e : (0x30000 + 4 * k - 0x30000) / 4 = k := by omega
  rw [wordRegion, if_pos (by omega), regionAt, if_neg (by omega), if_neg (by omega), if_neg (by omega),
    if_neg (by omega), if_neg (by omega), if_pos (by omega), e]

/-- A word write sets the cells of the word below `MAXBITS`, the first from bit 31 (20_memory.md R76). -/
theorem bit_writeBitsWord (v : Word) (m : Memory ν) (x : Nat) :
    (writeBitsWord cfg k v m).bit cfg x =
      if 32 * k ≤ x ∧ x < 32 * k + 32 ∧ x < cfg.maxbits then v.getLsbD (31 - (x - 32 * k)) else m.bit cfg x := by
  simp only [writeBitsWord, Memory.bit, Cells.get?_setSeq, List.length_map, List.length_range, List.getElem_map,
    List.getElem_range]
  by_cases hx : 32 * k ≤ x ∧ x < 32 * k + 32 ∧ x < cfg.maxbits
  · rw [dif_pos (by omega), if_pos hx, Option.getD_some]
  · rw [dif_neg (by omega), if_neg hx]

/-- A word read holds cell `32k + t` in bit `31 − t` (20_memory.md R76). -/
theorem readBitsWord_getLsbD (m : Memory ν) {t : Nat} (ht : t < 32) :
    (readBitsWord cfg m k).getLsbD (31 - t) =
      if 32 * k + t < cfg.maxbits then m.bit cfg (32 * k + t) else false := by
  have e : 31 - (31 - t) = t := by omega
  rw [readBitsWord, BitVec.getLsbD_ofFnLE, dif_pos (by omega), e]
  by_cases hcell : 32 * k + t < cfg.maxbits <;> simp [hcell]

end Bits

/-- Settles O53: the cells that a word write sets and a word read holds are those below `MAXBITS`. -/
theorem bitsWindowPacksFirstBitHigh : Obligations.BitsWindowPacksFirstBitHigh := by
  intro s ts k v hrst hidle hk
  have hregion := wordRegion_bits default_wf hk
  simp only [Nat.add_assoc]
  refine ⟨fun hturns => ?_, fun hturns => ?_⟩
  · refine ⟨_, step_write4_idle hturns hrst hidle hregion, fun t ht hcell => ?_, fun x hx => ?_⟩
    · refine (bit_writeBitsWord v s.mem (32 * k + t)).trans ?_
      rw [if_pos (by omega), Nat.add_sub_cancel_left]
    · exact (bit_writeBitsWord v s.mem x).trans (if_neg (by omega))
  · exact ⟨_, step_read4_idle hturns hrst hidle hregion, fun t ht => readBitsWord_getLsbD s.mem ht⟩

end Sys2Proof.Machine
end

section
/-! PROOFS. 30_encoding.md, O1 to O3: decoding and encoding are inverse, and the opcode table covers the legal words. -/

namespace Sys2Proof.Laws

theorem OpcodeRow.all : ∀ i, OpcodeRow.Statement i
  | .nop => nop | .t2b => t2b | .b2t => b2t | .cscf => cscf | .csci => csci | .itrst => itrst | .itnext => itnext
  | .blkld => blkld | .blkst => blkst | .fdct => fdct | .idct => idct | .qemb b => qemb b | .qext => qext
  | .cap => cap | .embed => embed | .extract => extract

end Sys2Proof.Laws

namespace Sys2Proof

variable {w : Word} {i : Instr}

/-! ### A word is its fields -/

theorem zeroFieldN_append_opcField (w : Word) : zeroFieldN w ++ opcField w = w := by
  rw [zeroFieldN, opcField, BitVec.extractLsb'_append_extractLsb'_eq_extractLsb' (by decide)]
  exact BitVec.extractLsb'_eq_self

theorem zeroFieldB_append_bitField_append_opcField (w : Word) :
    zeroFieldB w ++ (BitVec.ofBool (bitField w) ++ opcField w) = w := by
  have hbit : BitVec.ofBool (bitField w) = w.extractLsb' 8 1 := by
    ext k hk
    obtain rfl : k = 0 := Nat.lt_one_iff.mp hk
    simp [bitField]
  rw [hbit, zeroFieldB, opcField, BitVec.extractLsb'_append_extractLsb'_eq_extractLsb' (by decide),
    BitVec.extractLsb'_append_extractLsb'_eq_extractLsb' (by decide)]
  exact BitVec.extractLsb'_eq_self

/-! ### Decoding and encoding -/

theorem Instr.wf_eq_true (i : Instr) : i.wf = true := by
  cases i with
  | qemb b => cases b <;> rfl
  | _ => rfl

theorem decode_encode (i : Instr) : decode (encode i) = .ok i := by
  cases i with
  | qemb b => cases b <;> decide
  | _ => decide

theorem encode_qemb (b : Bool) : encode (.qemb b) = 0#23 ++ (BitVec.ofBool b ++ 0x0B#8) := by
  cases b <;> rfl

theorem encode_of_decodeN {opc : Byte} (h : decodeN opc = .ok i) : encode i = 0#24 ++ opc := by
  have hopc : opc = BitVec.ofNat 8 opc.toNat := by simp
  unfold decodeN at h
  split at h <;> cases h
  all_goals
    next hk =>
      rw [hopc, hk]
      rfl

/-- What a word that decodes looks like: a `QEMB` word or a word of format N (30_encoding.md R101, R102). -/
theorem decode_cases (h : decode w = .ok i) :
    (opcField w = 0x0B ∧ zeroFieldB w = 0 ∧ i = .qemb (bitField w)) ∨
      (zeroFieldN w = 0 ∧ decodeN (opcField w) = .ok i) := by
  unfold decode at h
  split at h
  next hopc =>
    split at h
    · cases h
    next hzero =>
      cases h
      exact .inl ⟨hopc, not_not.mp hzero, rfl⟩
  next =>
    split at h
    · cases h
    next hzero => exact .inr ⟨not_not.mp hzero, h⟩

theorem encode_of_decode (h : decode w = .ok i) : encode i = w := by
  rcases decode_cases h with ⟨hopc, hzero, rfl⟩ | ⟨hzero, hi⟩
  · have e := zeroFieldB_append_bitField_append_opcField w
    rw [hzero, hopc] at e
    exact (encode_qemb _).trans e
  · have e := zeroFieldN_append_opcField w
    rw [hzero] at e
    exact (encode_of_decodeN hi).trans e

theorem decode_eq_ok_iff : decode w = .ok i ↔ encode i = w :=
  ⟨encode_of_decode, fun h => h ▸ decode_encode i⟩

/-- Settles O1: a word that decodes is made of the fields that its command's word has. -/
theorem decodeIsInverseOfEncode : Obligations.DecodeIsInverseOfEncode :=
  ⟨fun i _ => decode_encode i, fun _ i h => ⟨i.wf_eq_true, encode_of_decode h⟩⟩

/-! ### The opcode table -/

/-- The row of `QEMB`, which leaves bit 8 open (30_encoding.md R107). -/
def OpcodeRow.formatB : OpcodeRow := { mask := 0xFFFFFEFF, pattern := 0x0000000B }

theorem formatN_covers_iff {k : Word} : (OpcodeRow.formatN k).covers w = true ↔ w = k := by
  have hmask : w &&& 0xFFFFFFFF#32 = w := BitVec.and_allOnes
  simp [OpcodeRow.covers, OpcodeRow.formatN, hmask]

theorem encode_of_formatB_covers (h : OpcodeRow.formatB.covers w = true) : encode (.qemb (bitField w)) = w := by
  have hfixed : w &&& 0xFFFFFEFF = 0x0B := by simpa [OpcodeRow.covers, OpcodeRow.formatB] using h
  have hopen : w &&& 0x100 = if bitField w then 0x100 else 0 := BitVec.and_twoPow w 8
  have hw : w = (w &&& 0xFFFFFEFF) ||| (w &&& 0x100) := by
    rw [← BitVec.and_or_distrib_left]
    exact BitVec.and_allOnes.symm
  rw [hfixed, hopen] at hw
  rw [hw]
  cases bitField w <;> decide

theorem opcodeTable_eq :
    opcodeTable =
      [.nop, .t2b, .b2t, .cscf, .csci, .itrst, .itnext, .blkld, .blkst, .fdct, .idct].map (.formatN ∘ encode)
        ++ [.formatB] ++ [.qext, .cap, .embed, .extract].map (.formatN ∘ encode) := rfl

theorem eq_formatB_or_formatN_of_mem {row : OpcodeRow} (h : row ∈ opcodeTable) :
    row = .formatB ∨ ∃ i, row = .formatN (encode i) := by
  simp only [opcodeTable_eq, List.mem_append, List.mem_map, List.mem_singleton] at h
  obtain (⟨i, -, rfl⟩ | rfl) | ⟨i, -, rfl⟩ := h
  · exact .inr ⟨i, rfl⟩
  · exact .inl rfl
  · exact .inr ⟨i, rfl⟩

theorem exists_encode_of_covers {row : OpcodeRow} (hrow : row ∈ opcodeTable) (h : row.covers w = true) :
    ∃ i, encode i = w := by
  rcases eq_formatB_or_formatN_of_mem hrow with rfl | ⟨i, rfl⟩
  · exact ⟨_, encode_of_formatB_covers h⟩
  · exact ⟨i, (formatN_covers_iff.mp h).symm⟩

theorem length_filter_covers_encode (i : Instr) : (opcodeTable.filter fun row => row.covers (encode i)).length = 1 :=
  Laws.OpcodeRow.all i

theorem exists_covers_encode (i : Instr) : ∃ row ∈ opcodeTable, row.covers (encode i) = true := by
  have hone := length_filter_covers_encode i
  obtain ⟨row, hrow⟩ := List.exists_mem_of_length_pos (hone ▸ Nat.one_pos)
  exact ⟨row, List.mem_filter.mp hrow⟩

theorem opcodeTable_disjoint :
    opcodeTable.Pairwise fun a b => ∀ w : Word, ¬(a.covers w = true ∧ b.covers w = true) := by
  refine List.pairwise_iff_forall_sublist.mpr fun {a b} hab w ⟨ha, hb⟩ => ?_
  obtain ⟨i, rfl⟩ := exists_encode_of_covers (hab.subset List.mem_cons_self) ha
  have hone := length_filter_covers_encode i
  have htwo := (hab.filter fun row => row.covers (encode i)).length_le
  simp [ha, hb, hone] at htwo

/-- Settles O2: the rows cover the words of the commands, and one row of the table covers each of them. -/
theorem legalWordsAreTheTableRows : Obligations.LegalWordsAreTheTableRows := by
  refine ⟨fun w => ⟨?_, ?_⟩, rfl, opcodeTable_disjoint⟩
  · rintro ⟨i, hi⟩
    exact encode_of_decode hi ▸ exists_covers_encode i
  · rintro ⟨row, hrow, h⟩
    exact (exists_encode_of_covers hrow h).imp fun _ => decode_eq_ok_iff.mpr

/-- Settles O3: the legal words are the words of their commands. -/
theorem sampleWordsDecode : Obligations.SampleWordsDecode := by
  refine ⟨decode_encode .nop, decode_encode .t2b, decode_encode .cscf, decode_encode .blkld, decode_encode .idct,
    decode_encode (.qemb false), decode_encode (.qemb true), decode_encode .cap, decode_encode .embed,
    decode_encode .extract, ?_⟩
  decide

end Sys2Proof
end

section
/-! PROOFS. 40_bit_codec.md, O10 to O12: the bitstream of a text, the text of a bitstream, and the way there and
back. -/

namespace Sys2Proof.Machine

/-! ### Consecutive cells written from the first one -/

theorem Cells.get?_setSeq_zero {α : Type} (m : List (Nat × α)) (vs : List α) (k : Nat) :
    Cells.get? (Cells.setSeq m 0 vs) k = vs[k]?.or (Cells.get? m k) := by
  rw [Cells.get?_setSeq]
  by_cases hk : k < vs.length <;> simp [hk]

section

variable {ν : Type} {cfg : Config ν}

theorem bit_setSeq (m : Memory ν) (bs : List Bool) (k : Nat) :
    ({ m with bits := Cells.setSeq m.bits 0 bs } : Memory ν).bit cfg k = bs[k]?.getD (m.bit cfg k) := by
  simp only [Memory.bit, Cells.get?_setSeq_zero, Option.getD_or]

theorem outWord_setSeq (m : Memory ν) (ps : List Word) (g : Nat) :
    ({ m with out := Cells.setSeq m.out 0 ps } : Memory ν).outWord cfg g = ps[g]?.getD (m.outWord cfg g) := by
  simp only [Memory.outWord, Cells.get?_setSeq_zero, Option.getD_or]

/-! ### The bits of a text (40_bit_codec.md R130 to R132) -/

theorem charBits_getElem? (p : Word) {t : Nat} (ht : t < 8) : (charBits p)[t]? = some (p.getLsbD (7 - t)) := by
  simp [charBits, ht]

/-- Bit `t` of character `k` stands at place `8k + t`. -/
theorem flatMap_charBits_getElem? (ps : List Word) (k : Nat) {t : Nat} (ht : t < 8) :
    (ps.flatMap charBits)[8 * k + t]? = ps[k]?.map (·.getLsbD (7 - t)) := by
  have hlen (p : Word) : (charBits p).length = 8 := by simp [charBits]
  induction ps generalizing k with
  | nil => simp
  | cons p ps ih =>
    rw [List.flatMap_cons]
    cases k with
    | zero =>
      rw [List.getElem?_append_left (by rw [hlen]; omega), Nat.mul_zero, Nat.zero_add, charBits_getElem? p ht]
      rfl
    | succ k =>
      have e : 8 * (k + 1) + t - 8 = 8 * k + t := by omega
      rw [List.getElem?_append_right (by rw [hlen]; omega), hlen, e, ih]
      rfl

theorem textBits_length (s : State.Of ν) : ((textWords cfg s).flatMap charBits).length = 8 * s.textLen := by
  have h := length_payload (cfg := cfg) s
  simpa [payload, delimiter, State.Of.payloadBits] using h

theorem payload_getElem?_text {s : State.Of ν} {k t : Nat} (hk : k < s.textLen) (ht : t < 8) :
    (payload cfg s)[8 * k + t]? = some ((s.mem.txtWord cfg k).getLsbD (7 - t)) := by
  rw [payload, List.getElem?_append_left (by rw [textBits_length]; omega), flatMap_charBits_getElem? _ _ ht]
  simp [textWords, hk]

theorem payload_getElem?_delimiter {s : State.Of ν} {t : Nat} (ht : t < 16) :
    (payload cfg s)[8 * s.textLen + t]? = some (delimBit t) := by
  rw [payload, List.getElem?_append_right (by rw [textBits_length]; omega), textBits_length, Nat.add_sub_cancel_left]
  simp [delimiter, ht]

theorem payload_getElem?_past {s : State.Of ν} {k : Nat} (hk : s.payloadBits ≤ k) : (payload cfg s)[k]? = none :=
  List.getElem?_eq_none (by rwa [length_payload])

/-! ### The checks of the two commands (40_bit_codec.md R132, R133) -/

theorem t2b_error_len {s : State.Of ν} (h : s.textLen > cfg.maxtext) : t2b cfg s = .error .len := by
  simp [t2b, State.Of.badTextLen, h]

theorem t2b_error_unenc {s : State.Of ν} (hlen : s.textLen ≤ cfg.maxtext)
    (h : ∃ k < s.textLen, (s.mem.txtWord cfg k).toNat > 255) : t2b cfg s = .error .unenc := by
  have hbad : s.badText cfg = true := by simpa [State.Of.badText] using h
  simp [t2b, badTextLen_eq_false.mpr hlen, hbad]

theorem b2t_error_len {s : State.Of ν} (h : s.nBits > cfg.maxbits) : b2t cfg s = .error .len := by
  simp [b2t, State.Of.badBitLen, h]

/-! ### The characters of a bitstream (40_bit_codec.md R130, R131, R133) -/

theorem decodeChars_getElem? {bit : Nat → Bool} {m g : Nat} :
    (decodeChars bit m)[g]? = if g < m then some (charAt bit g) else none := by
  by_cases hg : g < m <;> simp [decodeChars, hg]

end

/-- The two runs of eight equal bits, as one run of sixteen delimiter bits. -/
theorem endsDelim_iff {bit : Nat → Bool} {n : Nat} :
    EndsDelim bit n ↔ 16 ≤ n ∧ ∀ t < 16, bit (n - 16 + t) = decide (t ≤ 7) := by
  refine and_congr_right fun hn => ?_
  have e (t : Nat) : n - 8 + t = n - 16 + (t + 8) := by omega
  refine ⟨fun ⟨hone, hzero⟩ t ht => ?_, fun h => ⟨fun t ht => ?_, fun t ht => ?_⟩⟩
  · obtain hlow | ⟨u, rfl⟩ : t < 8 ∨ ∃ u, t = u + 8 := (Nat.lt_or_ge t 8).imp_right Nat.exists_eq_add_of_le'
    · rw [hone t hlow, decide_eq_true (by omega)]
    · rw [← e, hzero u (by omega), decide_eq_false (by omega)]
  · rw [h t (by omega), decide_eq_true (by omega)]
  · rw [e, h (t + 8) (by omega), decide_eq_false (by omega)]

theorem endsWithDelim_iff {bit : Nat → Bool} {n : Nat} : endsWithDelim bit n = true ↔ EndsDelim bit n := by
  simp [endsDelim_iff, endsWithDelim, delimBit]

/-- A word of at most eight bits has the value of a bit group that holds them, most significant first. -/
theorem toNat_eq_groupValue {p : Word} {bit : Nat → Bool} {g : Nat} (hp : p.toNat ≤ 255)
    (hbits : ∀ t < 8, bit (8 * g + t) = p.getLsbD (7 - t)) : p.toNat = groupValue bit g := by
  have hsum : groupValue bit g = ∑ t ∈ Finset.range 8, p.toNat / 2 ^ (7 - t) % 2 * 2 ^ (7 - t) :=
    Finset.sum_congr rfl fun t ht => by
      rw [hbits t (Finset.mem_range.mp ht), ← BitVec.testBit_toNat, Nat.toNat_testBit]
  rw [hsum]
  simp only [Finset.sum_range_succ, Finset.sum_range_zero]
  omega

theorem charAt_getLsbD (bit : Nat → Bool) (g k : Nat) :
    (charAt bit g).getLsbD k = (decide (k < 8) && bit (8 * g + (7 - k))) := by
  rw [charAt, BitVec.getLsbD_ofFnLE]
  split_ifs with hk
  · rfl
  · simp; omega

theorem charAt_toNat_le (bit : Nat → Bool) (g : Nat) : (charAt bit g).toNat ≤ 255 := by
  refine Nat.le_of_lt_succ (Nat.lt_pow_two_of_testBit (n := 8) _ fun k hk => ?_)
  rw [BitVec.testBit_toNat, charAt_getLsbD, decide_eq_false (by omega), Bool.false_and]

theorem charAt_toNat (bit : Nat → Bool) (g : Nat) : (charAt bit g).toNat = groupValue bit g := by
  refine toNat_eq_groupValue (charAt_toNat_le bit g) fun t ht => ?_
  have e : 7 - (7 - t) = t := by omega
  rw [charAt_getLsbD, decide_eq_true (by omega), Bool.true_and, e]

theorem bitsToGroup_eq {s : State} {n : Nat}
    (h : EndsDelim (s.mem.bit Config.default) s.nBits ∧ n = s.nBits - 16 ∨
      ¬EndsDelim (s.mem.bit Config.default) s.nBits ∧ n = s.nBits) : bitsToGroup Config.default s = n := by
  rcases h with ⟨hends, rfl⟩ | ⟨hends, rfl⟩
  · exact if_pos (endsWithDelim_iff.mpr hends)
  · exact if_neg (mt endsWithDelim_iff.mp hends)

/-! ### The two commands -/

/-- Settles O10: the two checks in their order, else the bitstream of the text at the start of `BITS`. -/
theorem t2bEncodesTheText : Obligations.T2bEncodesTheText := by
  refine ⟨rfl, fun s => ⟨fun hlong => ?_, fun hlen hchar => ?_, fun ⟨hlen, hchars⟩ => ?_⟩⟩
  · exact congrArg (finish s) (t2b_error_len hlong)
  · exact congrArg (finish s) (t2b_error_unenc hlen hchar)
  · have hbits := bit_setSeq (cfg := Config.default) s.mem (payload Config.default s)
    refine ⟨_, congrArg (finish s) (t2b_ok.mpr ⟨badTextLen_eq_false.mpr hlen, badText_eq_false.mpr hchars, rfl⟩),
      fun k hk t ht => ?_, fun t ht => ?_, fun k hk => ?_⟩
    · rw [hbits, payload_getElem?_text hk ht, Option.getD_some]
    · rw [hbits, payload_getElem?_delimiter ht, Option.getD_some]
      rfl
    · rw [hbits, payload_getElem?_past hk, Option.getD_none]

/-- Settles O11: the check, else the characters of the full groups at the start of `OUT`. -/
theorem b2tDecodesTheBits : Obligations.B2tDecodesTheBits := by
  refine ⟨rfl, fun s => ⟨fun hlong => congrArg (finish s) (b2t_error_len hlong), fun n hlen hn => ?_⟩⟩
  have hout := outWord_setSeq (cfg := Config.default) s.mem (decodeChars (s.mem.bit Config.default) (n / 8))
  refine ⟨_, congrArg (finish s) (b2t_ok.mpr ⟨badBitLen_eq_false.mpr hlen, by rw [bitsToGroup_eq hn]; rfl⟩),
    fun g hg => ?_, fun g hg => ?_⟩
  · rw [hout, decodeChars_getElem?, if_pos hg, Option.getD_some, charAt_toNat]
  · rw [hout, decodeChars_getElem?, if_neg (by omega), Option.getD_none]

/-- Settles O12: `T2B` leaves bits that end with the delimiter (O10), and without it their groups are the characters of
the text (O11). -/
theorem codecRoundTrip : Obligations.CodecRoundTrip := by
  intro s hs
  obtain ⟨-, ht2b⟩ := t2bEncodesTheText
  obtain ⟨-, -, hencode⟩ := ht2b s
  obtain ⟨bits', ht, hchar, hdelim, -⟩ := hencode hs
  obtain ⟨hlen, hchars⟩ := hs
  generalize ht' : completed _ _ = t at ht
  have hmem : t.mem = { s.mem with bits := bits' } := ht' ▸ rfl
  have hmax : Config.default.maxtext = 2048 := rfl
  have hn : t.nBits = 8 * s.textLen + 16 := ht' ▸ Nat.mod_eq_of_lt (by omega)
  have hends : EndsDelim (t.mem.bit Config.default) t.nBits := by
    rw [hn, hmem]
    exact endsDelim_iff.mpr ⟨by omega, hdelim⟩
  obtain ⟨-, hb2t⟩ := b2tDecodesTheBits
  obtain ⟨-, hdecode⟩ := hb2t t
  have hmaxbits : Config.default.maxbits = 16400 := by decide
  obtain ⟨out', hu, hgroup, -⟩ := hdecode (8 * s.textLen) (by omega) (.inl ⟨hends, by omega⟩)
  rw [Nat.mul_div_cancel_left _ (by decide)] at hu hgroup
  refine ⟨t, _, ht, hu, rfl, Nat.mod_eq_of_lt (by omega), fun g hg => BitVec.eq_of_toNat_eq ?_⟩
  rw [toNat_eq_groupValue (hchars g hg) (hchar g hg), ← hmem]
  exact hgroup g hg

end Sys2Proof.Machine
end

section
/-! PROOFS. 41_channel_adapter.md, O13 to O15: the planes that `CSCF` fills, the pixels that `CSCI` writes, and the
default colour converter. -/

namespace Sys2Proof.Machine

/-- A cell that a list of writes names holds the value written, if the list names it with no other value. -/
theorem Cells.get?_setMany_of_forall_mem {α : Type} (m : List (Nat × α)) {kvs : List (Nat × α)} {k : Nat} {v : α}
    (hmem : (k, v) ∈ kvs) (honly : ∀ x, (k, x) ∈ kvs → x = v) : Cells.get? (Cells.setMany m kvs) k = some v := by
  induction kvs generalizing m with
  | nil => cases hmem
  | cons kv kvs ih =>
    have honly' (x : α) (hx : (k, x) ∈ kvs) : x = v := honly x (List.mem_cons_of_mem _ hx)
    by_cases hlater : (k, v) ∈ kvs
    · exact ih (Cells.set m kv.1 kv.2) hlater honly'
    · obtain rfl : (k, v) = kv := (List.mem_cons.mp hmem).resolve_right hlater
      have hne : ∀ kv ∈ kvs, kv.1 ≠ k := by
        rintro ⟨_, x⟩ hx rfl
        exact hlater (honly' x hx ▸ hx)
      exact (Cells.get?_setMany_of_not_mem (Cells.set m k v) kvs k hne).trans (Cells.get?_set_self m k v)

section

variable {ν : Type} {cfg : Config ν} {s : State.Of ν}

/-! ### The planes (41_channel_adapter.md R153) -/

theorem mem_planeCells {α : Type} {f : Nat → Nat → α} {k : Nat} {x : α} :
    (k, x) ∈ planeCells cfg s f ↔ ∃ r c, (r < s.h ∧ c < s.w) ∧ planeKey cfg r c = k ∧ f r c = x := by
  simp [planeCells, mem_coords]

/-- A plane after its cells over the image rectangle are written. -/
theorem getD_setMany_planeCells {α : Type} (f : Nat → Nat → α) (m : List (Nat × α)) (d : α) {r c : Nat}
    (hw : s.w ≤ cfg.maxw) (hc : c < cfg.maxw) :
    (Cells.get? (Cells.setMany m (planeCells cfg s f)) (planeKey cfg r c)).getD d =
      if r < s.h ∧ c < s.w then f r c else (Cells.get? m (planeKey cfg r c)).getD d := by
  split_ifs with hin
  · rw [Cells.get?_setMany_of_forall_mem m (mem_planeCells.mpr ⟨r, c, hin, rfl, rfl⟩), Option.getD_some]
    intro x hx
    obtain ⟨r', c', ⟨-, hc'⟩, hkey, rfl⟩ := mem_planeCells.mp hx
    obtain ⟨rfl, rfl⟩ := planeKey_inj (hc'.trans_le hw) hc hkey
    rfl
  · rw [Cells.get?_setMany_of_not_mem]
    rintro ⟨k, x⟩ hx rfl
    obtain ⟨r', c', hin', hkey, -⟩ := mem_planeCells.mp hx
    obtain ⟨rfl, rfl⟩ := planeKey_inj (hin'.2.trans_le hw) hc hkey
    exact hin hin'

/-! ### The bytes of the image (41_channel_adapter.md R154, 20_memory.md R75) -/

/-- The sample of one of the three channels of a pixel. -/
def channel (p : Byte × Byte × Byte) : Fin 3 → Byte := ![p.1, p.2.1, p.2.2]

theorem mem_imageBytes {a : Nat} {x : Byte} :
    (a, x) ∈ imageBytes cfg s ↔
      ∃ r c, (r < s.h ∧ c < s.w) ∧ ∃ n : Fin 3, pixAddr s.w r c + n.val = a ∧ channel (cellRGB cfg s r c) n = x := by
  simp [imageBytes, mem_coords, Fin.exists_fin_succ, channel, eq_comm]

/-- A byte of `PIX` belongs to one channel of one pixel: the pixels are numbered as the cells of a plane as wide as the
image, and each has three bytes. -/
theorem pixAddr_add_inj {w r c r' c' : Nat} {n n' : Fin 3} (hc : c < w) (hc' : c' < w)
    (h : pixAddr w r c + n.val = pixAddr w r' c' + n'.val) : r = r' ∧ c = c' ∧ n = n' := by
  unfold pixAddr at h
  have hpixel : planeKey { Config.default with maxw := w } r c = planeKey { Config.default with maxw := w } r' c' := by
    simp only [planeKey]
    omega
  obtain ⟨rfl, rfl⟩ := planeKey_inj hc hc' hpixel
  exact ⟨rfl, rfl, by omega⟩

/-- The bytes of an image lie below its size, as in a buffer that it fills. -/
theorem pixAddr_add_lt {w h r c : Nat} (hr : r < h) (hc : c < w) (n : Fin 3) : pixAddr w r c + n.val < 3 * w * h := by
  have hlast : pixAddr w r c + 3 ≤ 3 * w * h :=
    pixAddr_add_three_le (cfg := { Config.default with maxw := w, maxh := h }) le_rfl le_rfl hr hc
  omega

theorem pixByte_imageBytes {r c : Nat} (hr : r < s.h) (hc : c < s.w) (n : Fin 3) :
    ({ s.mem with pix := Cells.setMany s.mem.pix (imageBytes cfg s) } : Memory ν).pixByte cfg (pixAddr s.w r c + n.val) =
      channel (cellRGB cfg s r c) n := by
  have hmem := (mem_imageBytes (cfg := cfg)).mpr ⟨r, c, ⟨hr, hc⟩, n, rfl, rfl⟩
  rw [Memory.pixByte, Cells.get?_setMany_of_forall_mem _ hmem, Option.getD_some]
  intro x hx
  obtain ⟨r', c', ⟨-, hc'⟩, n', haddr, rfl⟩ := mem_imageBytes.mp hx
  obtain ⟨rfl, rfl, rfl⟩ := pixAddr_add_inj hc' hc haddr
  rfl

theorem pixByte_past_imageBytes {a : Nat} (ha : 3 * s.w * s.h ≤ a) :
    ({ s.mem with pix := Cells.setMany s.mem.pix (imageBytes cfg s) } : Memory ν).pixByte cfg a = s.mem.pixByte cfg a := by
  rw [Memory.pixByte, Cells.get?_setMany_of_not_mem, Memory.pixByte]
  rintro ⟨k, x⟩ hx rfl
  obtain ⟨r, c, ⟨hr, hc⟩, n, rfl, -⟩ := mem_imageBytes.mp hx
  exact absurd (pixAddr_add_lt hr hc n) (Nat.not_lt.mpr ha)

/-! ### The check of the two commands (60_exceptions.md R262) -/

theorem cscf_error (h : s.badImage cfg = true) : cscf cfg s = .error .invimg := by simp [cscf, h]

theorem csci_error (h : s.badImage cfg = true) : csci cfg s = .error .invimg := by simp [csci, h]

end

theorem validImage_iff {s : State} : ValidImage s ↔ s.badImage Config.default = false := badImage_eq_false.symm

theorem not_validImage_iff {s : State} : ¬ValidImage s ↔ s.badImage Config.default = true := by
  rw [validImage_iff, Bool.not_eq_false]

/-! ### The two commands -/

/-- Settles O13: the check, else each plane is written over the image rectangle. -/
theorem cscfFillsThePlanes : Obligations.CscfFillsThePlanes := by
  refine ⟨rfl, fun s => ⟨fun hbad => congrArg (finish s) (cscf_error (not_validImage_iff.mp hbad)), fun hvalid => ?_⟩⟩
  have hw : s.w ≤ Config.default.maxw := hvalid.2.1
  refine ⟨_, _, _, congrArg (finish s) (cscf_ok.mpr ⟨validImage_iff.mp hvalid, rfl⟩), fun r hr c hc => ?_,
    fun r c hc hout => ?_⟩
  · have hplane {α : Type} (f : Nat → Nat → α) (m : List (Nat × α)) (d : α) :=
      (getD_setMany_planeCells f m d hw (hc.trans_le hw)).trans (if_pos ⟨hr, hc⟩)
    exact ⟨(hplane _ _ _).trans (Int.cast_natCast _), hplane _ _ _, hplane _ _ _⟩
  · have hplane {α : Type} (f : Nat → Nat → α) (m : List (Nat × α)) (d : α) :=
      (getD_setMany_planeCells f m d hw hc).trans (if_neg hout)
    exact ⟨hplane _ _ _, hplane _ _ _, hplane _ _ _⟩

/-- Settles O14: the check, else the three bytes of every pixel are written. -/
theorem csciWritesThePixels : Obligations.CsciWritesThePixels := by
  refine ⟨rfl, fun s => ⟨fun hbad => congrArg (finish s) (csci_error (not_validImage_iff.mp hbad)), fun hvalid => ?_⟩⟩
  refine ⟨_, congrArg (finish s) (csci_ok.mpr ⟨validImage_iff.mp hvalid, rfl⟩), fun r hr c hc => ?_,
    fun a ha => pixByte_past_imageBytes ha⟩
  have hbyte := pixByte_imageBytes (cfg := Config.default) hr hc
  exact Prod.ext (hbyte 0) (Prod.ext (hbyte 1) (hbyte 2))

/-! ### The default colour converter (41_channel_adapter.md R151, R152) -/

/-- `x >> 14` of the converter is the floor of the quotient, for negative `x` too. -/
theorem floor_div_16384 (x : Int) : ⌊(x / 16384 : ℚ)⌋ = x / 16384 := by
  exact_mod_cast Rat.floor_intCast_div_natCast x 16384

/-- Settles O15: each formula with the floor as the model's integer division, clamped by `sat8`. -/
theorem defaultColourConversion : Obligations.DefaultColourConversion := by
  simp only [Obligations.DefaultColourConversion, floor_div_16384, clamp255, ← sat8_toNat]
  exact ⟨fun _ _ _ => ⟨rfl, rfl, rfl⟩, fun _ _ _ => ⟨rfl, rfl, rfl⟩⟩

end Sys2Proof.Machine
end

section
/-! PROOFS. 42_block_iterator.md, O17 to O23: the block positions of an image, the walk of the iterator over them, the
capacity, and the block at the iterator's position. -/

namespace Sys2Proof.Machine

/-! ### The block positions (42_block_iterator.md R170, R171) -/

/-- Position `8m` is a block position exactly when the block at it ends short of the last pixel. -/
theorem lt_nb_iff {m x : Nat} : m < nb x ↔ 8 * m + 8 < x := by
  unfold nb
  split_ifs <;> omega

/-- The band after the last block is 1 to 8 wide (42_block_iterator.md R177). -/
theorem unvisited_band {x : Nat} (hx : 0 < nb x) : 1 ≤ x - 8 * nb x ∧ x - 8 * nb x ≤ 8 := by
  have hlast : 8 * (nb x - 1) + 8 < x := lt_nb_iff.mp (by omega)
  have hnext : ¬8 * nb x + 8 < x := fun h => absurd (lt_nb_iff.mpr h) (lt_irrefl _)
  omega

theorem block_row_lt {h w k : Nat} (hk : k < nb h * nb w) : k / nb w < nb h :=
  Nat.div_lt_of_lt_mul (Nat.mul_comm _ _ ▸ hk)

theorem block_column_lt {h w k : Nat} (hk : k < nb h * nb w) : k % nb w < nb w :=
  Nat.mod_lt _ (Nat.pos_of_mul_pos_left (Nat.zero_lt_of_lt hk))

/-- The block of row `q` and column `r` has its number `r + NB(W)·q` below that of the blocks. -/
theorem block_number_lt {h w q r : Nat} (hq : q < nb h) (hr : r < nb w) : r + nb w * q < nb h * nb w :=
  calc r + nb w * q < nb w * (q + 1) := by rw [Nat.mul_succ]; omega
    _ ≤ nb w * nb h := Nat.mul_le_mul_left _ hq
    _ = nb h * nb w := Nat.mul_comm _ _

theorem nb_eq_card (x : Nat) : nb x = ((Finset.range x).filter fun i => i % 8 = 0 ∧ i + 8 < x).card := by
  have himage : (Finset.range x).filter (fun i => i % 8 = 0 ∧ i + 8 < x) = (Finset.range (nb x)).image (8 * ·) := by
    ext i
    simp only [Finset.mem_filter, Finset.mem_range, Finset.mem_image, lt_nb_iff]
    constructor
    · rintro ⟨-, hmul, hlt⟩
      exact ⟨i / 8, by omega, by omega⟩
    · rintro ⟨m, hm, rfl⟩
      omega
  rw [himage, Finset.card_image_of_injective _ (mul_right_injective₀ (by decide)), Finset.card_range]

/-- Settles O20: a block below `NB(H)·NB(W)` has its row below `NB(H)` and its column below `NB(W)`. -/
theorem yieldedBlocksLieInsideTheImage : Obligations.YieldedBlocksLieInsideTheImage := by
  refine ⟨nb_eq_card, fun h w k hk => ?_⟩
  have hrow := block_row_lt hk
  have hcol := block_column_lt hk
  have hbottom := lt_nb_iff.mp hrow
  have hright := lt_nb_iff.mp hcol
  obtain ⟨hh1, hh8⟩ := unvisited_band (Nat.zero_lt_of_lt hrow)
  obtain ⟨hw1, hw8⟩ := unvisited_band (Nat.zero_lt_of_lt hcol)
  exact ⟨by omega, by omega, hh1, hh8, hw1, hw8⟩

section

variable {ν : Type} {cfg : Config ν} {s t : State.Of ν}

/-! ### The moves of the iterator (42_block_iterator.md R172, R173) -/

theorem itrst_eq (s : State.Of ν) : itrst s = .ok (withPosition (0, 0, decide (8 < s.h ∧ 8 < s.w)) s) := by
  rw [Bool.decide_and]
  rfl

theorem nextPosition_exhausted (hv : s.flags.itvalid = false) :
    nextPosition s = (s.regs.iti, s.regs.itj, s.flags.itvalid) := by
  simp [nextPosition, hv]

theorem nextPosition_column (hv : s.flags.itvalid = true) (hj : s.j + 16 < s.w) :
    nextPosition s = (s.regs.iti, BitVec.ofNat 16 (s.j + 8), s.flags.itvalid) := by
  simp [nextPosition, hv, hj]

theorem nextPosition_row (hv : s.flags.itvalid = true) (hj : ¬s.j + 16 < s.w) (hi : s.i + 16 < s.h) :
    nextPosition s = (BitVec.ofNat 16 (s.i + 8), 0, s.flags.itvalid) := by
  simp [nextPosition, hv, hj, hi]

theorem nextPosition_last (hv : s.flags.itvalid = true) (hj : ¬s.j + 16 < s.w) (hi : ¬s.i + 16 < s.h) :
    nextPosition s = (s.regs.iti, s.regs.itj, false) := by
  simp [nextPosition, hv, hj, hi]

/-- A coordinate moved by one block, inside an image, does not wrap. -/
theorem toNat_next_coord {x : Nat} {size : Half} (h : x + 16 < size.toNat) :
    (BitVec.ofNat 16 (x + 8)).toNat = x + 8 :=
  Nat.mod_eq_of_lt (by omega)

/-! ### The walk over the blocks (42_block_iterator.md R171) -/

/-- The iterator after `k` moves from the first block, for `k` up to the number of blocks: at block `k` of the row-major
sequence, or exhausted at the last block. -/
structure AtBlock (k : Nat) (s : State.Of ν) : Prop where
  itvalid : s.flags.itvalid = decide (k < s.blocks)
  row : s.i = 8 * (min k (s.blocks - 1) / nb s.w)
  column : s.j = 8 * (min k (s.blocks - 1) % nb s.w)

/-- The block of row `q` and column `r` of the sequence is block `r + NB(W)·q`. -/
theorem atBlock_withPosition {k q r : Nat} {p : Half × Half × Bool} (hi : p.1.toNat = 8 * q) (hj : p.2.1.toNat = 8 * r)
    (hv : p.2.2 = decide (k < s.blocks)) (hr : r < nb s.w) (hk : r + nb s.w * q = min k (s.blocks - 1)) :
    AtBlock k (withPosition p s) := by
  obtain ⟨hdiv, hmod⟩ := (Nat.div_mod_unique (Nat.zero_lt_of_lt hr)).mpr ⟨hk, hr⟩
  exact ⟨hv, hdiv.symm ▸ hi, hmod.symm ▸ hj⟩

theorem itrst_atBlock (hs : 1 ≤ s.blocks) (ht : itrst s = .ok t) : AtBlock 0 t := by
  cases (itrst_eq s).symm.trans ht
  have hcol : 0 < nb s.w := Nat.zero_lt_of_lt (block_column_lt hs)
  have hinside : 8 < s.h ∧ 8 < s.w := ⟨lt_nb_iff.mp (Nat.zero_lt_of_lt (block_row_lt hs)), lt_nb_iff.mp hcol⟩
  exact atBlock_withPosition (q := 0) (r := 0) rfl rfl ((decide_eq_true hinside).trans (decide_eq_true hs).symm) hcol
    (Nat.zero_min _).symm

/-- Before exhaustion the iterator stands at a row and a column of the sequence. -/
theorem AtBlock.row_column {k : Nat} (h : AtBlock k s) (hk : k < s.blocks) :
    s.flags.itvalid = true ∧
      ∃ q r, q < nb s.h ∧ r < nb s.w ∧ r + nb s.w * q = k ∧ s.i = 8 * q ∧ s.j = 8 * r := by
  obtain ⟨hv, hi, hj⟩ := h
  rw [Nat.min_eq_left (Nat.le_sub_one_of_lt hk)] at hi hj
  exact ⟨hv.trans (decide_eq_true hk), _, _, block_row_lt hk, block_column_lt hk, Nat.mod_add_div _ _, hi, hj⟩

/-- The next block is one column further, or first in the next row, or there is none. -/
theorem itnext_atBlock {k : Nat} (h : AtBlock k s) (hk : k < s.blocks) (ht : itnext s = .ok t) : AtBlock (k + 1) t := by
  cases (itnext_eq s).symm.trans ht
  obtain ⟨hv, q, r, hq, hr, hnum, hi, hj⟩ := h.row_column hk
  have hright : s.j + 16 < s.w ↔ r + 1 < nb s.w := by rw [lt_nb_iff]; omega
  have hbelow : s.i + 16 < s.h ↔ q + 1 < nb s.h := by rw [lt_nb_iff]; omega
  have hrow : nb s.w * (q + 1) = nb s.w * q + nb s.w := Nat.mul_succ _ _
  by_cases hcol : r + 1 < nb s.w
  · have hlt : r + 1 + nb s.w * q < s.blocks := block_number_lt hq hcol
    have hto := toNat_next_coord (hright.mpr hcol)
    rw [nextPosition_column hv (hright.mpr hcol), hv]
    refine atBlock_withPosition hi (hto.trans (by omega)) (decide_eq_true ?_).symm hcol ?_ <;> omega
  by_cases hmore : q + 1 < nb s.h
  · have hlt : 0 + nb s.w * (q + 1) < s.blocks := block_number_lt hmore (by omega)
    have hto := toNat_next_coord (hbelow.mpr hmore)
    rw [nextPosition_row hv (mt hright.mp hcol) (hbelow.mpr hmore), hv]
    refine atBlock_withPosition (q := q + 1) (r := 0) (hto.trans (by omega)) rfl (decide_eq_true ?_).symm ?_ ?_ <;> omega
  · have hlast : s.blocks = nb s.w * (q + 1) := by rw [State.Of.blocks, show nb s.h = q + 1 by omega, Nat.mul_comm]
    rw [nextPosition_last hv (mt hright.mp hcol) (mt hbelow.mp hmore)]
    refine atBlock_withPosition hi hj (decide_eq_false ?_).symm hr ?_ <;> omega

theorem complete_atBlock {k : Nat} (h : AtBlock k s) : AtBlock k (complete s) := ⟨h.itvalid, h.row, h.column⟩

/-- What the iterator's moves and their completion keep: the size of the image, the buffers and the register files. -/
def iteratorFrame (s : State.Of ν) := (s.regs.width, s.regs.height, s.mem, s.blk, s.coef)

theorem complete_withPosition_iteratorFrame (p : Half × Half × Bool) (s : State.Of ν) :
    iteratorFrame (complete (withPosition p s)) = iteratorFrame s := rfl

/-! ### The capacity (42_block_iterator.md R174) -/

theorem cap_error (h : s.badImage cfg = true) : cap cfg s = .error .invimg := by simp [cap, h]

/-! ### The block at the iterator's position (42_block_iterator.md R175, R176) -/

theorem blkld_error (h : s.badBlock cfg = true) : blkld cfg s = .error .bounds := by simp [blkld, h]

theorem blkst_error (h : s.badBlock cfg = true) : blkst cfg s = .error .bounds := by simp [blkst, h]

theorem mem_blockCells {k : Nat} {x : ν} :
    (k, x) ∈ blockCells cfg s ↔ ∃ r c : Fin 8, planeKey cfg (s.i + r.val) (s.j + c.val) = k ∧ matAt s.blk r c = x := by
  simp [blockCells]

theorem lumaAt_blockCells (hin : s.badBlock cfg = false) (r c : Fin 8) :
    ({ s.mem with luma := Cells.setMany s.mem.luma (blockCells cfg s) } : Memory ν).lumaAt cfg (s.i + r.val)
      (s.j + c.val) = matAt s.blk r c := by
  obtain ⟨hw, -, -, hj⟩ := badBlock_eq_false.mp hin
  rw [Memory.lumaAt, Cells.get?_setMany_of_forall_mem _ (mem_blockCells.mpr ⟨r, c, rfl, rfl⟩), Option.getD_some]
  intro x hx
  obtain ⟨r', c', hkey, rfl⟩ := mem_blockCells.mp hx
  obtain ⟨hr, hc⟩ := planeKey_inj (by omega) (by omega) hkey
  obtain rfl : r' = r := by omega
  obtain rfl : c' = c := by omega
  rfl

theorem lumaAt_outside_blockCells (hin : s.badBlock cfg = false) {r c : Nat} (hc : c < cfg.maxw)
    (hout : ¬(s.i ≤ r ∧ r < s.i + 8 ∧ s.j ≤ c ∧ c < s.j + 8)) :
    ({ s.mem with luma := Cells.setMany s.mem.luma (blockCells cfg s) } : Memory ν).lumaAt cfg r c =
      s.mem.lumaAt cfg r c := by
  obtain ⟨hw, -, -, hj⟩ := badBlock_eq_false.mp hin
  rw [Memory.lumaAt, Cells.get?_setMany_of_not_mem, Memory.lumaAt]
  rintro ⟨k, x⟩ hx rfl
  obtain ⟨r', c', hkey, -⟩ := mem_blockCells.mp hx
  obtain ⟨hr, hc⟩ := planeKey_inj (by omega) hc hkey
  omega

end

theorem blockInside_iff {s : State} : BlockInside s ↔ s.badBlock Config.default = false := badBlock_eq_false.symm

theorem not_blockInside_iff {s : State} : ¬BlockInside s ↔ s.badBlock Config.default = true := by
  rw [blockInside_iff, Bool.not_eq_false]

/-! ### The commands -/

theorem exec_itrst (s : State) :
    exec .itrst s = .next (complete (withPosition (0, 0, decide (8 < s.h ∧ 8 < s.w)) s)) :=
  congrArg (finish s) (itrst_eq s)

theorem exec_itnext (s : State) : exec .itnext s = .next (complete (withPosition (nextPosition s) s)) :=
  congrArg (finish s) (itnext_eq s)

/-- Settles O17: the position and `ITVALID` are all that the command writes. -/
theorem itrstStartsTheIterator : Obligations.ItrstStartsTheIterator := ⟨rfl, exec_itrst⟩

/-- Settles O18: the next position in each of its four cases. -/
theorem itnextAdvancesTheIterator : Obligations.ItnextAdvancesTheIterator := by
  refine ⟨rfl, fun s => ⟨fun hv => ?_, fun hv hj => ⟨_, toNat_next_coord hj, ?_⟩,
    fun hv hj hi => ⟨_, toNat_next_coord hi, ?_⟩, fun hv hj hi => ?_⟩⟩ <;> rw [exec_itnext]
  · rw [nextPosition_exhausted hv]; rfl
  · rw [nextPosition_column hv hj]; rfl
  · rw [nextPosition_row hv hj hi]; rfl
  · rw [nextPosition_last hv hj hi]; rfl

theorem runCommands_cons {i : Instr} {is : List Instr} {s t : State} (h : exec i s = .next t) :
    runCommands (i :: is) s = runCommands is t := by
  rw [runCommands, h]

/-- A run of `ITNEXT` from any block of the sequence. -/
theorem runCommands_itnext_atBlock {m k : Nat} {s : State} (h : AtBlock m s) (hk : m + k ≤ s.blocks) :
    ∃ t, runCommands (List.replicate k .itnext) s = .next t ∧ AtBlock (m + k) t ∧ iteratorFrame t = iteratorFrame s := by
  induction k generalizing m s with
  | zero => exact ⟨s, rfl, h, rfl⟩
  | succ k ih =>
    have hnext := complete_atBlock (itnext_atBlock h (by omega) (itnext_eq s))
    obtain ⟨t, hrun, hat, hframe⟩ := ih hnext (Nat.succ_add_eq_add_succ m k ▸ hk)
    exact ⟨t, (runCommands_cons (exec_itnext s)).trans hrun, Nat.succ_add_eq_add_succ m k ▸ hat, hframe⟩

/-- Settles O19: `ITRST` stands at block 0, and each `ITNEXT` moves to the next block of the sequence. -/
theorem iteratorVisitsBlocksInRowMajorOrder : Obligations.IteratorVisitsBlocksInRowMajorOrder := by
  intro s k hs hk
  have hfirst := complete_atBlock (itrst_atBlock hs (itrst_eq s))
  obtain ⟨t, hrun, hat, hframe⟩ := runCommands_itnext_atBlock hfirst (Nat.zero_add k ▸ hk)
  rw [complete_withPosition_iteratorFrame] at hframe
  simp only [iteratorFrame, Prod.mk.injEq] at hframe
  obtain ⟨hw, hh, hmem, hblk, hcoef⟩ := hframe
  obtain ⟨hv, hi, hj⟩ := Nat.zero_add k ▸ hat
  rw [State.Of.blocks, State.Of.h, State.Of.w, hw, hh] at hv hi hj
  exact ⟨t, (runCommands_cons (exec_itrst s)).trans hrun, hv, hi, hj, hmem, hblk, hcoef⟩

/-- Settles O21: the number of blocks of a valid image fits the register. -/
theorem capComputesTheCapacity : Obligations.CapComputesTheCapacity := by
  refine ⟨rfl, fun s => ⟨fun hbad => congrArg (finish s) (cap_error (not_validImage_iff.mp hbad)), fun hvalid => ?_⟩⟩
  have himg := validImage_iff.mp hvalid
  have hmax : Config.default.maxbits = 16400 := by decide
  have hblocks := blocks_le_maxbits himg
  exact ⟨_, Nat.mod_eq_of_lt (by omega), congrArg (finish s) (cap_ok.mpr ⟨himg, rfl⟩)⟩

/-- Settles O22: the check, else the cells of the block at the iterator's position. -/
theorem blkldLoadsTheBlock : Obligations.BlkldLoadsTheBlock :=
  ⟨rfl, fun s => ⟨fun hout => congrArg (finish s) (blkld_error (not_blockInside_iff.mp hout)), fun hin =>
    ⟨_, congrArg (finish s) (blkld_ok.mpr ⟨blockInside_iff.mp hin, rfl⟩), fun r c => matAt_matOf _ r c⟩⟩⟩

/-- Settles O23: the check, else the cells of the block at the iterator's position are written and no other. -/
theorem blkstStoresTheBlock : Obligations.BlkstStoresTheBlock := by
  refine ⟨rfl, fun s => ⟨fun hout => congrArg (finish s) (blkst_error (not_blockInside_iff.mp hout)), fun hin => ?_⟩⟩
  have hblk := blockInside_iff.mp hin
  exact ⟨_, congrArg (finish s) (blkst_ok.mpr ⟨hblk, rfl⟩), lumaAt_blockCells hblk,
    fun r c hc hother => lumaAt_outside_blockCells hblk hc hother⟩

end Sys2Proof.Machine
end

section
/-! PROOFS. 43_block_transform.md, O24 to O27: the two double sums, the ROM as the rounded cosine basis, and the round
trip of a block. -/

namespace Sys2Proof.Machine

/-! ### The double sums (43_block_transform.md R192, R193) -/

/-- Columns then rows, or all 64 products at once. -/
theorem matAt_forward_default (x : Mat QNum) (u v : Fin 8) :
    matAt (forwardRows Config.default (forwardColumns Config.default x)) u v = forwardSum (matAt x) u v := by
  rw [matAt_forward default_num, forwardSum, Finset.sum_comm]
  refine Finset.sum_congr rfl fun c _ => ?_
  rw [Finset.mul_sum]
  exact Finset.sum_congr rfl fun r _ => by ring

theorem matAt_inverse_default (y : Mat QNum) (r c : Fin 8) :
    matAt (inverseRows Config.default (inverseColumns Config.default y)) r c = inverseSum (matAt y) r c := by
  rw [matAt_inverse default_num, inverseSum, Finset.sum_comm]
  refine Finset.sum_congr rfl fun v _ => ?_
  rw [Finset.sum_mul]
  exact Finset.sum_congr rfl fun u _ => by ring

/-- Settles O24: the two passes of the forward transform are the double sum. -/
theorem fdctIsTheDoubleSum : Obligations.FdctIsTheDoubleSum :=
  ⟨rfl, fun s => ⟨_, rfl, matAt_forward_default s.blk⟩⟩

/-- Settles O25: the two passes of the inverse transform are the double sum. -/
theorem idctIsTheDoubleSum : Obligations.IdctIsTheDoubleSum :=
  ⟨rfl, fun s => ⟨_, rfl, matAt_inverse_default s.coef⟩⟩

/-! ### The cosines of the multiples of `π / 16` (43_block_transform.md R190) -/

/-- The cosine of `j` sixteenths of a half turn. -/
noncomputable def gridCos (j : Nat) : ℝ := Real.cos (j * Real.pi / 16)

theorem gridCos_zero : gridCos 0 = 1 := by simp [gridCos]

theorem gridCos_eight : gridCos 8 = 0 := by
  rw [gridCos, ← Real.cos_pi_div_two]
  congr 1
  push_cast
  ring

/-- Every angle lies within `π / 2` of a multiple of `π`, and there the cosine is that of the distance, up to sign. -/
theorem gridCos_fold {j p r : Nat} (h : j = 16 * p + r ∨ j + r = 16 * p) : gridCos j = (-1) ^ p * gridCos r := by
  rcases h with h | h
  · have hangle : (j * Real.pi / 16 : ℝ) = r * Real.pi / 16 + p * Real.pi := by
      rw [h]
      push_cast
      ring
    rw [gridCos, hangle, Real.cos_add_nat_mul_pi, gridCos]
  · have hj : (j : ℝ) = 16 * p - r := eq_sub_of_add_eq (by exact_mod_cast h)
    have hangle : (j * Real.pi / 16 : ℝ) = p * Real.pi - r * Real.pi / 16 := by
      rw [hj]
      ring
    rw [gridCos, hangle, Real.cos_nat_mul_pi_sub, gridCos]

theorem gridCos_nonneg {r : Nat} (h : r ≤ 8) : 0 ≤ gridCos r := by
  have hr : (r : ℝ) ≤ 8 := by exact_mod_cast h
  have hpi := Real.pi_pos
  exact Real.cos_nonneg_of_mem_Icc ⟨by linarith [show 0 ≤ r * Real.pi / 16 by positivity], by nlinarith⟩

theorem gridCos_double (r : Nat) : gridCos (2 * r) = 2 * gridCos r ^ 2 - 1 := by
  rw [gridCos, gridCos, ← Real.cos_two_mul]
  congr 1
  push_cast
  ring

/-- Bounds of the cosine of twice an angle bound the cosine of the angle. -/
theorem gridCos_mem_of_double {r : Nat} {lo hi lo' hi' : ℝ} (hr : r ≤ 8) (h : gridCos (2 * r) ∈ Set.Icc lo' hi')
    (hlo : 2 * lo ^ 2 - 1 ≤ lo') (hpos : 0 ≤ hi) (hhi : hi' ≤ 2 * hi ^ 2 - 1) : gridCos r ∈ Set.Icc lo hi := by
  rw [gridCos_double] at h
  obtain ⟨hl, hu⟩ := h
  exact ⟨le_of_sq_le_sq (by linarith) (gridCos_nonneg hr), le_of_sq_le_sq (by linarith) hpos⟩

/-- Bounds of the cosine of an angle bound that of its supplement. -/
theorem gridCos_mem_of_supplement {j r : Nat} {lo hi : ℝ} (hj : j + r = 16) (h : gridCos r ∈ Set.Icc lo hi) :
    gridCos j ∈ Set.Icc (-hi) (-lo) := by
  have hfold : gridCos j = -gridCos r := by rw [gridCos_fold (p := 1) (.inr hj)]; ring
  rw [hfold]
  exact ⟨neg_le_neg h.2, neg_le_neg h.1⟩

theorem gridCos_four_mem : gridCos 4 ∈ Set.Icc 0.70710678118654752440 0.70710678118654752441 :=
  gridCos_mem_of_double (lo' := 0) (hi' := 0) (by decide) (by simp [gridCos_eight]) (by norm_num) (by norm_num)
    (by norm_num)

theorem gridCos_two_mem : gridCos 2 ∈ Set.Icc 0.9238795325112867 0.9238795325112868 :=
  gridCos_mem_of_double (by decide) gridCos_four_mem (by norm_num) (by norm_num) (by norm_num)

theorem gridCos_six_mem : gridCos 6 ∈ Set.Icc 0.3826834323650897 0.3826834323650898 :=
  gridCos_mem_of_double (by decide) (gridCos_mem_of_supplement rfl gridCos_four_mem) (by norm_num) (by norm_num)
    (by norm_num)

theorem gridCos_one_mem : gridCos 1 ∈ Set.Icc 0.98078528040323 0.98078528040324 :=
  gridCos_mem_of_double (by decide) gridCos_two_mem (by norm_num) (by norm_num) (by norm_num)

theorem gridCos_three_mem : gridCos 3 ∈ Set.Icc 0.83146961230254 0.83146961230255 :=
  gridCos_mem_of_double (by decide) gridCos_six_mem (by norm_num) (by norm_num) (by norm_num)

theorem gridCos_five_mem : gridCos 5 ∈ Set.Icc 0.55557023301960 0.55557023301961 :=
  gridCos_mem_of_double (by decide) (gridCos_mem_of_supplement rfl gridCos_six_mem) (by norm_num) (by norm_num)
    (by norm_num)

theorem gridCos_seven_mem : gridCos 7 ∈ Set.Icc 0.19509032201612 0.19509032201613 :=
  gridCos_mem_of_double (by decide) (gridCos_mem_of_supplement rfl gridCos_two_mem) (by norm_num) (by norm_num)
    (by norm_num)

/-! ### The ROM (43_block_transform.md R191) -/

/-- The magnitudes of the ROM by their angle, `2^29 · cos(rπ / 16)` to the nearest integer, with those of the ends. -/
def cosRom : Vector Int 9 :=
  #v[536870912, 526555088, 496004047, 446391849, 379625062, 298269498, 205451603, 104738319, 0]

theorem abs_sub_lt_half_of_mem {c lo hi : ℝ} {m : Int} (h : c ∈ Set.Icc lo hi) (hlo : (m : ℝ) - 1 / 2 < lo * 2 ^ 29)
    (hhi : hi * 2 ^ 29 < m + 1 / 2) : |(m : ℝ) - c * 2 ^ 29| < 1 / 2 := by
  obtain ⟨hl, hu⟩ := h
  exact abs_sub_lt_iff.mpr ⟨by linarith, by linarith⟩

theorem cosRom_nearest (r : Fin 9) : |(cosRom[r] : ℝ) - gridCos r * 2 ^ 29| < 1 / 2 := by
  match r with
  | 0 => norm_num [cosRom, gridCos_zero]
  | 1 => exact abs_sub_lt_half_of_mem gridCos_one_mem (by norm_num [cosRom]) (by norm_num [cosRom])
  | 2 => exact abs_sub_lt_half_of_mem gridCos_two_mem (by norm_num [cosRom]) (by norm_num [cosRom])
  | 3 => exact abs_sub_lt_half_of_mem gridCos_three_mem (by norm_num [cosRom]) (by norm_num [cosRom])
  | 4 => exact abs_sub_lt_half_of_mem gridCos_four_mem (by norm_num [cosRom]) (by norm_num [cosRom])
  | 5 => exact abs_sub_lt_half_of_mem gridCos_five_mem (by norm_num [cosRom]) (by norm_num [cosRom])
  | 6 => exact abs_sub_lt_half_of_mem gridCos_six_mem (by norm_num [cosRom]) (by norm_num [cosRom])
  | 7 => exact abs_sub_lt_half_of_mem gridCos_seven_mem (by norm_num [cosRom]) (by norm_num [cosRom])
  | 8 => norm_num [cosRom, gridCos_eight]

/-- The angle of an entry of the basis; row 0 is constant, `1/√8 = cos(4π / 16) / 2`. -/
def basisAngle (k n : Fin 8) : Nat := if k = 0 then 4 else (2 * n.val + 1) * k.val

/-- Each entry of the ROM is the magnitude of its folded angle, with the sign of the fold. -/
theorem basisRom_eq_cosRom (k n : Fin 8) :
    ∃ (p : Fin 8) (r : Fin 9), (basisAngle k n = 16 * p.val + r.val ∨ basisAngle k n + r.val = 16 * p.val) ∧
      basisRom[k][n] = (-1) ^ p.val * cosRom[r] := by
  revert k n
  decide +kernel

theorem basisRom_nearest (k n : Fin 8) : |(basisRom[k][n] : ℝ) - gridCos (basisAngle k n) * 2 ^ 29| < 1 / 2 := by
  obtain ⟨p, r, hfold, hrom⟩ := basisRom_eq_cosRom k n
  calc |(basisRom[k][n] : ℝ) - gridCos (basisAngle k n) * 2 ^ 29|
      = |(-1) ^ p.val * ((cosRom[r] : ℝ) - gridCos r * 2 ^ 29)| := by
        rw [hrom, gridCos_fold hfold]
        push_cast
        congr 1
        ring
    _ = |(cosRom[r] : ℝ) - gridCos r * 2 ^ 29| := by rw [abs_mul, abs_neg_one_pow, one_mul]
    _ < 1 / 2 := cosRom_nearest r

theorem one_div_sqrt_eight : 1 / Real.sqrt 8 = 1 / 2 * gridCos 4 := by
  have hangle : ((4 : Nat) * Real.pi / 16 : ℝ) = Real.pi / 4 := by push_cast; ring
  have hroot : Real.sqrt 8 = 2 * Real.sqrt 2 := by
    rw [show (8 : ℝ) = 2 ^ 2 * 2 by norm_num, Real.sqrt_mul (by norm_num), Real.sqrt_sq (by norm_num)]
  rw [gridCos, hangle, Real.cos_pi_div_four, hroot, one_div, mul_inv, ← Real.sqrt_div_self]
  ring

/-- Settles O26: every entry folds to one of nine angles, whose cosines are bounded by halving `π / 2`. -/
theorem basisIsTheRoundedCosineBasis : Obligations.BasisIsTheRoundedCosineBasis := by
  intro k n ideal
  have hideal : ideal = 1 / 2 * gridCos (basisAngle k n) := by
    by_cases hk : k = 0
    · simp only [ideal, basisAngle, if_pos hk, one_div_sqrt_eight]
    · simp only [ideal, basisAngle, if_neg hk, gridCos]
      push_cast
      rfl
  refine ⟨basisRom[k][n], default_c k n, ?_⟩
  rw [hideal, show 1 / 2 * gridCos (basisAngle k n) * 2 ^ 30 = gridCos (basisAngle k n) * 2 ^ 29 by ring]
  exact basisRom_nearest k n

/-! ### The round trip (43_block_transform.md R194) -/

/-- `C` as a matrix. -/
def basisMatrix : Matrix (Fin 8) (Fin 8) QNum := Matrix.of Config.default.c

/-- `Cᵀ · C`, which is nearly the identity: the basis is orthonormal up to its rounding. -/
def basisGram : Matrix (Fin 8) (Fin 8) QNum := basisMatrix.transpose * basisMatrix

theorem forwardSum_eq_mul (x : Matrix (Fin 8) (Fin 8) QNum) :
    Matrix.of (forwardSum x) = basisMatrix * x * basisMatrix.transpose := by
  ext u v
  simp only [forwardSum, Matrix.of_apply, Matrix.mul_apply, Matrix.transpose_apply, basisMatrix, Finset.sum_mul]
  rw [Finset.sum_comm]
  exact Finset.sum_congr rfl fun c _ => Finset.sum_congr rfl fun r _ => by ring

theorem inverseSum_eq_mul (y : Matrix (Fin 8) (Fin 8) QNum) :
    Matrix.of (inverseSum y) = basisMatrix.transpose * y * basisMatrix := by
  ext r c
  simp only [inverseSum, Matrix.of_apply, Matrix.mul_apply, Matrix.transpose_apply, basisMatrix, Finset.sum_mul]
  rw [Finset.sum_comm]
  exact Finset.sum_congr rfl fun v _ => Finset.sum_congr rfl fun u _ => by ring

theorem inverseSum_forwardSum_eq_mul (x : Matrix (Fin 8) (Fin 8) QNum) :
    Matrix.of (inverseSum (forwardSum x)) = basisGram * x * basisGram := by
  have hforward : forwardSum x = basisMatrix * x * basisMatrix.transpose := forwardSum_eq_mul x
  rw [hforward, inverseSum_eq_mul]
  simp only [basisGram, Matrix.mul_assoc]

theorem basisGram_transpose : basisGram.transpose = basisGram := by
  simp [basisGram, Matrix.transpose_mul]

/-- A bound on how far a row of `Cᵀ · C` is from that of the identity. -/
def gramError : QNum := 1 / 10 ^ 8

theorem basisGram_row_error (r : Fin 8) : ∑ q, |basisGram r q - (1 : Matrix (Fin 8) (Fin 8) QNum) r q| ≤ gramError := by
  simp only [basisGram, Matrix.mul_apply, Matrix.transpose_apply, Fin.sum_univ_eight]
  revert r
  decide +kernel

/-- The 1D transform and back changes no cell of a bounded column by more than the error of its row of `Cᵀ · C`. -/
theorem abs_basisGram_mulVec_sub_le {y : Fin 8 → QNum} {b : QNum} (hy : ∀ q, |y q| ≤ b) (r : Fin 8) :
    |(basisGram.mulVec y) r - y r| ≤ gramError * b := by
  have hb : 0 ≤ b := (abs_nonneg _).trans (hy 0)
  have herror : (basisGram.mulVec y) r - y r = ((basisGram - 1).mulVec y) r := by
    rw [Matrix.sub_mulVec, Matrix.one_mulVec, Pi.sub_apply]
  calc |(basisGram.mulVec y) r - y r|
      = |∑ q, (basisGram - 1) r q * y q| := by rw [herror]; rfl
    _ ≤ ∑ q, |(basisGram - 1) r q * y q| := Finset.abs_sum_le_sum_abs _ _
    _ ≤ ∑ q, |(basisGram - 1) r q| * b :=
        Finset.sum_le_sum fun q _ => by rw [abs_mul]; exact mul_le_mul_of_nonneg_left (hy q) (abs_nonneg _)
    _ = (∑ q, |(basisGram - 1) r q|) * b := (Finset.sum_mul _ _ _).symm
    _ ≤ gramError * b := mul_le_mul_of_nonneg_right (basisGram_row_error r) hb

/-- The round trip on the columns, then on the rows, each within the error of the 1D transform. -/
theorem abs_inverseSum_forwardSum_sub_le {x : Matrix (Fin 8) (Fin 8) QNum} {b : QNum} (hx : ∀ r c, |x r c| ≤ b)
    (r c : Fin 8) : |inverseSum (forwardSum x) r c - x r c| ≤ gramError * (b + gramError * b) + gramError * b := by
  have hcolumns (q : Fin 8) : |(basisGram * x) r q - x r q| ≤ gramError * b :=
    abs_basisGram_mulVec_sub_le (y := fun p => x p q) (fun p => hx p q) r
  have hbound (q : Fin 8) : |(basisGram * x) r q| ≤ b + gramError * b := by
    linarith [abs_sub_abs_le_abs_sub ((basisGram * x) r q) (x r q), hcolumns q, hx r q]
  have hrows : inverseSum (forwardSum x) r c = basisGram.mulVec ((basisGram * x) r) c := by
    rw [← basisGram_transpose, Matrix.mulVec_transpose, basisGram_transpose]
    exact congrFun (congrFun (inverseSum_forwardSum_eq_mul x) r) c
  rw [hrows]
  exact (abs_sub_le _ ((basisGram * x) r c) _).trans
    (add_le_add (abs_basisGram_mulVec_sub_le hbound c) (hcolumns c))

/-- A value near a sample rounds to it. -/
theorem toNat_tou8_of_near {x : QNum} {n : Nat} (hn : n ≤ 255) (h : |x - n| < 1 / 2) : (tou8 ratOps x).toNat = n := by
  obtain ⟨hlo, hhi⟩ := abs_sub_lt_iff.mp h
  have hfloor : ⌊x + 1 / 2⌋ = (n : Int) := Int.floor_eq_iff.mpr ⟨by push_cast; linarith, by push_cast; linarith⟩
  have htou8 := toNat_tou8 x
  rw [hfloor, clamp255] at htou8
  omega

/-- Settles O27: the bound of the round trip at 255, which is below half a sample. -/
theorem transformRoundTripIsWithinTolerance : Obligations.TransformRoundTripIsWithinTolerance := by
  intro s hs
  obtain ⟨coef', hfdct, hcoef⟩ := fdctIsTheDoubleSum.2 s
  obtain ⟨blk', hidct, hblk⟩ := idctIsTheDoubleSum.2 (completed none { s with coef := coef' })
  have hforward : matAt coef' = forwardSum (matAt s.blk) := funext₂ hcoef
  refine ⟨_, _, hfdct, hidct, fun r c => ?_⟩
  have hblock (r c : Fin 8) : |matAt s.blk r c| ≤ 255 := abs_le.mpr ⟨by linarith [hs r c], (hs r c).2⟩
  have hnear : |matAt blk' r c - matAt s.blk r c| ≤ 2 / 100000 := by
    rw [hblk, show matAt (completed none { s with coef := coef' }).coef = _ from hforward]
    exact (abs_inverseSum_forwardSum_sub_le hblock r c).trans (by norm_num [gramError])
  refine ⟨hnear, fun n hn => toNat_tou8_of_near (x := matAt blk' r c) ?_ ?_⟩
  · exact_mod_cast hn ▸ (hs r c).2
  · rw [hn] at hnear
    exact hnear.trans_lt (by norm_num)

end Sys2Proof.Machine
end

section
/-! PROOFS. 44_quantizer.md, O28 to O31: the remainder in its bin, the carrier requantised, the classifier as a threshold,
and the bit read back. -/

namespace Sys2Proof.Machine

/-! ### The remainder (44_quantizer.md R211) -/

/-- Settles O28: the floor of the quotient is the largest integer not above it. -/
theorem remainderLiesInTheBin : Obligations.RemainderLiesInTheBin := by
  refine fun c q hq => ⟨remQ_nonneg c hq, remQ_lt c hq, sub_sub_cancel _ _, fun m hm => ?_⟩
  have hfloor : m ≤ ⌊c / q⌋ := Int.le_floor.mpr ((le_div_iff₀' hq).mpr hm)
  calc q * (m : QNum) ≤ q * ⌊c / q⌋ := mul_le_mul_of_nonneg_left (Int.cast_le.mpr hfloor) hq.le
    _ = c - remQ ratOps c q := (sub_sub_cancel _ _).symm

/-! ### The check of the two commands (60_exceptions.md R265) -/

section

variable {ν : Type} {cfg : Config ν} {s : State.Of ν}

theorem badStrength_eq_true : s.badStrength = true ↔ s.regs.qstep = 0 := by simp [State.Of.badStrength]

theorem qemb_error {b : Bool} (h : s.badStrength = true) : qemb cfg b s = .error .badq := by simp [qemb, h]

theorem qext_error (h : s.badStrength = true) : qext cfg s = .error .badq := by simp [qext, h]

end

theorem strength_eq_q (s : State) : s.strength ratOps = s.q := strength_eq s

/-! ### The requantised carrier (44_quantizer.md R213) -/

theorem requantize_eq_quantized (b : Bool) (q c : QNum) : requantize ratOps b q c = quantized b q c := requantize_eq b q c

theorem remainder_quantized (b : Bool) (c : QNum) {q : QNum} (hq : 0 < q) :
    remainder (quantized b q c) q = if b then 3 * q / 4 else q / 4 := by
  have hfloor : ⌊quantized b q c / q⌋ = ⌊c / q⌋ := requantize_eq_quantized b q c ▸ floor_requantize b c hq
  rw [remainder, hfloor, quantized, add_sub_cancel_left]

/-- Settles O29: the check, else one cell of `COEF` is written. -/
theorem qembRequantizesTheCarrier : Obligations.QembRequantizesTheCarrier := by
  refine ⟨rfl, rfl, fun b s => ⟨fun hzero => congrArg (finish s) (qemb_error (badStrength_eq_true.mpr hzero)),
    fun hpos => ⟨_, congrArg (finish s) (qemb_ok.mpr ⟨badStrength_eq_false.mpr hpos, rfl⟩), ?_, fun u v huv => ?_⟩⟩⟩
  · rw [carrierIndex, matAt_matSet, if_pos ⟨rfl, rfl⟩, default_num, requantize_eq_quantized, strength_eq]
    rfl
  · rw [carrierIndex, matAt_matSet, if_neg huv]

/-! ### The classifier (44_quantizer.md R214, R215) -/

theorem classify_eq_decide (q c : QNum) :
    classify ratOps q c = decide (|remainder c q - 3 * q / 4| < |remainder c q - q / 4|) := by
  simp only [classify, absNum_eq_abs, centroid_eq]
  rfl

/-- Settles O30: the check, else `BITOUT` is the comparison of the two distances. -/
theorem qextClassifiesTheCarrier : Obligations.QextClassifiesTheCarrier := by
  refine ⟨rfl, fun s => ⟨fun hzero => congrArg (finish s) (qext_error (badStrength_eq_true.mpr hzero)), fun hpos => ?_⟩⟩
  intro q r
  have hbit : classify Config.default.num (s.strength Config.default.num) s.carrier
      = decide (|r - 3 * q / 4| < |r - q / 4|) := by
    rw [default_num, strength_eq, classify_eq_decide]
    rfl
  exact congrArg (finish s) (qext_ok.mpr ⟨badStrength_eq_false.mpr hpos, by rw [hbit]⟩)

/-- The squares of the two distances differ by `q · (r − q / 2)`, so the threshold holds outside the bin too. -/
theorem nearer_upper_centroid_iff {q : QNum} (hq : 0 < q) (r : QNum) :
    |r - 3 * q / 4| < |r - q / 4| ↔ q / 2 < r := by
  have hsquares : (r - q / 4) ^ 2 - (r - 3 * q / 4) ^ 2 = q * (r - q / 2) := by ring
  rw [← sq_lt_sq, ← sub_pos, hsquares, mul_pos_iff_of_pos_left hq, sub_pos]

theorem upper_half_centroid_iff {q : QNum} (hq : 0 < q) (b : Bool) :
    q / 2 < (if b then 3 * q / 4 else q / 4) ↔ b = true := by
  cases b with
  | false => simp; linarith
  | true => simp; linarith

theorem q_pos {s : State} (h : s.regs.qstep ≠ 0) : 0 < s.q :=
  strength_eq_q s ▸ strength_pos (badStrength_eq_false.mpr h)

/-- `QEXT` decides by the threshold `Q / 2` (44_quantizer.md R215). -/
theorem exec_qext_threshold {s : State} (h : s.regs.qstep ≠ 0) :
    ∃ t, exec .qext s = .next t ∧ (t.flags.bitout = true ↔ s.q / 2 < remainder (matAt s.coef 4 5) s.q) :=
  ⟨_, (qextClassifiesTheCarrier.2 s).2 h, decide_eq_true_iff.trans (nearer_upper_centroid_iff (q_pos h) _)⟩

/-- Settles O31: the remainder that `QEMB b` leaves is the centroid of `b`, above the threshold exactly when `b = 1`. -/
theorem qextReadsBackWhatQembWrote : Obligations.QextReadsBackWhatQembWrote := by
  intro b s hpos
  refine ⟨exec_qext_threshold hpos, ?_⟩
  obtain ⟨-, -, hqemb⟩ := qembRequantizesTheCarrier
  obtain ⟨coef', hembed, hcarrier, -⟩ := (hqemb b s).2 hpos
  obtain ⟨u, hextract, hbit⟩ := exec_qext_threshold (s := completed none { s with coef := coef' }) hpos
  have hremainder : remainder (matAt coef' 4 5) s.q = if b then 3 * s.q / 4 else s.q / 4 := by
    rw [hcarrier]
    exact remainder_quantized b _ (q_pos hpos)
  refine ⟨_, u, hembed, hextract, Bool.eq_iff_iff.mpr ?_⟩
  calc u.flags.bitout = true
      ↔ s.q / 2 < remainder (matAt coef' 4 5) s.q := hbit
    _ ↔ b = true := by rw [hremainder]; exact upper_half_centroid_iff (q_pos hpos) b

end Sys2Proof.Machine
end

section
/-! PROOFS. 45_orchestrator.md, O9 and O32: `NOP`, and the checks of the two composite commands. -/

namespace Sys2Proof.Machine

/-! ### `NOP` (45_orchestrator.md R230) -/

/-- Above bit 7 `STATUS` holds nothing but the error code. -/
theorem status_getLsbD_high_of_no_error {s : State} (h : s.flags.err = none) {i : Nat} (hi : 8 ≤ i) :
    s.status.getLsbD i = false := by
  obtain ⟨j, rfl⟩ := Nat.exists_eq_add_of_le' hi
  rw [status_getLsbD_add_eight, h]
  exact BitVec.getLsbD_zero

/-- The word `0x02` has bit 1 only, and `0x70` bits 4, 5 and 6. -/
theorem getLsbD_nop_status (x : Word) (i : Nat) :
    (0x02#32 ||| (x &&& 0x70#32)).getLsbD i = (decide (i = 1) || x.getLsbD i && decide (4 ≤ i ∧ i ≤ 6)) := by
  have hword : ∀ i < 32, (0x02#32).getLsbD i = decide (i = 1) ∧ (0x70#32).getLsbD i = decide (4 ≤ i ∧ i ≤ 6) := by decide
  rw [BitVec.getLsbD_or, BitVec.getLsbD_and]
  rcases Nat.lt_or_ge i 32 with hi | hi
  · obtain ⟨hdone, hmask⟩ := hword i hi
    rw [hdone, hmask]
  · simp [BitVec.getLsbD_of_ge _ _ hi]
    omega

/-- Issue clears `FOUND` and `TRUNC`, and completion sets `DONE` (10_state.md R31): the flags kept are bits 4 to 6. -/
theorem status_completed_issued (s : State) (w : Word) :
    (completed none (issued w s)).status = 0x02#32 ||| (s.status &&& 0x70#32) := by
  obtain ⟨-, -, -, -, hovr, hbitout, hitvalid, -⟩ := status_flagBits s
  obtain ⟨h0, h1, h2, h3, h4, h5, h6, h7⟩ := status_flagBits (completed none (issued w s))
  refine BitVec.eq_of_getLsbD_eq fun i _ => ?_
  rw [getLsbD_nop_status]
  rcases Nat.lt_or_ge i 8 with hlow | hhigh
  · interval_cases i
    · rw [h0]; simp [completed, State.Of.busy]
    · rw [h1]; simp [completed]
    · rw [h2]; simp [completed, issued]
    · rw [h3]; simp [completed, issued]
    · rw [h4, hovr]; simp [completed, issued]
    · rw [h5, hbitout]; simp [completed, issued]
    · rw [h6, hitvalid]; simp [completed, issued]
    · rw [h7]; simp
  · rw [status_getLsbD_high_of_no_error rfl hhigh, decide_eq_false (by omega), decide_eq_false (by omega),
      Bool.and_false, Bool.or_false]

/-- Settles O9: the effect of `NOP` is the state as it is. -/
theorem nopOnlyCompletes : Obligations.NopOnlyCompletes :=
  ⟨rfl, fun s w => ⟨rfl, status_completed_issued s w⟩⟩

/-! ### The checks (45_orchestrator.md R231, R232) -/

section

variable {s : State}

theorem exec_embed_error {e : Err} (h : embed Config.default s = .error e) :
    exec .embed s = .next (completed (some e) s) := congrArg (finish s) h

theorem exec_extract_error {e : Err} (h : extract Config.default s = .error e) :
    exec .extract s = .next (completed (some e) s) := congrArg (finish s) h

theorem badTextLen_of_gt (h : s.textLen > Config.default.maxtext) : s.badTextLen Config.default = true :=
  decide_eq_true h

theorem badText_of_exists (h : ∃ k < s.textLen, (s.mem.txtWord Config.default k).toNat > 255) :
    s.badText Config.default = true := by
  simpa [State.Of.badText] using h

theorem overCapacity_of_strict (hstrict : s.ctrl.capmode = false) (h : s.payloadBits > s.blocks) :
    s.overCapacity = true := by
  simp [State.Of.overCapacity, hstrict, h]

end

/-- Settles O32: each check raises its error where those before it pass. -/
theorem compositeChecksComeInOrder : Obligations.CompositeChecksComeInOrder := by
  refine fun s => ⟨fun himg => ⟨exec_embed_error ?_, exec_extract_error ?_⟩,
    fun himg hq => ⟨exec_embed_error ?_, exec_extract_error ?_⟩, fun himg hq hlen => exec_embed_error ?_,
    fun himg hq hlen htext => exec_embed_error ?_,
    fun himg hq ⟨hlen, htext⟩ hstrict hcap => exec_embed_error ?_⟩
  · simp [embed, not_validImage_iff.mp himg]
  · simp [extract, not_validImage_iff.mp himg]
  · simp [embed, validImage_iff.mp himg, badStrength_eq_true.mpr hq]
  · simp [extract, validImage_iff.mp himg, badStrength_eq_true.mpr hq]
  · simp [embed, validImage_iff.mp himg, badStrength_eq_false.mpr hq, badTextLen_of_gt hlen]
  · simp [embed, validImage_iff.mp himg, badStrength_eq_false.mpr hq, badTextLen_eq_false.mpr hlen,
      badText_of_exists htext]
  · simp [embed, validImage_iff.mp himg, badStrength_eq_false.mpr hq, badTextLen_eq_false.mpr hlen,
      badText_eq_false.mpr htext, overCapacity_of_strict hstrict hcap]

end Sys2Proof.Machine
end

section
/-! PROOFS. 45_orchestrator.md, O33 to O35: what `EMBED` does. Its passes keep one invariant: after `k` blocks the luma plane
carries the first `k` bits and the iterator stands at block `k`. The primitive commands keep the same invariant. -/

namespace Sys2Proof.Machine

/-! ### The planes at work -/

/-- `t` is at work on the image of `s`: its planes hold `luma` and the chroma of the image over the image rectangle, and
what `s` holds elsewhere. -/
structure AtWork (s : State) (luma : Nat → Nat → QNum) (t : State) : Prop where
  width : t.regs.width = s.regs.width
  height : t.regs.height = s.regs.height
  qstep : t.regs.qstep = s.regs.qstep
  pix : t.mem.pix = s.mem.pix
  epoch : t.mem.epoch = s.mem.epoch
  inside : ∀ r < s.h, ∀ c < s.w,
    t.mem.lumaAt Config.default r c = luma r c ∧
    t.mem.chr1At Config.default r c = (pixelInYCC s r c).2.1 ∧
    t.mem.chr2At Config.default r c = (pixelInYCC s r c).2.2
  outside : ∀ r c, c < Config.default.maxw → ¬(r < s.h ∧ c < s.w) →
    t.mem.lumaAt Config.default r c = s.mem.lumaAt Config.default r c ∧
    t.mem.chr1At Config.default r c = s.mem.chr1At Config.default r c ∧
    t.mem.chr2At Config.default r c = s.mem.chr2At Config.default r c

section AtWork

variable {s t : State} {luma : Nat → Nat → QNum} (h : AtWork s luma t)
include h

theorem AtWork.w_eq : t.w = s.w := congrArg BitVec.toNat h.width

theorem AtWork.h_eq : t.h = s.h := congrArg BitVec.toNat h.height

theorem AtWork.blocks_eq : t.blocks = s.blocks := by
  rw [State.Of.blocks, State.Of.blocks, h.w_eq, h.h_eq]

theorem AtWork.q_eq : t.q = s.q := by
  rw [State.Of.q, State.Of.q, h.qstep]

theorem AtWork.badStrength_eq_false (hq : s.regs.qstep ≠ 0) : t.badStrength = false :=
  Machine.badStrength_eq_false.mpr (h.qstep ▸ hq)

theorem AtWork.badImage_eq_false (hvalid : ValidImage s) : t.badImage Config.default = false := by
  rw [State.Of.badImage, h.w_eq, h.h_eq]
  exact validImage_iff.mp hvalid

/-- A block of the sequence lies inside the image (42_block_iterator.md R177). -/
theorem AtWork.badBlock_eq_false {k : Nat} (hat : AtBlock k t) (hvalid : ValidImage s) (hk : k < s.blocks) :
    t.badBlock Config.default = false := by
  obtain ⟨-, hw, -, hh⟩ := hvalid
  obtain ⟨-, q, r, hq, hr, -, hi, hj⟩ := hat.row_column (h.blocks_eq ▸ hk)
  have hbottom := lt_nb_iff.mp hq
  have hright := lt_nb_iff.mp hr
  exact Machine.badBlock_eq_false.mpr ⟨h.w_eq ▸ hw, h.h_eq ▸ hh, by omega, by omega⟩

/-- Where the iterator stands at block `k` of the sequence. -/
theorem AtWork.position {k : Nat} (hat : AtBlock k t) (hk : k < s.blocks) :
    t.i = 8 * (k / nb s.w) ∧ t.j = 8 * (k % nb s.w) := by
  obtain ⟨-, hi, hj⟩ := hat
  rw [h.blocks_eq, h.w_eq, Nat.min_eq_left (Nat.le_sub_one_of_lt hk)] at hi hj
  exact ⟨hi, hj⟩

theorem AtWork.loadedBlock {k : Nat} (hat : AtBlock k t) (hk : k < s.blocks) (r c : Fin 8) :
    matAt (loadedBlock Config.default t) r c = luma (8 * (k / nb s.w) + r.val) (8 * (k % nb s.w) + c.val) := by
  obtain ⟨hi, hj⟩ := h.position hat hk
  have hbottom := lt_nb_iff.mp (block_row_lt hk)
  have hright := lt_nb_iff.mp (block_column_lt hk)
  obtain ⟨hluma, -⟩ := h.inside (8 * (k / nb s.w) + r.val) (by omega) (8 * (k % nb s.w) + c.val) (by omega)
  rw [Machine.loadedBlock, matAt_matOf, hi, hj, hluma]

/-- The pixels that `CSCI` writes are those of the planes at work. -/
theorem AtWork.imageBytes_eq {u : State} (hu : AtWork s luma u) :
    imageBytes Config.default t = imageBytes Config.default u := by
  unfold imageBytes
  rw [h.w_eq, h.h_eq, hu.w_eq, hu.h_eq]
  refine List.flatMap_congr fun rc hrc => ?_
  obtain ⟨hr, hc⟩ := mem_coords.mp hrc
  obtain ⟨hluma, hchr1, hchr2⟩ := h.inside _ hr _ hc
  obtain ⟨hluma', hchr1', hchr2'⟩ := hu.inside _ hr _ hc
  simp only [cellRGB, hluma, hluma', hchr1, hchr1', hchr2, hchr2']

end AtWork

/-- A completed effect is what the command ends with. -/
theorem exec_of_effectFor {i : Instr} {s t : State} (h : effectFor Config.default i s = .ok t) :
    exec i s = .next (complete t) := by
  rw [exec_eq_execFor, execFor_eq_finish, h, finish_ok]

/-- `CSCF` on a valid image fills the planes and changes nothing else (41_channel_adapter.md R153). -/
theorem cscf_atWork {s : State} (hvalid : ValidImage s) :
    ∃ t, cscf Config.default s = .ok t ∧ PlanesReplaced s t ∧ AtWork s (pixelLuma s) t := by
  obtain ⟨luma', chr1', chr2', hexec, hin, hout⟩ := (cscfFillsThePlanes.2 s).2 hvalid
  obtain ⟨t, ht⟩ : ∃ t, cscf Config.default s = .ok t := ⟨_, cscf_ok.mpr ⟨validImage_iff.mp hvalid, rfl⟩⟩
  have hmem : t.mem = { s.mem with luma := luma', chr1 := chr1', chr2 := chr2' } := by
    have hsame := (exec_of_effectFor (i := .cscf) ht).symm.trans hexec
    exact congrArg State.Of.mem (Host.Outcome.next.inj hsame)
  obtain ⟨-, rfl⟩ := cscf_ok.mp ht
  refine ⟨_, ht, ⟨_, _, _, rfl⟩, rfl, rfl, rfl, rfl, rfl, ?_, ?_⟩ <;> rw [hmem]
  · exact hin
  · exact hout

/-- `ITRST` stands at block 0, exhausted when the image has no block (42_block_iterator.md R172). -/
theorem atBlock_zero_start {ν : Type} (s : State.Of ν) : AtBlock 0 (withPosition (0, 0, decide (8 < s.h ∧ 8 < s.w)) s) where
  itvalid := decide_eq_decide.mpr <|
    calc (8 < s.h ∧ 8 < s.w) ↔ 0 < nb s.h ∧ 0 < nb s.w := by rw [lt_nb_iff, lt_nb_iff]
      _ ↔ 0 < nb s.h * nb s.w := CanonicallyOrderedAdd.mul_pos.symm
  row := by rw [Nat.zero_min, Nat.zero_div]; rfl
  column := by rw [Nat.zero_min, Nat.zero_mod]; rfl

/-- The iterator moved on. -/
def nextBlock (t : State) : State := withPosition (nextPosition t) t

theorem atBlock_nextBlock {t : State} {k : Nat} (h : AtBlock k t) (hk : k < t.blocks) : AtBlock (k + 1) (nextBlock t) :=
  itnext_atBlock h hk (itnext_eq t)

/-! ### The luma plane after some blocks -/

/-- The luma of pixel `(r, c)` once the first `n` blocks of the sequence are embedded. -/
def embeddedTo (s : State) (n r c : Nat) : QNum :=
  if r / 8 < nb s.h ∧ c / 8 < nb s.w ∧ r / 8 * nb s.w + c / 8 < n then
    inverseSum (embeddedCoef s (r / 8 * nb s.w + c / 8)) (Fin.ofNat 8 r) (Fin.ofNat 8 c)
  else pixelLuma s r c

section EmbeddedTo

variable {s : State}

theorem embeddedTo_zero : embeddedTo s 0 = pixelLuma s := by
  funext r c
  simp [embeddedTo]

/-- All blocks of the sequence, or as many as there are bits (45_orchestrator.md R231). -/
theorem embeddedTo_min_payloadBits : embeddedTo s (min s.payloadBits s.blocks) = embeddedLuma s := by
  funext r c
  refine if_congr (and_congr_right fun hq => and_congr_right fun hr => ?_) rfl rfl
  have hnum : c / 8 + nb s.w * (r / 8) < s.blocks := block_number_lt hq hr
  rw [Nat.mul_comm, Nat.add_comm, lt_min_iff, and_iff_left hnum]

/-- Block `k` of the sequence is the one of row `k div NB(W)` and column `k mod NB(W)`. -/
theorem block_number_eq_iff {q p w k : Nat} (hp : p < nb w) : q * nb w + p = k ↔ q = k / nb w ∧ p = k % nb w := by
  have hunique := Nat.div_mod_unique (a := k) (c := p) (d := q) (Nat.zero_lt_of_lt hp)
  rw [Nat.add_comm, Nat.mul_comm, eq_comm (a := q), eq_comm (a := p), hunique, and_iff_left hp]

/-- What block `k` holds once the first `n` blocks are embedded. -/
theorem embeddedTo_block {k n : Nat} (hk : k < s.blocks) (r c : Fin 8) :
    embeddedTo s n (8 * (k / nb s.w) + r.val) (8 * (k % nb s.w) + c.val) =
      if k < n then inverseSum (embeddedCoef s k) r c else blockLuma s k r c := by
  have hrow : (8 * (k / nb s.w) + r.val) / 8 = k / nb s.w := by omega
  have hcol : (8 * (k % nb s.w) + c.val) / 8 = k % nb s.w := by omega
  have hnum : k / nb s.w * nb s.w + k % nb s.w = k := (block_number_eq_iff (block_column_lt hk)).mpr ⟨rfl, rfl⟩
  have hr : Fin.ofNat 8 (8 * (k / nb s.w) + r.val) = r := Fin.ext (by simp)
  have hc : Fin.ofNat 8 (8 * (k % nb s.w) + c.val) = c := Fin.ext (by simp)
  rw [embeddedTo, hrow, hcol, hnum, hr, hc]
  simp only [block_row_lt hk, block_column_lt hk, true_and]
  rfl

/-- Embedding block `k` leaves every pixel outside it as it was. -/
theorem embeddedTo_succ_of_outside {k r c : Nat}
    (hout : ¬(8 * (k / nb s.w) ≤ r ∧ r < 8 * (k / nb s.w) + 8 ∧ 8 * (k % nb s.w) ≤ c ∧ c < 8 * (k % nb s.w) + 8)) :
    embeddedTo s (k + 1) r c = embeddedTo s k r c := by
  refine if_congr (and_congr_right fun _ => and_congr_right fun hcol => ?_) rfl rfl
  have hother : r / 8 * nb s.w + c / 8 ≠ k := fun e => by
    obtain ⟨hq, hp⟩ := (block_number_eq_iff hcol).mp e
    omega
  omega

end EmbeddedTo

/-! ### One pass of `EMBED` -/

/-- `t` with the coefficients `y` and the block `z`, the block stored at the iterator's position (42_block_iterator.md
R176). -/
def storeBlock (y z : Mat QNum) (t : State) : State :=
  { t with
    blk := z, coef := y
    mem := { t.mem with luma := Cells.setMany t.mem.luma (blockCells Config.default { t with blk := z }) } }

/-- The bit `b` embedded in the block at the iterator's position (45_orchestrator.md R233). -/
def markBlock (b : Bool) (t : State) : State :=
  storeBlock (markedCoef Config.default b t) (markedBlock Config.default b t) t

theorem embedBlock_eq_markBlock {b : Bool} {t : State} (hin : t.badBlock Config.default = false)
    (hq : t.badStrength = false) : embedBlock Config.default b t = .ok (markBlock b t) := by
  rw [embedBlock_eq, hin, hq]
  rfl

/-- Of the memory only the luma plane is written. -/
theorem storeBlock_writes (y z : Mat QNum) (t : State) :
    ∃ l, storeBlock y z t = { t with blk := z, coef := y, mem := { t.mem with luma := l } } := ⟨_, rfl⟩

section StoreBlock

variable {t : State} (hin : t.badBlock Config.default = false) (y z : Mat QNum)
include hin

theorem lumaAt_storeBlock_inside (r c : Fin 8) :
    (storeBlock y z t).mem.lumaAt Config.default (t.i + r.val) (t.j + c.val) = matAt z r c :=
  lumaAt_blockCells (s := { t with blk := z }) hin r c

theorem lumaAt_storeBlock_outside {r c : Nat} (hc : c < Config.default.maxw)
    (hout : ¬(t.i ≤ r ∧ r < t.i + 8 ∧ t.j ≤ c ∧ c < t.j + 8)) :
    (storeBlock y z t).mem.lumaAt Config.default r c = t.mem.lumaAt Config.default r c :=
  lumaAt_outside_blockCells (s := { t with blk := z }) hin hc hout

end StoreBlock

/-- After `k` passes over the image of `s`. -/
structure Embedded (s : State) (k : Nat) (t : State) : Prop extends AtWork s (embeddedTo s k) t where
  atBlock : AtBlock k t
  unused : k = 0 → t.blk = s.blk ∧ t.coef = s.coef
  last : ∀ j, k = j + 1 → matAt t.coef = embeddedCoef s j ∧ matAt t.blk = inverseSum (embeddedCoef s j)

section Pass

variable {s t : State} {k : Nat} (h : Embedded s k t) (hk : k < s.blocks)
include h

theorem Embedded.complete : Embedded s k (complete t) :=
  { h with atBlock := complete_atBlock h.atBlock }

include hk

theorem Embedded.loadedBlock : matAt (loadedBlock Config.default t) = blockLuma s k := by
  funext r c
  rw [h.toAtWork.loadedBlock h.atBlock hk, embeddedTo_block hk, if_neg (lt_irrefl k)]

theorem Embedded.markedCoef : matAt (markedCoef Config.default (textBit s k) t) = embeddedCoef s k := by
  funext u v
  rw [Machine.markedCoef, carrierIndex, matAt_matSet, matAt_forward_default, matAt_forward_default, h.loadedBlock hk,
    default_num, requantize_eq_quantized, strength_eq_q, h.q_eq]
  rfl

theorem Embedded.markedBlock : matAt (markedBlock Config.default (textBit s k) t) = inverseSum (embeddedCoef s k) := by
  funext r c
  rw [Machine.markedBlock, matAt_inverse_default, h.markedCoef hk]

section Store

variable {y z : Mat QNum} (hvalid : ValidImage s)
include hvalid

theorem Embedded.lumaAt_storeBlock (hz : matAt z = inverseSum (embeddedCoef s k)) {r c : Nat} (hr : r < s.h)
    (hc : c < s.w) : (storeBlock y z t).mem.lumaAt Config.default r c = embeddedTo s (k + 1) r c := by
  have hin := h.badBlock_eq_false h.atBlock hvalid hk
  obtain ⟨hi, hj⟩ := h.position h.atBlock hk
  by_cases hblock : t.i ≤ r ∧ r < t.i + 8 ∧ t.j ≤ c ∧ c < t.j + 8
  · obtain ⟨r', rfl⟩ : ∃ r' : Fin 8, r = t.i + r'.val := ⟨⟨r - t.i, by omega⟩, by simp; omega⟩
    obtain ⟨c', rfl⟩ : ∃ c' : Fin 8, c = t.j + c'.val := ⟨⟨c - t.j, by omega⟩, by simp; omega⟩
    rw [lumaAt_storeBlock_inside hin, hz, hi, hj, embeddedTo_block hk, if_pos (Nat.lt_succ_self k)]
  · obtain ⟨-, hw, -, -⟩ := hvalid
    obtain ⟨hluma, -⟩ := h.inside r hr c hc
    rw [lumaAt_storeBlock_outside hin y z (hc.trans_le hw) hblock, hluma]
    rw [hi, hj] at hblock
    exact (embeddedTo_succ_of_outside hblock).symm

theorem Embedded.lumaAt_storeBlock_past {r c : Nat} (hc : c < Config.default.maxw) (hout : ¬(r < s.h ∧ c < s.w)) :
    (storeBlock y z t).mem.lumaAt Config.default r c = s.mem.lumaAt Config.default r c := by
  have hin := h.badBlock_eq_false h.atBlock hvalid hk
  obtain ⟨hi, hj⟩ := h.position h.atBlock hk
  have hbottom := lt_nb_iff.mp (block_row_lt hk)
  have hright := lt_nb_iff.mp (block_column_lt hk)
  obtain ⟨hluma, -⟩ := h.outside r c hc hout
  rw [lumaAt_storeBlock_outside hin y z hc (by rw [hi, hj]; omega), hluma]

theorem Embedded.storeBlock (hy : matAt y = embeddedCoef s k) (hz : matAt z = inverseSum (embeddedCoef s k)) :
    Embedded s (k + 1) (nextBlock (storeBlock y z t)) := by
  have hluma {r c : Nat} := h.lumaAt_storeBlock (y := y) (r := r) (c := c) hk hvalid hz
  have hpast {r c : Nat} := h.lumaAt_storeBlock_past (y := y) (z := z) (r := r) (c := c) hk hvalid
  obtain ⟨l, hl⟩ := storeBlock_writes y z t
  rw [hl] at hluma hpast ⊢
  exact {
    width := h.width, height := h.height, qstep := h.qstep, pix := h.pix, epoch := h.epoch
    inside := fun r hr c hc => ⟨hluma hr hc, (h.inside r hr c hc).2⟩
    outside := fun r c hc hout => ⟨hpast hc hout, (h.outside r c hc hout).2⟩
    atBlock := atBlock_nextBlock { h.atBlock with } (h.blocks_eq.symm ▸ hk)
    unused := nofun
    last := fun j hj => by cases hj; exact ⟨hy, hz⟩ }

end Store

/-- A pass embeds the next bit and moves to the next block. -/
theorem Embedded.pass (hvalid : ValidImage s) : Embedded s (k + 1) (nextBlock (markBlock (textBit s k) t)) :=
  h.storeBlock hk hvalid (h.markedCoef hk) (h.markedBlock hk)

end Pass

/-! ### The loop (45_orchestrator.md R231, R237) -/

/-- What `T2B` and the capacity check write and the passes keep. -/
def streamPart (s : State) := (s.regs.nbits, s.flags.trunc, s.mem.bits, s.mem.epoch)

theorem streamPart_nextBlock_markBlock (b : Bool) (t : State) : streamPart (nextBlock (markBlock b t)) = streamPart t := by
  obtain ⟨l, hl⟩ := storeBlock_writes (markedCoef Config.default b t) (markedBlock Config.default b t) t
  rw [markBlock, hl]
  rfl

theorem bit_eq_of_streamPart_eq {s t : State} (h : streamPart t = streamPart s) :
    t.mem.bit Config.default = s.mem.bit Config.default := by
  simp only [streamPart, Prod.mk.injEq] at h
  obtain ⟨-, -, hbits, hepoch⟩ := h
  funext k
  rw [Memory.bit, Memory.bit, hbits, hepoch]

/-- From block `k` on the loop embeds the bits left, or as many as there are blocks left for. -/
theorem embedLoop_embedded {s t : State} {n k fuel : Nat} (hvalid : ValidImage s) (hq : s.regs.qstep ≠ 0)
    (h : Embedded s k t) (hbits : ∀ j < n, t.mem.bit Config.default j = textBit s j) (hk : k ≤ n)
    (hfuel : k + fuel = s.blocks) :
    ∃ u, embedLoop Config.default n fuel k t = .ok (min n s.blocks, u) ∧ Embedded s (min n s.blocks) u ∧
      streamPart u = streamPart t := by
  induction fuel generalizing k t with
  | zero =>
    obtain rfl : k = s.blocks := hfuel
    rw [Nat.min_eq_right hk]
    exact ⟨t, rfl, h, rfl⟩
  | succ fuel ih =>
    have hlt : k < s.blocks := by omega
    have hv : t.flags.itvalid = true := h.atBlock.itvalid.trans (decide_eq_true (h.blocks_eq.symm ▸ hlt))
    rcases Nat.lt_or_eq_of_le hk with hmore | rfl
    · have hblock := embedBlock_eq_markBlock (b := textBit s k) (h.badBlock_eq_false h.atBlock hvalid hlt)
        (h.badStrength_eq_false hq)
      have hstream := streamPart_nextBlock_markBlock (textBit s k) t
      obtain ⟨u, hloop, hu, hkept⟩ := ih (h.pass hlt hvalid)
        (fun j hj => by rw [bit_eq_of_streamPart_eq hstream, hbits j hj]) hmore (by omega)
      refine ⟨u, embedLoop_succ_ok.mpr (.inr ⟨by simp [hv, hmore], _, _, ?_, itnext_eq _, hloop⟩), hu,
        hkept.trans hstream⟩
      rw [hbits k hmore, hblock]
    · rw [Nat.min_eq_left hlt.le]
      exact ⟨t, embedLoop_succ_ok.mpr (.inl ⟨by simp, rfl⟩), h, rfl⟩

/-! ### The command -/

/-- Bit `k` of the stream that `T2B` writes (40_bit_codec.md R132). -/
theorem payload_getElem?_eq_textBit {s : State} {k : Nat} (hk : k < s.payloadBits) :
    (payload Config.default s)[k]? = some (textBit s k) := by
  unfold textBit
  split_ifs with htext
  · have hbit := payload_getElem?_text (cfg := Config.default) (s := s) (k := k / 8) (t := k % 8) (by omega) (by omega)
    rwa [Nat.div_add_mod] at hbit
  · obtain ⟨t, rfl⟩ := Nat.exists_eq_add_of_le (Nat.not_lt.mp htext)
    rw [payload_getElem?_delimiter (by unfold State.Of.payloadBits at hk; omega)]
    simp [delimBit]
    omega

/-- The stream and `TRUNC` as `EMBED` sets them before the passes. -/
def streamed (s : State) : State :=
  { withStream s.payloadBits (Cells.setSeq s.mem.bits 0 (payload Config.default s)) s with
    flags := { s.flags with trunc := decide (s.payloadBits > s.blocks) } }

theorem bit_streamed (s : State) (k : Nat) :
    (streamed s).mem.bit Config.default k = if k < s.payloadBits then textBit s k else s.mem.bit Config.default k := by
  refine (bit_setSeq s.mem _ k).trans ?_
  split_ifs with hk
  · rw [payload_getElem?_eq_textBit hk, Option.getD_some]
  · rw [payload_getElem?_past (Nat.not_lt.mp hk), Option.getD_none]

/-- The planes filled and the iterator at the first block: where the passes begin. -/
theorem embedded_zero {s t : State} (h : AtWork s (pixelLuma s) t) (hregs : t.blk = s.blk ∧ t.coef = s.coef) :
    Embedded s 0 (withPosition (0, 0, decide (8 < t.h ∧ 8 < t.w)) t) := by
  rw [← embeddedTo_zero] at h
  exact { h with atBlock := atBlock_zero_start t, unused := fun _ => hregs, last := nofun }

/-- The pixels of the planes written to `PIX` (41_channel_adapter.md R154). -/
def withImage (t : State) : State :=
  { t with mem := { t.mem with pix := Cells.setMany t.mem.pix (imageBytes Config.default t) } }

theorem pixel_withImage {t : State} {r c : Nat} (hr : r < t.h) (hc : c < t.w) :
    pixel (withImage t) r c = cellRGB Config.default t r c := by
  have hbyte := pixByte_imageBytes (cfg := Config.default) hr hc
  exact Prod.ext (hbyte 0) (Prod.ext (hbyte 1) (hbyte 2))

/-- `EMBED` where no check fails: the passes, then the pixels. -/
theorem embed_of_accepts {s : State} (h : EmbedAccepts s) :
    ∃ u, Embedded s (min s.payloadBits s.blocks) u ∧ streamPart u = streamPart (streamed s) ∧
      embed Config.default s = .ok { withImage u with
        regs := { u.regs with bitcur := BitVec.ofNat 32 (min s.payloadBits s.blocks) } } := by
  obtain ⟨hvalid, hq, ⟨hlen, htext⟩, hcap⟩ := h
  obtain ⟨t, hcscf, ⟨l, c1, c2, hplanes⟩, hwork⟩ := cscf_atWork (s := streamed s) hvalid
  have hstart : Embedded s 0 _ := embedded_zero (s := s) (t := t) { hwork with } (by rw [hplanes]; exact ⟨rfl, rfl⟩)
  have hstream : streamPart (withPosition (0, 0, decide (8 < t.h ∧ 8 < t.w)) t) = streamPart (streamed s) := by
    rw [hplanes]
    rfl
  obtain ⟨u, hloop, hu, hkept⟩ := embedLoop_embedded (n := s.payloadBits) hvalid hq hstart
    (fun j hj => by rw [bit_eq_of_streamPart_eq hstream, bit_streamed, if_pos hj]) (Nat.zero_le _) (Nat.zero_add _)
  refine ⟨u, hu, hkept.trans hstream, embed_ok.mpr ⟨validImage_iff.mp hvalid, badStrength_eq_false.mpr hq,
    badTextLen_eq_false.mpr hlen, badText_eq_false.mpr htext, overCapacity_eq_false.mpr hcap, _, t, _, _, withImage u,
    t2b_ok.mpr ⟨badTextLen_eq_false.mpr hlen, badText_eq_false.mpr htext, rfl⟩, hcscf, itrst_eq t, hloop,
    csci_ok.mpr ⟨hu.badImage_eq_false hvalid, rfl⟩, rfl⟩⟩

/-- Settles O33: the operands and results that `EMBED` keeps are its frame, and the passes fix the rest. -/
theorem embedCompletesAndLeavesTheRestAlone : Obligations.EmbedCompletesAndLeavesTheRestAlone := by
  intro s hs
  obtain ⟨u, hu, hstream, hok⟩ := embed_of_accepts hs
  have hframe := embed_embedFrame hok
  have hbit := bit_eq_of_streamPart_eq hstream
  simp only [embedFrame, hostPart, Prod.mk.injEq] at hframe
  obtain ⟨⟨hwidth, hheight, hqstep, htextlen, hctrl, htxt, hepoch, hovr, hcmdl, hport⟩, hfound, hbitout, hcapacity,
    houtlen, hout⟩ := hframe
  simp only [streamPart, Prod.mk.injEq] at hstream
  obtain ⟨hnbits, htrunc, -, -⟩ := hstream
  obtain ⟨hv, hi, hj⟩ := hu.atBlock
  rw [hu.blocks_eq] at hv hi hj
  rw [min_assoc, min_eq_right (Nat.sub_le _ _), hu.w_eq] at hi hj
  refine ⟨_, exec_of_effectFor (i := .embed) hok, rfl, ?_, ?_, hi, hj, hctrl, hcmdl, hport, ?_, fun k hk => ?_,
    fun k hk => ?_, hu.outside, fun a ha => ?_⟩
  · exact (Regs.mk.injEq ..).mpr ⟨hwidth, hheight, hqstep, htextlen, hnbits, houtlen, rfl, rfl, rfl, hcapacity⟩
  · exact (Flags.mk.injEq ..).mpr ⟨rfl, hfound, htrunc, hovr, hbitout, hv.trans (by simp), rfl⟩
  · exact (Memory.mk.injEq ..).mpr ⟨hepoch, rfl, htxt, hout, rfl, rfl, rfl, rfl⟩
  · exact (congrFun hbit k).trans ((bit_streamed s k).trans (if_pos hk))
  · exact (congrFun hbit k).trans ((bit_streamed s k).trans (if_neg (Nat.not_lt.mpr hk)))
  · refine (pixByte_past_imageBytes (s := u) (by rw [hu.w_eq, hu.h_eq]; exact ha)).trans ?_
    rw [Memory.pixByte, Memory.pixByte, hu.pix, hu.epoch]

/-- Settles O34: the luma and chroma are those of the planes after the passes, and `CSCI` writes their pixels. -/
theorem embedWritesTheWatermarkedImage : Obligations.EmbedWritesTheWatermarkedImage := by
  intro s hs
  obtain ⟨u, hu, -, hok⟩ := embed_of_accepts hs
  refine ⟨_, exec_of_effectFor (i := .embed) hok, fun r hr c hc => ?_, fun hnone => ?_, fun k hk i j => ?_⟩
  · obtain ⟨hluma, hchr1, hchr2⟩ := hu.inside r hr c hc
    rw [embeddedTo_min_payloadBits] at hluma
    have hpixel := pixel_withImage (hu.h_eq.symm ▸ hr) (hu.w_eq.symm ▸ hc)
    rw [cellRGB, hluma, hchr1, hchr2] at hpixel
    exact ⟨hluma, hchr1, hchr2, hpixel⟩
  · exact hu.unused (by rw [hnone, Nat.min_zero])
  · obtain ⟨hcoef, hblk⟩ := hu.last k hk
    exact ⟨congrFun₂ hcoef i j, congrFun₂ hblk i j⟩

/-! ### The primitive commands (45_orchestrator.md R233) -/

theorem runCommands_append {is js : List Instr} {s t : State} (h : runCommands is s = .next t) :
    runCommands (is ++ js) s = runCommands js t := by
  induction is generalizing s with
  | nil => cases h; rfl
  | cons i is ih =>
    obtain ⟨u, hu, -⟩ := exec_completes i s
    rw [runCommands_cons hu] at h
    rw [List.cons_append, runCommands_cons hu, ih h]

/-- `t` with the block `x` and the coefficients `y`. -/
def withBlock (x y : Mat QNum) (t : State) : State := { t with blk := x, coef := y }

theorem exec_blkld {t : State} (hin : t.badBlock Config.default = false) :
    exec .blkld t = .next (complete (withBlock (loadedBlock Config.default t) t.coef t)) :=
  exec_of_effectFor (i := .blkld) (blkld_ok.mpr ⟨hin, rfl⟩)

theorem exec_fdct_complete (x y : Mat QNum) (t : State) :
    exec .fdct (complete (withBlock x y t)) =
      .next (complete (withBlock x (forwardRows Config.default (forwardColumns Config.default x)) t)) := rfl

theorem exec_qemb_complete {t : State} (hq : t.badStrength = false) (b : Bool) (x y : Mat QNum) :
    exec (.qemb b) (complete (withBlock x y t)) =
      .next (complete (withBlock x
        (matSet y carrierIndex (requantize ratOps b (t.strength ratOps) (matAt y 4 5))) t)) :=
  (exec_of_effectFor (i := .qemb b) (s := complete (withBlock x y t)) (qemb_ok.mpr ⟨hq, rfl⟩)).trans rfl

theorem exec_idct_complete (x y : Mat QNum) (t : State) :
    exec .idct (complete (withBlock x y t)) =
      .next (complete (withBlock (inverseRows Config.default (inverseColumns Config.default y)) y t)) := rfl

theorem exec_blkst_complete {t : State} (hin : t.badBlock Config.default = false) (x y : Mat QNum) :
    exec .blkst (complete (withBlock x y t)) = .next (complete (storeBlock y x t)) :=
  (exec_of_effectFor (i := .blkst) (s := complete (withBlock x y t)) (blkst_ok.mpr ⟨hin, rfl⟩)).trans rfl

theorem exec_itnext_complete (t : State) : exec .itnext (complete t) = .next (complete (nextBlock t)) :=
  exec_itnext (complete t)

/-- The commands of one `EMB1` and one `ITNEXT`. -/
def embedCommands (b : Bool) : List Instr := [.blkld, .fdct, .qemb b, .idct, .blkst, .itnext]

/-- They do what one pass does, and complete. -/
theorem runCommands_embedCommands {b : Bool} {t : State} (hin : t.badBlock Config.default = false)
    (hq : t.badStrength = false) : runCommands (embedCommands b) t = .next (complete (nextBlock (markBlock b t))) := by
  rw [embedCommands, runCommands_cons (exec_blkld hin), runCommands_cons (exec_fdct_complete _ _ _),
    runCommands_cons (exec_qemb_complete hq _ _ _), runCommands_cons (exec_idct_complete _ _ _),
    runCommands_cons (exec_blkst_complete hin _ _), runCommands_cons (exec_itnext_complete _)]
  rfl

/-- One `EMB1` and one `ITNEXT` for each of the first `n` bits. -/
theorem runCommands_embedBlocks {s t : State} (hvalid : ValidImage s) (hq : s.regs.qstep ≠ 0) (h : Embedded s 0 t) {n : Nat}
    (hn : n ≤ s.blocks) :
    ∃ u, runCommands ((List.range n).flatMap fun k => embedCommands (textBit s k)) t = .next u ∧ Embedded s n u := by
  induction n with
  | zero => exact ⟨t, rfl, h⟩
  | succ n ih =>
    obtain ⟨u, hrun, hu⟩ := ih (Nat.le_of_succ_le hn)
    have hpass := runCommands_embedCommands (b := textBit s n) (hu.badBlock_eq_false hu.atBlock hvalid hn)
      (hu.badStrength_eq_false hq)
    refine ⟨_, ?_, (hu.pass hn hvalid).complete⟩
    rw [List.range_succ, List.flatMap_append, runCommands_append hrun, List.flatMap_singleton, hpass]

/-- Settles O35: both ways end with the planes of the same invariant, and `CSCI` writes what the planes hold. -/
theorem embedEqualsItsPrimitives : Obligations.EmbedEqualsItsPrimitives := by
  intro s hs
  obtain ⟨u, hu, -, hok⟩ := embed_of_accepts hs
  obtain ⟨hvalid, hq, -, -⟩ := hs
  obtain ⟨t, hcscf, ⟨l, c1, c2, hplanes⟩, hwork⟩ := cscf_atWork hvalid
  have hstart : Embedded s 0 (complete _) :=
    (embedded_zero (s := s) (t := complete t) { hwork with } (by rw [hplanes]; exact ⟨rfl, rfl⟩)).complete
  obtain ⟨v, hrun, hv⟩ := runCommands_embedBlocks hvalid hq hstart (Nat.min_le_right s.payloadBits s.blocks)
  have hbegin : runCommands [.cscf, .itrst] s = .next _ :=
    (runCommands_cons (exec_of_effectFor (i := .cscf) hcscf)).trans (runCommands_cons (exec_itrst _))
  have hcsci : runCommands [.csci] v = .next (complete (withImage v)) :=
    runCommands_cons (exec_of_effectFor (i := .csci) (csci_ok.mpr ⟨hv.badImage_eq_false hvalid, rfl⟩))
  refine ⟨_, complete (withImage v), exec_of_effectFor (i := .embed) hok, ?_, ?_⟩
  · rw [List.append_assoc, runCommands_append hbegin]
    exact (runCommands_append hrun).trans hcsci
  · change Cells.setMany v.mem.pix (imageBytes Config.default v) = Cells.setMany u.mem.pix (imageBytes Config.default u)
    rw [hv.pix, hu.pix, hv.imageBytes_eq hu.toAtWork]

end Sys2Proof.Machine
end

section
/-! PROOFS. 45_orchestrator.md, O36 to O38: what `EXTRACT` does. Its passes keep one invariant: after `k` blocks `BITS` holds the
bits that they carry. The loop ends at the first delimiter, or after the last block without one. -/

namespace Sys2Proof.Machine

/-! ### One pass of `EXTRACT` -/

/-- The first `k` blocks of the image of `s` are read. -/
structure BlocksRead (s : State) (k : Nat) (t : State) : Prop extends AtWork s (pixelLuma s) t where
  nbits : t.nBits = k
  bits : ∀ j, t.mem.bit Config.default j = if j < k then carriedBit s j else s.mem.bit Config.default j
  unused : k = 0 → t.blk = s.blk ∧ t.coef = s.coef ∧ t.flags.bitout = s.flags.bitout
  last : ∀ j, k = j + 1 →
    matAt t.blk = blockLuma s j ∧ matAt t.coef = forwardSum (blockLuma s j) ∧ t.flags.bitout = carriedBit s j

/-- They are read, and no delimiter was found in their bits. -/
structure Searching (s : State) (k : Nat) (t : State) : Prop extends BlocksRead s k t where
  found : t.flags.found = false
  outlen : t.regs.outlen = 0
  out : t.mem.out = s.mem.out

/-- The classifier by its threshold (44_quantizer.md R215). -/
theorem classify_eq_threshold {q : QNum} (hq : 0 < q) (c : QNum) :
    classify ratOps q c = decide (remainder c q > q / 2) := by
  rw [classify_eq_decide]
  exact decide_eq_decide.mpr (nearer_upper_centroid_iff hq _)

/-- `t` with the block `x`, its coefficients `y` and its bit `b`. -/
def readBlock (x y : Mat QNum) (b : Bool) (t : State) : State :=
  { t with blk := x, coef := y, flags := { t.flags with bitout := b } }

theorem bit_appendBit (t : State) (j : Nat) :
    (appendBit t).mem.bit Config.default j = if j = t.nBits then t.flags.bitout else t.mem.bit Config.default j := by
  simp only [appendBit, Memory.bit, Cells.get?_set]
  split_ifs <;> rfl

/-- The blocks of a valid image fit the registers that count them (00_scope.md R7). -/
theorem blocks_le_of_validImage {s : State} (hvalid : ValidImage s) : s.blocks ≤ 16400 :=
  (blocks_le_maxbits (validImage_iff.mp hvalid)).trans_eq (by decide)

section Pass

variable {s t : State} {k : Nat} (hvalid : ValidImage s) (hk : k < s.blocks) (hat : AtBlock k t)

include hvalid hk hat in
/-- The block at the iterator's position is block `k` of the image, and `QEXT` reads the bit it carries. -/
theorem AtWork.extractBlock (h : AtWork s (pixelLuma s) t) (hq : s.regs.qstep ≠ 0) :
    ∃ x y, extractBlock Config.default t = .ok (readBlock x y (carriedBit s k) t) ∧ matAt x = blockLuma s k ∧
      matAt y = forwardSum (blockLuma s k) := by
  have hx : matAt (Machine.loadedBlock Config.default t) = blockLuma s k := funext₂ (h.loadedBlock hat hk)
  have hy : matAt (forwardRows Config.default (forwardColumns Config.default (Machine.loadedBlock Config.default t))) =
      forwardSum (blockLuma s k) := funext₂ fun u v => by rw [matAt_forward_default, hx]
  refine ⟨_, _, ?_, hx, hy⟩
  rw [extractBlock_eq, h.badBlock_eq_false hat hvalid hk, h.badStrength_eq_false hq, hy, default_num, strength_eq_q,
    h.q_eq, classify_eq_threshold (q_pos hq)]
  rfl

include hvalid hk hat in
/-- A block read and its bit appended. -/
theorem Searching.appendBit (h : Searching s k t) {x y : Mat QNum} (hx : matAt x = blockLuma s k)
    (hy : matAt y = forwardSum (blockLuma s k)) :
    Searching s (k + 1) (Machine.appendBit (readBlock x y (carriedBit s k) t)) ∧
      AtBlock k (Machine.appendBit (readBlock x y (carriedBit s k) t)) := by
  have hmax := blocks_le_of_validImage hvalid
  have hn : (readBlock x y (carriedBit s k) t).nBits = k := h.nbits
  refine ⟨{ h with nbits := ?_, bits := fun j => ?_, unused := nofun, last := ?_ }, { hat with }⟩
  · rw [appendBit_nBits (by omega), hn]
  · have hbits := h.bits j
    rw [bit_appendBit, hn]
    change (if j = k then carriedBit s k else t.mem.bit Config.default j) = _
    rw [hbits]
    rcases Nat.lt_trichotomy j k with hj | rfl | hj
    · rw [if_neg hj.ne, if_pos hj, if_pos (hj.trans (Nat.lt_succ_self k))]
    · rw [if_pos rfl, if_pos (Nat.lt_succ_self j)]
    · rw [if_neg hj.ne', if_neg hj.not_gt, if_neg (Nat.not_lt.mpr hj)]
  · rintro j hj
    cases hj
    exact ⟨hx, hy, rfl⟩

end Pass

/-- The delimiter is looked for in the bits that the blocks carry. -/
theorem BlocksRead.endsWithDelim_iff {s t : State} {k : Nat} (h : BlocksRead s k t) :
    endsWithDelim (t.mem.bit Config.default) t.nBits = true ↔ EndsDelim (carriedBit s) k := by
  rw [h.nbits, endsWithDelim_congr fun j hj => (h.bits j).trans (if_pos hj), Machine.endsWithDelim_iff]

theorem Searching.nextBlock {s t : State} {k : Nat} (h : Searching s k t) : Searching s k (Machine.nextBlock t) := { h with }

/-! ### The loop (45_orchestrator.md R232, R237) -/

/-- How the loop ends: at the first delimiter, its last block still current; or after the last block, with none. -/
inductive ExtractEnd (s : State) : State → Prop
  | found {m : Nat} {u : State} (hm : m ≤ s.blocks) (hends : EndsDelim (carriedBit s) m)
      (hfirst : ∀ n < m, ¬EndsDelim (carriedBit s) n) (hread : Searching s m u) (hat : AtBlock (m - 1) u) :
      ExtractEnd s (foundText Config.default u)
  | notFound {u : State} (hnone : ∀ m ≤ s.blocks, ¬EndsDelim (carriedBit s) m) (hread : Searching s s.blocks u)
      (hat : AtBlock s.blocks u) : ExtractEnd s u

theorem extractLoop_of_found {fuel : Nat} {t : State} (h : t.flags.found = true) :
    extractLoop Config.default fuel t = .ok t := by
  cases fuel with
  | zero => rfl
  | succ fuel => exact extractLoop_succ_ok.mpr (.inl ⟨by simp [h], rfl⟩)

/-- From block `k` on the loop reads the blocks left, or those up to the first delimiter. -/
theorem extractLoop_end {s t : State} {k fuel : Nat} (hvalid : ValidImage s) (hq : s.regs.qstep ≠ 0)
    (h : Searching s k t) (hat : AtBlock k t) (hnone : ∀ m ≤ k, ¬EndsDelim (carriedBit s) m)
    (hfuel : k + fuel = s.blocks) : ∃ u, extractLoop Config.default fuel t = .ok u ∧ ExtractEnd s u := by
  induction fuel generalizing k t with
  | zero =>
    obtain rfl : k = s.blocks := hfuel
    exact ⟨t, rfl, .notFound hnone h hat⟩
  | succ fuel ih =>
    have hlt : k < s.blocks := by omega
    have hv : t.flags.itvalid = true := hat.itvalid.trans (decide_eq_true (h.blocks_eq.symm ▸ hlt))
    have hgo : (t.flags.itvalid && !t.flags.found) = true := by rw [hv, h.found]; rfl
    obtain ⟨x, y, hblock, hx, hy⟩ := h.extractBlock hvalid hlt hat hq
    obtain ⟨hread, hat'⟩ := h.appendBit hvalid hlt hat hx hy
    have hdelim := hread.endsWithDelim_iff
    by_cases hends : EndsDelim (carriedBit s) (k + 1)
    · exact ⟨_, extractLoop_succ_ok.mpr (.inr ⟨hgo, _, hblock, .inl ⟨hdelim.mpr hends, extractLoop_of_found rfl⟩⟩),
        .found hlt hends (fun n hn => hnone n (Nat.le_of_lt_succ hn)) hread hat'⟩
    · have hnone' (m : Nat) (hm : m ≤ k + 1) : ¬EndsDelim (carriedBit s) m :=
        (Nat.le_succ_iff.mp hm).elim (hnone m) fun e => e ▸ hends
      obtain ⟨u, hloop, hu⟩ := ih hread.nextBlock (atBlock_nextBlock hat' (hread.blocks_eq.symm ▸ hlt)) hnone' (by omega)
      exact ⟨u, extractLoop_succ_ok.mpr (.inr ⟨hgo, _, hblock,
        .inr ⟨Bool.not_eq_true _ ▸ mt hdelim.mp hends, _, itnext_eq _, hloop⟩⟩), hu⟩

/-! ### The command -/

/-- The results of `EXTRACT` as they are before the passes. -/
def startSearch (t : State) : State :=
  { t with regs := { t.regs with nbits := 0, outlen := 0 }, flags := { t.flags with found := false } }

/-- `EXTRACT` on a valid image with a positive strength. -/
theorem extract_of_valid {s : State} (hvalid : ValidImage s) (hq : s.regs.qstep ≠ 0) :
    ∃ u, ExtractEnd s u ∧
      extract Config.default s = .ok { u with regs := { u.regs with bitcur := u.regs.nbits } } := by
  obtain ⟨t, hcscf, ⟨l, c1, c2, ht⟩, hwork⟩ := cscf_atWork hvalid
  have hstart : Searching s 0 (startSearch (withPosition (0, 0, decide (8 < t.h ∧ 8 < t.w)) t)) := by
    rw [ht] at hwork ⊢
    exact { hwork with
      nbits := rfl, bits := fun _ => rfl, unused := fun _ => ⟨rfl, rfl, rfl⟩, last := nofun, found := rfl, outlen := rfl
      out := rfl }
  obtain ⟨u, hloop, hu⟩ := extractLoop_end hvalid hq hstart { atBlock_zero_start t with }
    (fun m hm h => absurd (h.1.trans hm) (by decide)) (Nat.zero_add _)
  exact ⟨u, hu, extract_ok.mpr ⟨validImage_iff.mp hvalid, badStrength_eq_false.mpr hq, t, _, u, hcscf, itrst_eq t, hloop,
    rfl⟩⟩

theorem foundText_writes (u : State) :
    ∃ l, foundText Config.default u = { u with
        regs := { u.regs with outlen := BitVec.ofNat 32 ((u.nBits - 16) / 8) }
        flags := { u.flags with found := true }
        mem := { u.mem with out := l } } ∧
      ∀ g, ({ u.mem with out := l } : Memory QNum).outWord Config.default g =
        if g < (u.nBits - 16) / 8 then charAt (u.mem.bit Config.default) g else u.mem.outWord Config.default g := by
  refine ⟨_, rfl, fun g => (outWord_setSeq _ _ _).trans ?_⟩
  rw [decodeChars_getElem?]
  split_ifs <;> rfl

theorem Searching.outWord {s t : State} {k : Nat} (h : Searching s k t) (g : Nat) :
    t.mem.outWord Config.default g = s.mem.outWord Config.default g := by
  rw [Memory.outWord, Memory.outWord, h.out, h.epoch]

/-- What both ends have in common. -/
theorem ExtractEnd.blocksRead {s t : State} (hvalid : ValidImage s) (h : ExtractEnd s t) :
    ∃ k, BlocksRead s k t ∧ t.flags.itvalid = t.flags.found ∧
      ∀ g, t.regs.outlen.toNat ≤ g → t.mem.outWord Config.default g = s.mem.outWord Config.default g := by
  cases h with
  | @found m u hm hends hfirst hread hat =>
    have hmax := blocks_le_of_validImage hvalid
    obtain ⟨l, hl, hout⟩ := foundText_writes u
    have hlt : m - 1 < u.blocks := by rw [hread.blocks_eq]; have := hends.1; omega
    rw [hl]
    refine ⟨m, { hread with }, hat.itvalid.trans (decide_eq_true hlt), fun g hg => ?_⟩
    have hlen : (BitVec.ofNat 32 ((u.nBits - 16) / 8)).toNat = (u.nBits - 16) / 8 :=
      Nat.mod_eq_of_lt (by rw [hread.nbits]; omega)
    rw [hout, if_neg (Nat.not_lt.mpr (hlen ▸ hg)), hread.outWord]
  | notFound hnone hread hat =>
    refine ⟨_, hread.toBlocksRead, ?_, fun g _ => hread.outWord g⟩
    rw [hat.itvalid, hread.found, hread.blocks_eq, decide_eq_false (lt_irrefl _)]

/-- Settles O36: the frame of `EXTRACT`, and what both ends of its loop have in common. -/
theorem extractCompletesAndWritesNoImage : Obligations.ExtractCompletesAndWritesNoImage := by
  intro s hvalid hq
  obtain ⟨u, hu, hok⟩ := extract_of_valid hvalid hq
  obtain ⟨k, hread, hitvalid, hout⟩ := hu.blocksRead hvalid
  have hframe := extract_extractFrame hok
  simp only [extractFrame, hostPart, Prod.mk.injEq] at hframe
  obtain ⟨⟨hwidth, hheight, hqstep, htextlen, hctrl, htxt, hepoch, hovr, hcmdl, hport⟩, htrunc, hcapacity, hpix⟩ := hframe
  refine ⟨_, exec_of_effectFor (i := .extract) hok, rfl, ?_, ?_, hctrl, hcmdl, hport, ?_, fun hzero => ?_,
    fun j hj i c => ?_, fun j hj => ?_, hread.inside, hread.outside, hout⟩
  · exact (Regs.mk.injEq ..).mpr ⟨hwidth, hheight, hqstep, htextlen, rfl, rfl, rfl, rfl, rfl, hcapacity⟩
  · exact (Flags.mk.injEq ..).mpr ⟨rfl, rfl, htrunc, hovr, rfl, hitvalid, rfl⟩
  · exact (Memory.mk.injEq ..).mpr ⟨hepoch, hpix, htxt, rfl, rfl, rfl, rfl, rfl⟩
  · obtain ⟨hblk, hcoef, -⟩ := hread.unused (hread.nbits.symm.trans hzero)
    exact ⟨hblk, hcoef⟩
  · obtain ⟨hblk, hcoef, -⟩ := hread.last j (hread.nbits.symm.trans hj)
    exact ⟨congrFun₂ hblk i c, congrFun₂ hcoef i c⟩
  · exact (hread.bits j).trans (if_neg (Nat.not_lt.mpr (hread.nbits ▸ hj)))

/-- Settles O37: the loop ends at the first delimiter, the only one that is first. -/
theorem extractStopsAtTheFirstDelimiter : Obligations.ExtractStopsAtTheFirstDelimiter := by
  intro s m hvalid hq hm hends hfirst
  obtain ⟨t, ht, hok⟩ := extract_of_valid hvalid hq
  have hmax := blocks_le_of_validImage hvalid
  cases ht with
  | notFound hnone => exact absurd hends (hnone m hm)
  | @found m' u _ hends' hfirst' hread hat =>
    obtain rfl : m' = m := Nat.le_antisymm (Nat.not_lt.mp fun h => hfirst' m h hends)
      (Nat.not_lt.mp fun h => hfirst m' h hends')
    obtain ⟨hlen, -, hzeros⟩ := hends
    obtain ⟨l, hl, hout⟩ := foundText_writes u
    rw [hl] at hok
    have hlast : m' - 1 < s.blocks := by omega
    obtain ⟨-, -, hbitout⟩ := hread.last (m' - 1) (by omega)
    obtain ⟨hi, hj⟩ := hread.position hat hlast
    have hn : u.nBits = m' := hread.nbits
    refine ⟨_, exec_of_effectFor (i := .extract) hok, rfl, hat.itvalid.trans (decide_eq_true (hread.blocks_eq.symm ▸ hlast)),
      hbitout.trans ?_, hn, hn, ?_, hi, hj, fun k hk => (hread.bits k).trans (if_pos hk), fun g hg => ?_⟩
    · rw [show m' - 1 = m' - 8 + 7 by omega]
      exact hzeros 7 (by decide)
    · change (BitVec.ofNat 32 ((u.nBits - 16) / 8)).toNat = _
      rw [hn]
      exact Nat.mod_eq_of_lt (by omega)
    · refine (congrArg BitVec.toNat ((hout g).trans (if_pos (hn.symm ▸ hg)))).trans ?_
      rw [charAt_toNat]
      refine Finset.sum_congr rfl fun t ht => ?_
      have ht' := Finset.mem_range.mp ht
      rw [hread.bits, if_pos (by omega)]

/-- Settles O38: with no delimiter the loop ends after the last block. -/
theorem extractReportsNotFound : Obligations.ExtractReportsNotFound := by
  intro s hvalid hq hnone
  obtain ⟨t, ht, hok⟩ := extract_of_valid hvalid hq
  cases ht with
  | found hm hends => exact absurd hends (hnone _ hm)
  | notFound _ hread hat =>
    have hbits (k : Nat) (hk : k < s.blocks) := (hread.bits k).trans (if_pos hk)
    obtain ⟨hv, hi, hj⟩ := hat
    rw [hread.blocks_eq, hread.w_eq, Nat.min_eq_right (Nat.sub_le _ _)] at hi hj
    rw [hread.blocks_eq, decide_eq_false (lt_irrefl _)] at hv
    refine ⟨_, exec_of_effectFor (i := .extract) hok, rfl, hread.found, hv, hread.nbits, hread.nbits, hread.outlen,
      hread.out, ?_, hbits, ?_⟩ <;> split_ifs with hzero
    · rw [hzero, Nat.zero_sub, Nat.zero_div] at hi
      rw [hzero, Nat.zero_sub, Nat.zero_mod] at hj
      exact ⟨hi, hj⟩
    · exact ⟨hi, hj⟩
    · obtain ⟨-, -, hbitout⟩ := hread.unused hzero
      exact hbitout
    · obtain ⟨-, -, hbitout⟩ := hread.last (s.blocks - 1) (by omega)
      exact hbitout

end Sys2Proof.Machine
end

section
/-! PROOFS. 45_orchestrator.md, O40: the text embedded in a grey image is read back. Rounding moves a sample by half a unit at
most, so it moves the carrier by less than the quarter of the strength that the classifier tolerates (44_quantizer.md
R217). -/

namespace Sys2Proof.Machine

/-! ### Grey pixels (41_channel_adapter.md R155) -/

theorem sat8_toNat_eq (b : Byte) : sat8 (b.toNat : Int) = b := by
  have h := sat8_toNat (b.toNat : Int)
  exact BitVec.eq_of_toNat_eq (by omega)

/-- The three samples of every pixel of the image are equal. -/
def IsGrey (s : State) : Prop :=
  ∀ r < s.h, ∀ c < s.w, (pixel s r c).2.1 = (pixel s r c).1 ∧ (pixel s r c).2.2 = (pixel s r c).1

theorem toYCC_grey (g : Byte) : Config.default.color.toYCC g g g = (g, 128, 128) := by
  have hluma : sat8 ((4899 * (g.toNat : Int) + 9617 * g.toNat + 1868 * g.toNat + 8192) / 16384) = g := by
    rw [show (4899 * (g.toNat : Int) + 9617 * g.toNat + 1868 * g.toNat + 8192) / 16384 = g.toNat by omega, sat8_toNat_eq]
  change toYCCBt601 g g g = _
  simp only [toYCCBt601, hluma, sub_self]
  rfl

theorem fromYCC_grey (y : Byte) : Config.default.color.fromYCC y 128 128 = (y, y, y) := by
  have hsample : sat8 ((y.toNat : Int) + 0) = y := by rw [add_zero, sat8_toNat_eq]
  exact Prod.ext hsample (Prod.ext hsample hsample)

/-! ### Rounding (00_scope.md R10) -/

/-- A value that needs no clamping moves by half a unit at most. -/
theorem abs_tou8_sub_le {x : QNum} (hlo : -1 / 2 ≤ x) (hhi : x < 509 / 2) : |((tou8 ratOps x).toNat : QNum) - x| ≤ 1 / 2 := by
  have hnonneg : 0 ≤ ⌊x + 1 / 2⌋ := Int.floor_nonneg.mpr (by linarith)
  have hle : ⌊x + 1 / 2⌋ < 255 := Int.floor_lt.mpr (by push_cast; linarith)
  have htou8 : ((tou8 ratOps x).toNat : Int) = ⌊x + 1 / 2⌋ := by
    rw [toNat_tou8, clamp255]
    omega
  have hcast : ((tou8 ratOps x).toNat : QNum) = (⌊x + 1 / 2⌋ : QNum) := by exact_mod_cast htou8
  rw [hcast, abs_le]
  constructor <;> linarith [Int.floor_le (x + 1 / 2), Int.lt_floor_add_one (x + 1 / 2)]

/-! ### The carrier under a change of the block (43_block_transform.md R192, R193) -/

/-- The most that the carrier moves when every cell of the block moves by at most 1. -/
def carrierGain : QNum := (∑ r, |Config.default.c 4 r|) * ∑ c, |Config.default.c 5 c|

theorem carrierGain_le : carrierGain ≤ 72491 / 10000 := by
  simp only [carrierGain, Fin.sum_univ_eight]
  decide +kernel

theorem abs_carrier_sub_le {x y : Fin 8 → Fin 8 → QNum} {b : QNum} (h : ∀ r c, |x r c - y r c| ≤ b) :
    |forwardSum x 4 5 - forwardSum y 4 5| ≤ carrierGain * b := by
  have hdiff : forwardSum x 4 5 - forwardSum y 4 5 =
      ∑ r, ∑ c, Config.default.c 4 r * Config.default.c 5 c * (x r c - y r c) := by
    simp only [forwardSum, mul_sub, Finset.sum_sub_distrib]
  calc |forwardSum x 4 5 - forwardSum y 4 5|
      ≤ ∑ r, ∑ c, |Config.default.c 4 r * Config.default.c 5 c * (x r c - y r c)| := by
        rw [hdiff]
        exact (Finset.abs_sum_le_sum_abs _ _).trans (Finset.sum_le_sum fun r _ => Finset.abs_sum_le_sum_abs _ _)
    _ ≤ ∑ r, ∑ c, |Config.default.c 4 r| * |Config.default.c 5 c| * b :=
        Finset.sum_le_sum fun r _ => Finset.sum_le_sum fun c _ => by
          rw [abs_mul, abs_mul]
          exact mul_le_mul_of_nonneg_left (h r c) (by positivity)
    _ = carrierGain * b := by
        rw [carrierGain, Finset.sum_mul_sum]
        simp only [Finset.sum_mul]

/-- What the transform and back makes of a carrier of 1, which is nearly 1. -/
def carrierEcho : QNum := (∑ r, Config.default.c 4 r ^ 2) * ∑ c, Config.default.c 5 c ^ 2

theorem abs_carrierEcho_sub_one_le : |carrierEcho - 1| ≤ gramError := by
  simp only [carrierEcho, Fin.sum_univ_eight]
  decide +kernel

/-- Writing `v` into the carrier adds a multiple of one basis image to the block. -/
theorem inverseSum_with_carrier (y : Fin 8 → Fin 8 → QNum) (v : QNum) (r c : Fin 8) :
    inverseSum (fun i j => if i = 4 ∧ j = 5 then v else y i j) r c =
      inverseSum y r c + (v - y 4 5) * (Config.default.c 4 r * Config.default.c 5 c) := by
  have hcell (i j : Fin 8) : (if i = 4 ∧ j = 5 then v else y i j) =
      y i j + if i = 4 then if j = 5 then v - y 4 5 else 0 else 0 := by
    split_ifs <;> simp_all
  simp only [inverseSum, hcell, mul_add, Finset.sum_add_distrib]
  simp
  ring

theorem carrier_add_basis (x : Fin 8 → Fin 8 → QNum) (d : QNum) :
    forwardSum (fun r c => x r c + d * (Config.default.c 4 r * Config.default.c 5 c)) 4 5 =
      forwardSum x 4 5 + d * carrierEcho := by
  rw [carrierEcho, Finset.sum_mul_sum]
  simp only [forwardSum, mul_add, Finset.sum_add_distrib, Finset.mul_sum]
  congr 1
  exact Finset.sum_congr rfl fun r _ => Finset.sum_congr rfl fun c _ => by ring

/-! ### The bit read back (44_quantizer.md R215, R217) -/

theorem abs_quantized_sub_lt (b : Bool) (c : QNum) {q : QNum} (hq : 0 < q) : |quantized b q c - c| < q := by
  have hlo : 0 ≤ remainder c q := remQ_nonneg c hq
  have hhi : remainder c q < q := remQ_lt c hq
  have hb : 0 < (if b then 3 * q / 4 else q / 4) ∧ (if b then 3 * q / 4 else q / 4) < q := by
    cases b <;> constructor <;> simp <;> linarith
  have hsub : quantized b q c - c = (if b then 3 * q / 4 else q / 4) - remainder c q := by
    unfold quantized remainder
    ring
  rw [hsub, abs_lt]
  constructor <;> linarith

/-- The bit is read back when the carrier has moved by less than a quarter of the strength. -/
theorem bit_of_near_quantized {b : Bool} {c x q : QNum} (hq : 0 < q) (h : |x - quantized b q c| < q / 4) :
    decide (remainder x q > q / 2) = b := by
  obtain ⟨hlo, hhi⟩ := abs_lt.mp h
  have hfloor : ⌊x / q⌋ = ⌊c / q⌋ := by
    rw [Int.floor_eq_iff, le_div_iff₀ hq, div_lt_iff₀ hq]
    unfold quantized at hlo hhi
    constructor <;> cases b <;> simp at hlo hhi <;> linarith
  have hrem : remainder x q = (if b then 3 * q / 4 else q / 4) + (x - quantized b q c) := by
    rw [remainder, hfloor, quantized]
    ring
  cases b <;> simp [hrem] <;> linarith

/-- The samples of a block as bounds of the transform (43_block_transform.md R194). -/
theorem abs_blockLuma_le (s : State) (k : Nat) (r c : Fin 8) : |blockLuma s k r c| ≤ 255 := by
  have hbyte (b : Byte) : |(b.toNat : QNum)| ≤ 255 := by
    rw [Nat.abs_cast]
    exact_mod_cast Nat.le_of_lt_succ b.isLt
  exact hbyte _

/-- The carrier of a marked block after its samples are rounded: the rounding, the round trip of the block and that of the
carrier written move it by less than a quarter of the strength (44_quantizer.md R217). -/
theorem carrier_of_rounded {s : State} {k : Nat} {x : Fin 8 → Fin 8 → QNum} (hq : 29 / 2 ≤ s.q)
    (hx : ∀ r c, |x r c - inverseSum (embeddedCoef s k) r c| ≤ 1 / 2) :
    |forwardSum x 4 5 - quantized (textBit s k) s.q (forwardSum (blockLuma s k) 4 5)| < s.q / 4 := by
  have hround := abs_carrier_sub_le hx
  have htrip := abs_carrier_sub_le (abs_inverseSum_forwardSum_sub_le (abs_blockLuma_le s k))
  have hmove := abs_quantized_sub_lt (textBit s k) (forwardSum (blockLuma s k) 4 5) (q := s.q) (by linarith)
  have hmarked : forwardSum (inverseSum (embeddedCoef s k)) 4 5 =
      forwardSum (inverseSum (forwardSum (blockLuma s k))) 4 5 +
        (quantized (textBit s k) s.q (forwardSum (blockLuma s k) 4 5) - forwardSum (blockLuma s k) 4 5) * carrierEcho := by
    rw [← carrier_add_basis]
    exact congrArg (forwardSum · 4 5) (funext₂ (inverseSum_with_carrier _ _))
  generalize quantized (textBit s k) s.q (forwardSum (blockLuma s k) 4 5) = v at *
  have hecho : |(v - forwardSum (blockLuma s k) 4 5) * (carrierEcho - 1)| ≤ s.q * gramError := by
    rw [abs_mul]
    exact mul_le_mul hmove.le abs_carrierEcho_sub_one_le (abs_nonneg _) (by linarith)
  have hgain := carrierGain_le
  rw [hmarked] at hround
  rw [abs_le] at hround htrip hecho
  rw [abs_lt]
  unfold gramError at *
  constructor <;> linarith

/-! ### The command -/

section Grey

variable {s t : State} {k : Nat}

/-- A block of the sequence with a bit to carry, as `EMBED` leaves its luma. -/
theorem embeddedLuma_block (hk : k < s.blocks) (hbit : k < s.payloadBits) (r c : Fin 8) :
    embeddedLuma s (8 * (k / nb s.w) + r.val) (8 * (k % nb s.w) + c.val) = inverseSum (embeddedCoef s k) r c := by
  rw [← embeddedTo_min_payloadBits, embeddedTo_block hk, if_pos (lt_min hbit hk)]

/-- The luma of a grey image with the watermark, read again: that of the planes, rounded. -/
theorem pixelLuma_of_grey {y : Byte} {r c : Nat} (h : pixel t r c = (y, y, y)) : pixelLuma t r c = y.toNat := by
  rw [pixelLuma, pixelInYCC, h]
  exact congrArg (fun p : Byte × Byte × Byte => (p.1.toNat : QNum)) (toYCC_grey y)

theorem chroma_of_isGrey (h : IsGrey s) {r c : Nat} (hr : r < s.h) (hc : c < s.w) :
    (pixelInYCC s r c).2 = (128, 128) := by
  obtain ⟨hgreen, hblue⟩ := h r hr c hc
  rw [pixelInYCC, hgreen, hblue]
  exact congrArg Prod.snd (toYCC_grey _)

theorem textBit_endsDelim (s : State) : EndsDelim (textBit s) s.payloadBits := by
  have hbit (t : Nat) : textBit s (8 * s.textLen + t) = decide (t < 8) := by simp [textBit]
  refine ⟨by simp [State.Of.payloadBits], fun t ht => ?_, fun t ht => ?_⟩
  · rw [show s.payloadBits - 16 + t = 8 * s.textLen + t by simp [State.Of.payloadBits], hbit, decide_eq_true ht]
  · rw [show s.payloadBits - 8 + t = 8 * s.textLen + (t + 8) by unfold State.Of.payloadBits; omega, hbit,
      decide_eq_false (by omega)]

theorem endsDelim_congr {bit bit' : Nat → Bool} {n : Nat} (h : ∀ k < n, bit k = bit' k) :
    EndsDelim bit n ↔ EndsDelim bit' n := by
  rw [← endsWithDelim_iff, ← endsWithDelim_iff, endsWithDelim_congr h]

theorem q_ge_of_qstep (h : 0x000E8000 ≤ s.regs.qstep.toNat) : 29 / 2 ≤ s.q := by
  have hcast : (950272 : QNum) ≤ s.regs.qstep.toNat := by exact_mod_cast h
  unfold State.Of.q
  linarith

section Command

variable (hs : EmbedAccepts s) (ht : exec .embed s = .next t)
include hs ht

/-- `EMBED` keeps a grey pixel grey, at its luma rounded. -/
theorem pixel_embed_grey (hgrey : IsGrey s) {r c : Nat} (hr : r < s.h) (hc : c < s.w) :
    pixel t r c = (tou8 ratOps (embeddedLuma s r c), tou8 ratOps (embeddedLuma s r c), tou8 ratOps (embeddedLuma s r c)) := by
  obtain ⟨u, hu, himage, -⟩ := embedWritesTheWatermarkedImage s hs
  obtain rfl : t = u := Host.Outcome.next.inj (ht.symm.trans hu)
  obtain ⟨-, -, -, hpixel⟩ := himage r hr c hc
  rw [hpixel, chroma_of_isGrey hgrey hr hc]
  exact fromYCC_grey _

/-- The block that `EXTRACT` reads is the marked one with its samples rounded. -/
theorem blockLuma_embed_grey (hgrey : IsGrey s) (hk : k < s.blocks) (hbit : k < s.payloadBits) (r c : Fin 8) :
    blockLuma t k r c = (tou8 ratOps (inverseSum (embeddedCoef s k) r c)).toNat := by
  have hkept := exec_hostPart ht
  simp only [hostPart, Prod.mk.injEq] at hkept
  obtain ⟨hwidth, -⟩ := hkept
  have hw : t.w = s.w := congrArg BitVec.toNat hwidth
  have hbottom := lt_nb_iff.mp (block_row_lt hk)
  have hright := lt_nb_iff.mp (block_column_lt hk)
  have hr : 8 * (k / nb s.w) + r.val < s.h := by omega
  have hc : 8 * (k % nb s.w) + c.val < s.w := by omega
  rw [blockLuma, hw, pixelLuma_of_grey (pixel_embed_grey hs ht hgrey hr hc), embeddedLuma_block hk hbit]

/-- Each block with a bit to carry carries it. -/
theorem carriedBit_embed_grey (hqstep : 0x000E8000 ≤ s.regs.qstep.toNat)
    (hgrey : IsGrey s)
    (hrange : ∀ r c : Fin 8, -1 / 2 ≤ inverseSum (embeddedCoef s k) r c ∧ inverseSum (embeddedCoef s k) r c < 509 / 2)
    (hk : k < s.blocks) (hbit : k < s.payloadBits) : carriedBit t k = textBit s k := by
  have hq := q_ge_of_qstep hqstep
  have hkept := exec_hostPart ht
  simp only [hostPart, Prod.mk.injEq] at hkept
  obtain ⟨-, -, hstep, -⟩ := hkept
  have hqt : t.q = s.q := by rw [State.Of.q, State.Of.q, hstep]
  have hnear := carrier_of_rounded (x := blockLuma t k) hq fun r c => by
    rw [blockLuma_embed_grey hs ht hgrey hk hbit]
    obtain ⟨hlo, hhi⟩ := hrange r c
    exact abs_tou8_sub_le hlo hhi
  rw [carriedBit, hqt]
  exact bit_of_near_quantized (by linarith) hnear

end Command

end Grey

/-- Settles O40: each bit of the text is carried by its block after rounding, so the first delimiter that `EXTRACT` reads is the
one of the text (O37). -/
theorem embeddedTextIsExtracted : Obligations.EmbeddedTextIsExtracted := by
  intro s hs hfit hqstep hgrey hrange hfirst
  obtain ⟨t, ht, -⟩ := exec_completes .embed s
  have hkept := exec_hostPart ht
  simp only [hostPart, Prod.mk.injEq] at hkept
  obtain ⟨hwidth, hheight, hstep, -⟩ := hkept
  have hcarried (k : Nat) (hk : k < s.payloadBits) : carriedBit t k = textBit s k :=
    carriedBit_embed_grey hs ht hqstep hgrey (hrange k hk) (hk.trans_le hfit) hk
  have hdelim (n : Nat) (hn : n ≤ s.payloadBits) : EndsDelim (carriedBit t) n ↔ EndsDelim (textBit s) n :=
    endsDelim_congr fun k hk => hcarried k (hk.trans_le hn)
  obtain ⟨hvalid, hq, ⟨-, htext⟩, -⟩ := hs
  have hextract := extractStopsAtTheFirstDelimiter t s.payloadBits
  simp only [ValidImage, State.Of.blocks, State.Of.w, State.Of.h, hwidth, hheight, hstep] at hextract
  obtain ⟨u, hu, hfound, -, -, -, -, houtlen, -, -, -, hout⟩ := hextract hvalid hq hfit
    ((hdelim _ le_rfl).mpr (textBit_endsDelim s)) fun n hn => mt (hdelim n hn.le).mp (hfirst n hn)
  have hlen : (s.payloadBits - 16) / 8 = s.textLen := by unfold State.Of.payloadBits; omega
  rw [hlen] at houtlen hout
  refine ⟨t, u, ht, hu, hfound, houtlen, fun g hg => BitVec.eq_of_toNat_eq ?_⟩
  rw [hout g hg, toNat_eq_groupValue (htext g hg) fun i hi => ?_]
  have hplace : (8 * g + i) / 8 = g ∧ (8 * g + i) % 8 = i := by omega
  rw [hcarried _ (by unfold State.Of.payloadBits; omega), textBit, if_pos (by omega), hplace.1, hplace.2]

end Sys2Proof.Machine
end

section
/-! PROOFS. 60_exceptions.md, O5, O41, O42 and O55: the completion of an illegal word, what a command that ends with an
error leaves, which errors a command can raise, and the interrupt line. -/

namespace Sys2Proof.Machine

/-! ### Illegal words (60_exceptions.md R261) -/

theorem decode_error_of_encode_ne {w : Word} (h : ∀ i : Instr, encode i ≠ w) : ∃ r, decode w = .error r := by
  cases hw : decode w with
  | ok i => exact absurd (encode_of_decode hw) (h i)
  | error r => exact ⟨r, rfl⟩

theorem completion_of_decode_error {s : State} {r : Illegal} (h : decode s.cmdl = .error r) :
    completion exec s = .next (completed (some .illcmd) s) := by
  simp only [completion, h]
  rfl

/-- Settles O5: a word that is the word of no command does not decode, and raising an error keeps the latched word. -/
theorem illegalWordCompletesWithIllcmd : Obligations.IllegalWordCompletesWithIllcmd := by
  intro s ts hnext hrst hbusy hword
  obtain ⟨r, hr⟩ := decode_error_of_encode_ne hword
  refine ⟨?_, rfl, rfl⟩
  rw [step_of_engineNext hnext, engineTurn_busy (s := taken ts s) hrst hbusy,
    completion_of_decode_error (s := taken ts s) hr]

/-! ### Completion with an error (60_exceptions.md R271) -/

/-- An error that stands in `ERR` after a command is one that its effect raised: a completed effect clears `ERR`. -/
theorem exec_next_error {i : Instr} {s t : State} {e : Err} (ht : exec i s = .next t) (he : t.flags.err = some e) :
    effectFor Config.default i s = .error e ∧ t = completed (some e) s := by
  rcases execFor_next_cases (exec_eq_execFor i s ▸ ht) with ⟨e', hraised, rfl⟩ | ⟨u, -, rfl⟩
  · obtain rfl : e' = e := Option.some.inj he
    exact ⟨hraised, rfl⟩
  · cases he

/-- Settles O41: the command's effect raised the error, so the command ended by `raiseErr`. -/
theorem errorChangesOnlyStatus : Obligations.ErrorChangesOnlyStatus :=
  fun _ _ _ _ ht he => (exec_next_error ht he).2

/-! ### The errors of each command (60_exceptions.md R260) -/

/-- A check fails with its own error, or passes and leaves the error to what comes after it. -/
theorem checked_eq_error_iff {β : Type} {bad : Bool} {e₀ e : Err} {r : Except Err β} :
    (if bad then Except.error e₀ else r) = Except.error e ↔ bad = true ∧ e₀ = e ∨ bad = false ∧ r = .error e := by
  cases bad <;> simp

/-- An effect with one check raises the error of that check. -/
theorem mem_of_one_check {β : Type} {bad : Bool} {e₀ e : Err} {u : β}
    (h : (if bad then Except.error e₀ else Except.ok u) = Except.error e) : e ∈ [e₀] := by
  rcases checked_eq_error_iff.mp h with ⟨-, rfl⟩ | ⟨-, hok⟩
  · exact List.mem_singleton_self _
  · cases hok

section

variable {s : State} {e : Err}

theorem t2b_error_mem (h : t2b Config.default s = .error e) : e ∈ raisable .t2b := by
  rcases checked_eq_error_iff.mp h with ⟨-, rfl⟩ | ⟨-, htext⟩
  · decide
  · exact List.mem_cons_of_mem _ (mem_of_one_check htext)

/-- Past its checks `EMBED` completes (45_orchestrator.md R231), so it raises no error but theirs. -/
theorem embed_error_mem (h : embed Config.default s = .error e) : e ∈ raisable .embed := by
  have hchecks := h
  simp only [embed, check_bind, checked_eq_error_iff] at hchecks
  rcases hchecks with ⟨-, rfl⟩ | ⟨himg, ⟨-, rfl⟩ | ⟨hq, ⟨-, rfl⟩ | ⟨hlen, ⟨-, rfl⟩ | ⟨htext, ⟨-, rfl⟩ | ⟨hcap, -⟩⟩⟩⟩⟩
  case inr.inr.inr.inr.inr =>
    obtain ⟨u, -, -, hok⟩ := embed_of_accepts ⟨validImage_iff.mpr himg, badStrength_eq_false.mp hq,
      ⟨badTextLen_eq_false.mp hlen, badText_eq_false.mp htext⟩, overCapacity_eq_false.mp hcap⟩
    cases hok.symm.trans h
  all_goals decide

/-- Past its checks `EXTRACT` completes (45_orchestrator.md R232), so it raises no error but theirs. -/
theorem extract_error_mem (h : extract Config.default s = .error e) : e ∈ raisable .extract := by
  have hchecks := h
  simp only [extract, check_bind, checked_eq_error_iff] at hchecks
  rcases hchecks with ⟨-, rfl⟩ | ⟨himg, ⟨-, rfl⟩ | ⟨hq, -⟩⟩
  · decide
  · decide
  · obtain ⟨u, -, hok⟩ := extract_of_valid (validImage_iff.mpr himg) (badStrength_eq_false.mp hq)
    cases hok.symm.trans h

theorem effectFor_error_mem_raisable (i : Instr) (h : effectFor Config.default i s = .error e) : e ∈ raisable i := by
  cases i with
  | nop => cases h
  | t2b => exact t2b_error_mem h
  | b2t => exact mem_of_one_check h
  | cscf => exact mem_of_one_check h
  | csci => exact mem_of_one_check h
  | itrst => cases h
  | itnext => cases (itnext_eq s).symm.trans h
  | blkld => exact mem_of_one_check h
  | blkst => exact mem_of_one_check h
  | fdct => cases h
  | idct => cases h
  | qemb b => exact mem_of_one_check h
  | qext => exact mem_of_one_check h
  | cap => exact mem_of_one_check h
  | embed => exact embed_error_mem h
  | extract => exact extract_error_mem h

end

/-- Settles O42: the error is one that the command's effect raises. -/
theorem commandsRaiseOnlyTheirErrors : Obligations.CommandsRaiseOnlyTheirErrors :=
  fun i _ _ _ ht he => effectFor_error_mem_raisable i (exec_next_error ht he).1

/-! ### The interrupt line (60_exceptions.md R274) -/

theorem ctrlWord_getLsbD_zero (s : State) : s.ctrlWord.getLsbD 0 = s.ctrl.ie := getLsbD_append_flagBit_zero _ _

theorem irq_eq_status_and_ctrlWord (s : State) : s.irq = (s.status.getLsbD 1 && s.ctrlWord.getLsbD 0) := by
  obtain ⟨-, hdone, -⟩ := status_flagBits s
  rw [hdone, ctrlWord_getLsbD_zero, State.Of.irq]

theorem ctrl_eq_of_hostPart_eq {ν : Type} {s t : State.Of ν} (h : hostPart t = hostPart s) : t.ctrl = s.ctrl := by
  simp only [hostPart, Prod.mk.injEq] at h
  simp only [h]

theorem exec_irq {i : Instr} {s t : State} (ht : exec i s = .next t) : t.irq = s.ctrl.ie := by
  obtain ⟨u, hu, -, hdone⟩ := exec_completes i s
  cases hu.symm.trans ht
  rw [State.Of.irq, hdone, ctrl_eq_of_hostPart_eq (exec_hostPart ht), Bool.true_and]

/-- Settles O55: `DONE` is bit 1 of `STATUS` and `IE` bit 0 of `CTRL`; issue clears `DONE`, completion sets it, and no
command writes `CTRL`. -/
theorem interruptFollowsDone : Obligations.InterruptFollowsDone :=
  ⟨irq_eq_status_and_ctrlWord, rfl, fun _ _ => rfl, fun _ _ _ => exec_irq⟩

end Sys2Proof.Machine
end

section
/-! PROOFS. 70_reset_and_hazards.md, O56, O57 and O58: the registers after reset, the input `rst`, and the invariant
right after reset. -/

namespace Sys2Proof.Machine

variable {ν : Type} {cfg : Config ν} {s : State.Of ν}

/-! ### The state after a reset (70_reset_and_hazards.md R291) -/

/-- Settles O56: `QSTEP = 0x00140000 = 20 · 65536`, so the strength is 20; every other clause reads a field of
`State.reset`. -/
theorem stateAfterReset : Obligations.StateAfterReset := by
  have hstrength : State.reset.strength ratOps = 20 := by
    have hqstep : State.reset.regs.qstep.toNat = 20 * 65536 := rfl
    rw [strength_eq, hqstep]
    norm_num
  exact ⟨rfl, rfl, rfl, rfl, rfl, rfl, rfl, hstrength, rfl, rfl⟩

/-- Settles O58: `State.reset` is the state after reset number 0. -/
theorem invariantHoldsAtReset : Obligations.InvariantHoldsAtReset := afterReset_inv Config.default 0 _

/-! ### Cells that nothing has written since the reset (70_reset_and_hazards.md R292) -/

section Unwritten

variable (cfg : Config ν) (epoch : Nat)

@[simp] theorem pixByte_unwritten (k : Nat) : (Memory.unwritten epoch).pixByte cfg k = cfg.resetMem.pix epoch k := rfl

@[simp] theorem txtWord_unwritten (k : Nat) : (Memory.unwritten epoch).txtWord cfg k = cfg.resetMem.txt epoch k := rfl

@[simp] theorem outWord_unwritten (k : Nat) : (Memory.unwritten epoch).outWord cfg k = cfg.resetMem.out epoch k := rfl

@[simp] theorem bit_unwritten (k : Nat) : (Memory.unwritten epoch).bit cfg k = cfg.resetMem.bits epoch k := rfl

@[simp] theorem lumaAt_unwritten (r c : Nat) : (Memory.unwritten epoch).lumaAt cfg r c = cfg.resetMem.luma epoch r c :=
  rfl

@[simp] theorem chr1At_unwritten (r c : Nat) : (Memory.unwritten epoch).chr1At cfg r c = cfg.resetMem.chr1 epoch r c :=
  rfl

@[simp] theorem chr2At_unwritten (r c : Nat) : (Memory.unwritten epoch).chr2At cfg r c = cfg.resetMem.chr2 epoch r c :=
  rfl

end Unwritten

/-! ### The input `rst` (70_reset_and_hazards.md R290) -/

theorem resetInput_assert (h : s.port.rst = false) :
    resetInput cfg true s = State.Of.afterReset cfg (s.mem.epoch + 1) { s.port with rst := true } := by
  simp [resetInput, h]

/-- Releasing `rst` lowers its level; where it is low already, that is no change. -/
theorem resetInput_release : resetInput cfg false s = { s with port := { s.port with rst := false } } := by
  cases hlevel : s.port.rst with
  | false => rw [resetInput, if_pos hlevel.symm, ← hlevel]
  | true => simp [resetInput, hlevel]

theorem engineTurn_in_reset (run : Instr → State.Of ν → Host.Outcome (State.Of ν) Fault Refusal)
    (h : s.port.rst = true) : engineTurn run s = .next s :=
  if_pos h

theorem step_rst {s : State} {level : Bool} {ts : List Turn} (h : s.port.turns = .rst level :: ts) :
    step s = .next (resetInput Config.default level (taken ts s)) :=
  turnStep_rst Config.default exec h

/-- Settles O57: a step that asserts `rst` leaves the state after the next reset, whatever the phase; with `rst`
asserted the Engine's turn changes nothing, and releasing it changes its level only. -/
theorem resetInputResetsTheRegisters : Obligations.ResetInputResetsTheRegisters := by
  intro s ts
  refine ⟨fun hturns hlow => ?assert, fun hhigh hnext => ?engine, fun hturns => ?release⟩
  case assert =>
    refine ⟨_, (step_rst hturns).trans (congrArg _ (resetInput_assert hlow)), (afterReset_inv _ _ _).reset rfl, rfl,
      fun r c => ⟨matAt_matOf _ r c, matAt_matOf _ r c⟩, fun k => ?_, fun r c => ?_, rfl⟩
    · exact ⟨pixByte_unwritten _ _ k, txtWord_unwritten _ _ k, outWord_unwritten _ _ k, bit_unwritten _ _ k⟩
    · exact ⟨lumaAt_unwritten _ _ r c, chr1At_unwritten _ _ r c, chr2At_unwritten _ _ r c⟩
  case engine => rw [step_of_engineNext hnext, engineTurn_in_reset exec (s := taken ts s) hhigh]
  case release => exact (step_rst hturns).trans (congrArg _ resetInput_release)

end Sys2Proof.Machine
end
